-- ==== Sys2Proof/Word.lean ====
section
/-! DEFINITION. The widths of the codec: bytes, 16-bit and 32-bit register values, and a pixel of four
exact rational samples (spec/00_scope.md R7, R8, R10; spec/10_state.md R20). -/

namespace Sys2Proof

/-- One byte of the stream, or an 8-bit register (00 R7). -/
abbrev Byte := BitVec 8

/-- A DIM_BITS = 16 bit register value, a packed colour, a 16-bit command word (00 R6). -/
abbrev Half := BitVec 16

/-- A POS_BITS = 32 bit register value (00 R6). -/
abbrev Word := BitVec 32

/-- A sample is an exact rational; the spec's samples lie in [0, 1] (00 R8), which `Pixel.inRange`
states and the model's invariant keeps (log 5). -/
abbrev Sample := Rat

/-- A colour: a triple of samples (40 R120). -/
structure Color where
  r : Sample
  g : Sample
  b : Sample
  deriving DecidableEq, Repr

/-- A pixel: a 4-tuple of samples (00 R10). -/
structure Pixel where
  r : Sample
  g : Sample
  b : Sample
  a : Sample
  deriving DecidableEq, Repr

end Sys2Proof
end

