-- ==== Sys2Proof/Syntax.lean ====
section
/-! DEFINITION. The instructions: one constructor per row of spec/opcode_table.json (30_encoding.md R110,
R112, R90), and the host's statements of 30_encoding.md R115. -/

namespace Sys2Proof

/-- The formats whose unit is one 4x4 block (30 R90). -/
inductive BlockFmt where
  | dxt1
  | dxt3
  | dxt5
  deriving DecidableEq, Repr

/-- The five format tags with a meaning (10 R21). -/
inductive Fmt where
  | block (b : BlockFmt)
  | idx4
  | idx8
  deriving DecidableEq, Repr

/-- A command that runs the unit loop of 46 R293: DEC of any format, ENC of a block format. -/
inductive Command where
  | dec (f : Fmt)
  | enc (b : BlockFmt)
  deriving DecidableEq, Repr

/-- A DXT1 colour block (30 R91): endpoints `c0`, `c1` and the index byte `x<r>` of tile row r. -/
structure ColorBlock where
  c0 : Half
  c1 : Half
  x0 : Byte
  x1 : Byte
  x2 : Byte
  x3 : Byte
  deriving DecidableEq, Repr

/-- The eight bytes of a DXT3 alpha plane (30 R96). -/
structure AlphaPlane where
  b0 : Byte
  b1 : Byte
  b2 : Byte
  b3 : Byte
  b4 : Byte
  b5 : Byte
  b6 : Byte
  b7 : Byte
  deriving DecidableEq, Repr

/-- A DXT5 alpha block (30 R97, R99): endpoints `a0`, `a1` and the 48-bit index word `q`. -/
structure AlphaBlock where
  a0 : Byte
  a1 : Byte
  q : BitVec 48
  deriving DecidableEq, Repr

/-- A DXT3 block (30 R94): the alpha plane, then a colour block. -/
structure Dxt3Block where
  alpha : AlphaPlane
  color : ColorBlock
  deriving DecidableEq, Repr

/-- A DXT5 block (30 R97): the alpha block, then a colour block. -/
structure Dxt5Block where
  alpha : AlphaBlock
  color : ColorBlock
  deriving DecidableEq, Repr

/-- Which way a unit of a block format crosses the stream (46 R293; log 15): `read block` is a unit a
DEC command has read and now decodes; `write` is a unit an ENC command now produces (it takes no bits
from the stream). -/
inductive Wire (α : Type) where
  | read (block : α)
  | write
  deriving DecidableEq, Repr

/-- The rows of spec/opcode_table.json, in its order. -/
inductive Instr where
  /-- DEC.DXT1 (46 R300). -/
  | decDxt1
  /-- DEC.DXT3 (46 R301). -/
  | decDxt3
  /-- DEC.DXT5 (46 R302). -/
  | decDxt5
  /-- DEC.IDX4 (46 R303). -/
  | decIdx4
  /-- DEC.IDX8 (46 R304). -/
  | decIdx8
  /-- ENC.DXT1 (46 R305). -/
  | encDxt1
  /-- ENC.DXT3 (46 R306). -/
  | encDxt3
  /-- ENC.DXT5 (46 R307). -/
  | encDxt5
  /-- PAL.DEFILT (46 R308); `fmt` is the FMT byte of CMD16, which the command does not read. -/
  | palDefilt (fmt : Byte)
  /-- ILLEGAL.DEC (30 R112 (a)): OP = 1 with the FMT byte `fmt` in 5..255. -/
  | illegalDec (fmt : Byte)
  /-- ILLEGAL.ENC (30 R112 (a), (b)): OP = 2 with the FMT byte `fmt` in 3..255. -/
  | illegalEnc (fmt : Byte)
  /-- RESERVED (30 R112 (c)): any CMD16 that no earlier row matches. -/
  | reserved (cmd16 : Half)
  /-- WIRE.DXT1 (30 R91): one unit of a DXT1 texture. -/
  | wireDxt1 (u : Wire ColorBlock)
  /-- WIRE.DXT3 (30 R94): one unit of a DXT3 texture. -/
  | wireDxt3 (u : Wire Dxt3Block)
  /-- WIRE.DXT5 (30 R97): one unit of a DXT5 texture. -/
  | wireDxt5 (u : Wire Dxt5Block)
  /-- WIRE.IDX4 (30 R100): `l` is the left pixel's index, `r` the right one's. -/
  | wireIdx4 (r : BitVec 4) (l : BitVec 4)
  /-- WIRE.IDX8 (30 R101): one palette index. -/
  | wireIdx8 (i : Byte)
  deriving DecidableEq, Repr

/-- The host-visible registers (10 R20). -/
inductive Reg where
  | fmt
  | width
  | height
  | levels
  | spos
  | slen
  | pallen
  | cmd
  | status
  | err
  | ucnt
  deriving DecidableEq, Repr

/-- A host write of a register, the value at the register's own width. Only the registers 10 R20 gives
write access to occur; STATUS, ERR and UCNT are read only (log 17). -/
inductive RegWrite where
  | fmt (v : Byte)
  | width (v : Half)
  | height (v : Half)
  | levels (v : Half)
  | spos (v : Word)
  | slen (v : Word)
  | pallen (v : Half)
  | cmd (v : Byte)
  deriving DecidableEq, Repr

/-- One statement of the host (30 R115), the reads of memory that 10 R41 allows it, and reset (70 R370). -/
inductive HostAction where
  /-- `WR reg, v`; `START op` is `wr (.cmd op)`. -/
  | wr (w : RegWrite)
  /-- `RD reg`. -/
  | rd (r : Reg)
  /-- `WRS a, b0 b1 ...`. -/
  | wrs (a : Word) (bytes : List Byte)
  /-- `WRIMG x, y, p`. -/
  | wrImg (x y : Half) (p : Pixel)
  /-- `WRPAL i, p`. -/
  | wrPal (i : Byte) (p : Pixel)
  /-- A host read of the stream byte at offset `a` (10 R41). -/
  | rdStream (a : Word)
  /-- A host read of the image pixel at (x, y) (10 R41). -/
  | rdImg (x y : Half)
  /-- A host read of palette entry `i` (10 R41). -/
  | rdPal (i : Byte)
  /-- `WAIT`: repeat `RD STATUS` until the value is not BUSY. -/
  | wait
  /-- Reset of the codec (70 R370, R371). -/
  | reset
  deriving DecidableEq, Repr

end Sys2Proof
end

