-- ==== Sys2Proof/WellFormed.lean ====
section
/-! DEFINITION. Which terms of `Instr` and `HostAction` stand for something the spec has: the FMT bytes of
the catch-all rows (30_encoding.md R112) and samples in [0, 1] (00_scope.md R8). -/

namespace Sys2Proof

/-- Every sample of the pixel lies in [0, 1] (00 R8). -/
def Pixel.inRange (p : Pixel) : Bool :=
  decide (0 ≤ p.r) && decide (p.r ≤ 1) && decide (0 ≤ p.g) && decide (p.g ≤ 1) &&
    decide (0 ≤ p.b) && decide (p.b ≤ 1) && decide (0 ≤ p.a) && decide (p.a ≤ 1)

/-- The instruction is the one its row's words mean: a catch-all row holds only words that no earlier
row matches (30 R110, R112). -/
def Instr.WellFormed : Instr → Bool
  | .illegalDec fmt => decide (4 < fmt.toNat)
  | .illegalEnc fmt => decide (2 < fmt.toNat)
  | .reserved cmd16 =>
    decide (cmd16.toNat % 256 ≠ 1) && decide (cmd16.toNat % 256 ≠ 2) && decide (cmd16.toNat % 256 ≠ 3)
  | .decDxt1 | .decDxt3 | .decDxt5 | .decIdx4 | .decIdx8 | .encDxt1 | .encDxt3 | .encDxt5 => true
  | .palDefilt _ => true
  | .wireDxt1 _ | .wireDxt3 _ | .wireDxt5 _ | .wireIdx4 _ _ | .wireIdx8 _ => true

/-- The host writes only pixels there are (93 U7). -/
def HostAction.WellFormed : HostAction → Bool
  | .wrImg _ _ p => p.inRange
  | .wrPal _ p => p.inRange
  | .wr _ | .rd _ | .wrs _ _ | .rdStream _ | .rdImg _ _ | .rdPal _ | .wait | .reset => true

end Sys2Proof
end

