-- ==== Sys2Proof/Decode.lean ====
section
/-! DEFINITION. The decoder, total on any bytes and rejecting by name, and the encoder, both from
30_encoding.md: the command word CMD16 (R110 to R112), the five wire formats (R91 to R101), and the
host port's (register number, value) pairs (R115). -/

namespace Sys2Proof

/-- The little-endian 16-bit value of two consecutive bytes (00 R11, 20 R61): `b0 + 256 * b1`. -/
def le16 (b0 b1 : Byte) : Half := b1 ++ b0

/-- Byte `j` of a value, counted from its least significant byte. -/
def byteOf {n : Nat} (v : BitVec n) (j : Nat) : Byte := v.extractLsb' (8 * j) 8

/-- Where an instruction is read: the command word a write to CMD makes (30 R110), or the next unit of a
running command (46 R293). -/
inductive Slot where
  | command
  | unit (c : Command)
  deriving DecidableEq, Repr

/-- Why bytes are no instruction. -/
inductive DecodeReject where
  /-- The slot takes another number of bytes. -/
  | wrongLength (wanted got : Nat)
  deriving DecidableEq, Repr

/-- The opcode table's command rows on CMD16 = FMT || v, first match wins (30 R110, R112). -/
def decodeCommand (v fmt : Byte) : Instr :=
  if v = 1#8 then
    if fmt = 0#8 then .decDxt1
    else if fmt = 1#8 then .decDxt3
    else if fmt = 2#8 then .decDxt5
    else if fmt = 3#8 then .decIdx4
    else if fmt = 4#8 then .decIdx8
    else .illegalDec fmt
  else if v = 2#8 then
    if fmt = 0#8 then .encDxt1
    else if fmt = 1#8 then .encDxt3
    else if fmt = 2#8 then .encDxt5
    else .illegalEnc fmt
  else if v = 3#8 then .palDefilt fmt
  else .reserved (fmt ++ v)

/-- The eight bytes of a colour block (30 R91). -/
def decodeColor (b0 b1 b2 b3 b4 b5 b6 b7 : Byte) : ColorBlock :=
  { c0 := le16 b0 b1, c1 := le16 b2 b3, x0 := b4, x1 := b5, x2 := b6, x3 := b7 }

/-- The eight bytes of a DXT5 alpha block (30 R97, R99): the first index byte is the most significant
of the 48-bit word. -/
def decodeAlpha (b0 b1 b2 b3 b4 b5 b6 b7 : Byte) : AlphaBlock :=
  { a0 := b0, a1 := b1, q := b2 ++ b3 ++ b4 ++ b5 ++ b6 ++ b7 }

/-- The number of stream bytes in one unit of a format (46 R292). -/
def unitSize : Fmt → Nat
  | .block .dxt1 => 8
  | .block .dxt3 => 16
  | .block .dxt5 => 16
  | .idx4 => 1
  | .idx8 => 1

/-- One unit of a format from its bytes in stream order (30 R91, R94, R97, R100, R101). -/
def decodeUnitBytes : Fmt → List Byte → Except DecodeReject Instr
  | .block .dxt1, [b0, b1, b2, b3, b4, b5, b6, b7] =>
    .ok (.wireDxt1 (.read (decodeColor b0 b1 b2 b3 b4 b5 b6 b7)))
  | .block .dxt3, [b0, b1, b2, b3, b4, b5, b6, b7, b8, b9, b10, b11, b12, b13, b14, b15] =>
    .ok (.wireDxt3 (.read { alpha := ⟨b0, b1, b2, b3, b4, b5, b6, b7⟩,
                            color := decodeColor b8 b9 b10 b11 b12 b13 b14 b15 }))
  | .block .dxt5, [b0, b1, b2, b3, b4, b5, b6, b7, b8, b9, b10, b11, b12, b13, b14, b15] =>
    .ok (.wireDxt5 (.read { alpha := decodeAlpha b0 b1 b2 b3 b4 b5 b6 b7,
                            color := decodeColor b8 b9 b10 b11 b12 b13 b14 b15 }))
  | .idx4, [b0] => .ok (.wireIdx4 (b0.extractLsb' 4 4) (b0.extractLsb' 0 4))
  | .idx8, [b0] => .ok (.wireIdx8 b0)
  | f, bytes => .error (.wrongLength (unitSize f) bytes.length)

/-- The unit an ENC command produces (46 R293): it takes no bytes from the stream. -/
def encodedUnit : BlockFmt → Instr
  | .dxt1 => .wireDxt1 .write
  | .dxt3 => .wireDxt3 .write
  | .dxt5 => .wireDxt5 .write

/-- The decoder. -/
def decode : Slot → List Byte → Except DecodeReject Instr
  | .command, [v, fmt] => .ok (decodeCommand v fmt)
  | .command, bytes => .error (.wrongLength 2 bytes.length)
  | .unit (.dec f), bytes => decodeUnitBytes f bytes
  | .unit (.enc b), [] => .ok (encodedUnit b)
  | .unit (.enc _), bytes => .error (.wrongLength 0 bytes.length)

/-- The eight bytes of a colour block, in stream order (30 R91). -/
def encodeColor (k : ColorBlock) : List Byte :=
  [byteOf k.c0 0, byteOf k.c0 1, byteOf k.c1 0, byteOf k.c1 1, k.x0, k.x1, k.x2, k.x3]

/-- The eight bytes of an alpha plane (30 R96). -/
def encodePlane (k : AlphaPlane) : List Byte :=
  [k.b0, k.b1, k.b2, k.b3, k.b4, k.b5, k.b6, k.b7]

/-- The eight bytes of a DXT5 alpha block (30 R97, R99). -/
def encodeAlpha (k : AlphaBlock) : List Byte :=
  [k.a0, k.a1, byteOf k.q 5, byteOf k.q 4, byteOf k.q 3, byteOf k.q 2, byteOf k.q 1, byteOf k.q 0]

/-- The bytes of a DXT3 block (30 R94). -/
def encodeDxt3 (k : Dxt3Block) : List Byte := encodePlane k.alpha ++ encodeColor k.color

/-- The bytes of a DXT5 block (30 R97). -/
def encodeDxt5 (k : Dxt5Block) : List Byte := encodeAlpha k.alpha ++ encodeColor k.color

/-- The bytes of an instruction. A command word is CMD then FMT, its low byte first (30 R110). -/
def encode : Instr → List Byte
  | .decDxt1 => [1#8, 0#8]
  | .decDxt3 => [1#8, 1#8]
  | .decDxt5 => [1#8, 2#8]
  | .decIdx4 => [1#8, 3#8]
  | .decIdx8 => [1#8, 4#8]
  | .encDxt1 => [2#8, 0#8]
  | .encDxt3 => [2#8, 1#8]
  | .encDxt5 => [2#8, 2#8]
  | .palDefilt fmt => [3#8, fmt]
  | .illegalDec fmt => [1#8, fmt]
  | .illegalEnc fmt => [2#8, fmt]
  | .reserved cmd16 => [byteOf cmd16 0, byteOf cmd16 1]
  | .wireDxt1 (.read k) => encodeColor k
  | .wireDxt3 (.read k) => encodeDxt3 k
  | .wireDxt5 (.read k) => encodeDxt5 k
  | .wireDxt1 .write => []
  | .wireDxt3 .write => []
  | .wireDxt5 .write => []
  | .wireIdx4 r l => [r ++ l]
  | .wireIdx8 i => [i]

/-- The slot an instruction is read in. -/
def slotOf : Instr → Slot
  | .wireDxt1 (.read _) => .unit (.dec (.block .dxt1))
  | .wireDxt3 (.read _) => .unit (.dec (.block .dxt3))
  | .wireDxt5 (.read _) => .unit (.dec (.block .dxt5))
  | .wireDxt1 .write => .unit (.enc .dxt1)
  | .wireDxt3 .write => .unit (.enc .dxt3)
  | .wireDxt5 .write => .unit (.enc .dxt5)
  | .wireIdx4 _ _ => .unit (.dec .idx4)
  | .wireIdx8 _ => .unit (.dec .idx8)
  | .decDxt1 | .decDxt3 | .decDxt5 | .decIdx4 | .decIdx8 | .encDxt1 | .encDxt3 | .encDxt5 => .command
  | .palDefilt _ | .illegalDec _ | .illegalEnc _ | .reserved _ => .command

/-- `n` bytes of a number, the least significant first. -/
def bytesOfNat : Nat → Nat → List Byte
  | 0, _ => []
  | n + 1, w => BitVec.ofNat 8 w :: bytesOfNat n (w / 256)

/-- The slot that a word of `nbits` bits is read in when only its width is known: a unit row's width
names its format (one byte is read as IDX4 and sixteen as DXT3, since the table's wire rows fix no bit
that would tell them from IDX8 and DXT5; log 21); anything else is a command word. -/
def slotOfWidth (nbits : Nat) : Slot :=
  if nbits = 8 then .unit (.dec .idx4)
  else if nbits = 64 then .unit (.dec (.block .dxt1))
  else if nbits = 128 then .unit (.dec (.block .dxt3))
  else .command

/-- The number of bytes a slot takes. -/
def slotBytes : Slot → Nat
  | .command => 2
  | .unit (.dec f) => unitSize f
  | .unit (.enc _) => 0

/-- The instruction the decoder reads from a word numbered as spec/opcode_table.json numbers it: CMD16
has the CMD byte in bits 7:0 and FMT in bits 15:8 (30 R110); a wire unit's byte j is bits 8j+7:8j. -/
def decodeTableWord (nbits w : Nat) : Option Instr :=
  match decode (slotOfWidth nbits) (bytesOfNat (slotBytes (slotOfWidth nbits)) w) with
  | .ok i => some i
  | .error _ => none

/-- The number of a register on the host port (10 R20). -/
def Reg.number : Reg → Nat
  | .fmt => 0
  | .width => 1
  | .height => 2
  | .levels => 3
  | .spos => 4
  | .slen => 5
  | .pallen => 6
  | .cmd => 7
  | .status => 8
  | .err => 9
  | .ucnt => 10

/-- Why a (register number, value) pair is no host write. -/
inductive PortReject where
  | noSuchRegister (no : Nat)
  | readOnly (no : Nat)
  | valueTooWide (no : Nat)
  deriving DecidableEq, Repr

/-- The host write that a (register number, value) pair of the host port stands for (30 R115, 10 R20). -/
def decodePort (no v : Nat) : Except PortReject RegWrite :=
  match no with
  | 0 => if v < 2 ^ 8 then .ok (.fmt (BitVec.ofNat 8 v)) else .error (.valueTooWide no)
  | 1 => if v < 2 ^ 16 then .ok (.width (BitVec.ofNat 16 v)) else .error (.valueTooWide no)
  | 2 => if v < 2 ^ 16 then .ok (.height (BitVec.ofNat 16 v)) else .error (.valueTooWide no)
  | 3 => if v < 2 ^ 16 then .ok (.levels (BitVec.ofNat 16 v)) else .error (.valueTooWide no)
  | 4 => if v < 2 ^ 32 then .ok (.spos (BitVec.ofNat 32 v)) else .error (.valueTooWide no)
  | 5 => if v < 2 ^ 32 then .ok (.slen (BitVec.ofNat 32 v)) else .error (.valueTooWide no)
  | 6 => if v < 2 ^ 16 then .ok (.pallen (BitVec.ofNat 16 v)) else .error (.valueTooWide no)
  | 7 => if v < 2 ^ 8 then .ok (.cmd (BitVec.ofNat 8 v)) else .error (.valueTooWide no)
  | 8 => .error (.readOnly no)
  | 9 => .error (.readOnly no)
  | 10 => .error (.readOnly no)
  | no => .error (.noSuchRegister no)

/-- The (register number, value) pair of a host write (30 R115). -/
def encodePort : RegWrite → Nat × Nat
  | .fmt v => (0, v.toNat)
  | .width v => (1, v.toNat)
  | .height v => (2, v.toNat)
  | .levels v => (3, v.toNat)
  | .spos v => (4, v.toNat)
  | .slen v => (5, v.toNat)
  | .pallen v => (6, v.toNat)
  | .cmd v => (7, v.toNat)

end Sys2Proof
end

