-- ==== Sys2Proof/Config.lean ====
section
/-! DEFINITION. What the spec leaves to the implementation. The parameters of 00_scope.md R6 stand at the
value of its "value" column (log 4); what the spec calls a `draw` is an opaque constant without a body,
applied to the counter `State.draws`, so nothing can be proved of its value (00 R11; logs 8, 10, 11, 12, 14, 16).
What a descriptor register holds at reset, for which the spec states no value, is such a constant too (log 1). -/

namespace Sys2Proof

/-- The endpoint order the colour encoder aims at (00 R6 `ENC_MODE`, 41 R153). -/
inductive EncMode where
  | four
  | three
  deriving DecidableEq, Repr

/-- `ENC_MODE = FOUR` (00 R6, decision D10; log 4). -/
def Config.encMode : EncMode := .four

/-- `COLOR_DEFAULT = (0, 0)` (00 R6, 44 R242, decision D14; log 4). -/
def Config.colorDefault : Nat × Nat := (0, 0)

/-- The default pair of the DXT5 alpha fit, NUX's "(254/255, 1.0)" (43 R211). -/
def Config.alphaDefault : Nat × Nat := (254, 255)

/-- FREE VALUE: what FMT holds at reset (10 R38: no value is stated, and it "must not" be 0; logs 1, 2). -/
opaque Config.resetFmt : Byte

/-- FREE VALUE: what WIDTH holds at reset (10 R38; logs 1, 2). -/
opaque Config.resetWidth : Half

/-- FREE VALUE: what HEIGHT holds at reset (10 R38; logs 1, 2). -/
opaque Config.resetHeight : Half

/-- FREE VALUE: what LEVELS holds at reset (10 R38; logs 1, 2). -/
opaque Config.resetLevels : Half

/-- FREE VALUE: what SPOS holds at reset (10 R38; logs 1, 2). -/
opaque Config.resetSpos : Word

/-- FREE VALUE: what SLEN holds at reset (10 R38; logs 1, 2). -/
opaque Config.resetSlen : Word

/-- FREE VALUE: what PALLEN holds at reset (10 R38; logs 1, 2). -/
opaque Config.resetPallen : Half

/-- FREE VALUE: the stream cursor after an error (10 R25, 60 R340; log 10). -/
opaque Config.freeSpos : Nat → Word

/-- FREE VALUE: a stream byte an error leaves unspecified (60 R341), and the byte a read of CMD
returns (10 R28) (logs 11, 14). -/
opaque Config.freeByte : Nat → Byte

/-- FREE VALUE: the two naturals from which a free sample is made (`freeSample`); every rational of
[0, 1] arises from some pair (logs 11, 12). -/
opaque Config.freePair : Nat → Nat × Nat

/-- FREE VALUE: whether the host's pending STATUS poll, or its pending reset, lands before the next unit of
the running command (46 R293: the size of the codec's steps is not observable; logs 8, 16). -/
opaque Config.freePoll : Nat → Bool

end Sys2Proof
end

