-- ==== Sys2Proof/Machine/State.lean ====
section
/-! DEFINITION. The codec's state (10_state.md), the reasons a step stops, and the state after reset
(10_state.md R40, 70_reset_and_hazards.md R370). -/

namespace Sys2Proof.Machine

/-- A memory: the cells that hold a value, by address, the addresses strictly rising. An address that is
not listed holds no value (10 R38; log 3). -/
abbrev Memory (α : Type) := List (Nat × α)

/-- The STATUS register's four values (10 R29). -/
inductive Status where
  | idle
  | busy
  | done
  | error
  deriving DecidableEq, Repr

/-- The ERR register's values; 5..7 never occur (10 R31). -/
inductive ErrCode where
  | none
  | unsupportedFormat
  | truncatedStream
  | paletteIndexOutOfRange
  | invalidPaletteSize
  deriving DecidableEq, Repr

/-- Which descriptor registers the host has written since reset, and SPOS an error too (10 R38, R40; log 10). No
command and no read looks at the marks: a register that nothing has written is read like any other. MODEL'S
CHOICE: 10 R38 has a model refuse a command that does so (log 2). -/
structure Written where
  fmt : Bool
  width : Bool
  height : Bool
  levels : Bool
  spos : Bool
  slen : Bool
  pallen : Bool
  deriving DecidableEq, Repr

/-- What the host's last read returned (30 R115): nothing yet, a register's value, a stream byte, a pixel. -/
inductive PortData where
  | nothing
  | reg (v : Word)
  | byte (v : Byte)
  | pixel (p : Pixel)
  deriving DecidableEq, Repr

/-- Everything the spec gives the machine (10 R20 to R40), and the model's own `script`, `port` and
`draws` (INVENTORY.md, State). -/
structure State where
  /-- FMT (10 R21). -/
  fmt : Byte
  /-- WIDTH (10 R22). -/
  width : Half
  /-- HEIGHT (10 R23). -/
  height : Half
  /-- LEVELS (10 R24): carried, read by no rule. -/
  levels : Half
  /-- SPOS (10 R25), the stream cursor. -/
  spos : Word
  /-- SLEN (10 R26). -/
  slen : Word
  /-- PALLEN (10 R27). -/
  pallen : Half
  /-- Which descriptor registers have been written (10 R38, R40). -/
  written : Written
  /-- STATUS (10 R29). -/
  status : Status
  /-- ERR (10 R31). -/
  err : ErrCode
  /-- UCNT (10 R30). -/
  ucnt : Word
  /-- The palette RAM, by index (10 R33). -/
  pal : Memory Pixel
  /-- The stream memory, by offset (10 R34). -/
  stream : List Host.Cell
  /-- The image memory, by `imageKey x y` (10 R35). -/
  image : Memory Pixel
  /-- The command in progress (46 R290, R293). -/
  running : Option Command
  /-- Whether the host has written CMD and not yet read STATUS as DONE or ERROR: the window in which 70 R380
  leaves it no access but a read of STATUS (log 9). -/
  unread : Bool
  /-- MODEL'S OWN: the host's pending actions, first one first (30 R115; log 7). -/
  script : List HostAction
  /-- MODEL'S OWN: what the host's last read returned (log 7). -/
  port : PortData
  /-- MODEL'S OWN: how many free values have been taken (00 R11; logs 10, 11, 12). -/
  draws : Nat
  deriving DecidableEq, Repr

/-- Why the machine stops with a fault. The codec's own four errors are no faults: they are next states
(60 R340). -/
inductive Fault where
  /-- Raised by the host's `WRS` when a byte would lie past offset 2^32 - 1: the stream has 32-bit
  offsets and no such address exists (00 R6, 10 R34). Safe (log 17). -/
  | streamOffsetOutsideSpace
  deriving DecidableEq, Repr

/-- Why an instruction or a host action has no meaning. -/
inductive Refusal where
  /-- Raised by an arm of `exec` that has no meaning yet; no arm raises it now. Safe. -/
  | notModelled (mnemonic : String)
  /-- Raised by RESERVED: the spec gives a reserved command byte no meaning (30 R112 (c), 93 U9). Safe. -/
  | reservedCommand
  /-- Raised by DEC.IDX4 when WIDTH is odd (45 R262, 93 U5). Safe. -/
  | oddIdx4Width
  /-- Raised by a DEC unit or a host read at a stream byte nothing has written (10 R38). Safe (log 3). -/
  | unwrittenStream
  /-- Raised by an ENC unit or a host read at an image pixel nothing has written (10 R38). Safe (log 3). -/
  | unwrittenImage
  /-- Raised by an indexed lookup, PAL.DEFILT or a host read at a palette entry nothing has written
  (10 R38). Safe (log 3). -/
  | unwrittenPalette
  /-- Raised by a host action other than a poll of STATUS while STATUS is BUSY (10 R41, 70 R380). Safe
  (log 9). -/
  | hostAccessWhileBusy
  /-- Raised by a host action other than a read of STATUS, a WAIT or a reset after a command has ended and
  before the host has read STATUS as DONE or ERROR (70 R380, 20 R70). Safe (log 9). -/
  | hostAccessBeforeStatusRead
  /-- Raised by a wire unit when the command it belongs to is not running or has no unit left: a unit has
  meaning only inside the loop of 46 R293. Safe (log 15). -/
  | noUnitRunning
  /-- Raised by a host write of a pixel with a sample outside [0, 1] (93 U7). Safe (log 5). -/
  | sampleOutOfRange
  /-- Raised by the fetch if its bytes were no instruction; the fetch always reads the right number of
  bytes, so this is never reached. Safe. -/
  | undecodable
  deriving DecidableEq, Repr

/-- After reset: STATUS = IDLE, ERR = none, UCNT = 0, no command in progress, every descriptor register,
palette entry, stream byte and image pixel unwritten (10 R40, 70 R370). What a descriptor register holds while
it is unwritten is a constant without a body, one for every run, of which nothing can be proved (DESIGN CHOICE,
log 1). -/
def State.reset : State :=
  { fmt := Config.resetFmt, width := Config.resetWidth, height := Config.resetHeight,
    levels := Config.resetLevels, spos := Config.resetSpos, slen := Config.resetSlen,
    pallen := Config.resetPallen,
    written := ⟨false, false, false, false, false, false, false⟩,
    status := .idle, err := .none, ucnt := 0,
    pal := [], stream := [], image := [],
    running := none, unread := false, script := [], port := .nothing, draws := 0 }

end Sys2Proof.Machine
end

