-- ==== Sys2Proof/Machine/Ops.lean ====
section
/-! DEFINITION. The named operations over memories and registers (20_memory.md), the free values
(00_scope.md R11), and the start, the end and the error entry of a command (46_commands.md R290,
60_exceptions.md R340): the error entry is the codec's one exception entry, shared by every cause. -/

namespace Sys2Proof.Machine

/-- What an access answers: the next state, a fault or a refusal. -/
abbrev Result := Host.Outcome State Fault Refusal

/-! ### Memories -/

/-- The value at an address; none where nothing has written (10 R38). -/
def Memory.get {α : Type} : Memory α → Nat → Option α
  | [], _ => none
  | (k, v) :: m, a => if a = k then some v else Memory.get m a

/-- Write one cell, keeping the addresses strictly rising. -/
def Memory.set {α : Type} : Memory α → Nat → α → Memory α
  | [], a, x => [(a, x)]
  | (k, v) :: m, a, x =>
    if a < k then (a, x) :: (k, v) :: m
    else if a = k then (a, x) :: m
    else (k, v) :: Memory.set m a x

/-- Write a list of cells, the first one first. -/
def Memory.setMany {α : Type} : Memory α → List (Nat × α) → Memory α
  | m, [] => m
  | m, (a, x) :: ws => Memory.setMany (Memory.set m a x) ws

/-- The values at a list of addresses; none if one of them holds no value. -/
def Memory.readAll {α : Type} (m : Memory α) : List Nat → Option (List α)
  | [] => some []
  | a :: as =>
    match Memory.get m a, Memory.readAll m as with
    | some v, some vs => some (v :: vs)
    | _, _ => none

/-- The canonical form: addresses strictly rising. An unlisted address holds no value, so no entry can
equal what it reads as. -/
abbrev Memory.wf {α : Type} (m : Memory α) : Prop := m.Pairwise (fun p q => p.1 < q.1)

/-- The cell of image pixel (x, y), with x and y below 2^16 (20 R64). MODEL'S CHOICE: the spec fixes no physical
layout, and this key does not depend on WIDTH, so a pixel keeps its (x, y) when WIDTH or HEIGHT changes between
commands (log 24). -/
def imageKey (x y : Nat) : Nat := y * 65536 + x

/-- The cells of `bytes` at offsets a, a+1, ... (20 R63). -/
def cellsAt {α : Type} : Nat → List α → List (Nat × α)
  | _, [] => []
  | a, x :: xs => (a, x) :: cellsAt (a + 1) xs

/-- `MemRead(a, n)` once it is known to fit below SLEN (20 R62): none where a byte is unwritten. -/
def readStream (s : State) (a n : Nat) : Option (List Byte) :=
  Memory.readAll s.stream (List.range' a n)

/-- Whether `n` bytes at `a` fit below SLEN (20 R62, R63). -/
def fitsStream (s : State) (a n : Nat) : Bool := decide (a + n ≤ s.slen.toNat)

/-! ### Free values -/

/-- A free sample: any rational of [0, 1] (00 R8, R11). -/
def freeSample (k : Nat) : Sample :=
  let ab := Config.freePair k
  if ab.1 + ab.2 = 0 then 0 else (ab.1 : Rat) / ((ab.1 + ab.2 : Nat) : Rat)

/-- The `k`-th free pixel: four free samples (46 R295, 60 R341). -/
def freePixel (k : Nat) : Pixel :=
  { r := freeSample (4 * k), g := freeSample (4 * k + 1), b := freeSample (4 * k + 2),
    a := freeSample (4 * k + 3) }

/-- One write of a free pixel for each address, each a draw of its own, numbered from `k`. -/
def freePixelCells : Nat → List Nat → List (Nat × Pixel)
  | _, [] => []
  | k, a :: as => (a, freePixel k) :: freePixelCells (k + 1) as

/-- One write of a free byte for each address, each a draw of its own, numbered from `k`. -/
def freeByteCells : Nat → List Nat → List (Nat × Byte)
  | _, [] => []
  | k, a :: as => (a, Config.freeByte k) :: freeByteCells (k + 1) as

/-! ### Registers -/

/-- The value a read of a register returns, zero-extended to the port's width. A descriptor register answers with
what it holds, written or not (log 2); a read of CMD returns a free value (10 R28). -/
def readReg (s : State) : Reg → Word
  | .fmt => s.fmt.setWidth 32
  | .width => s.width.setWidth 32
  | .height => s.height.setWidth 32
  | .levels => s.levels.setWidth 32
  | .spos => s.spos
  | .slen => s.slen
  | .pallen => s.pallen.setWidth 32
  | .cmd => (Config.freeByte s.draws).setWidth 32
  | .status =>
    match s.status with
    | .idle => 0
    | .busy => 1
    | .done => 2
    | .error => 3
  | .err =>
    match s.err with
    | .none => 0
    | .unsupportedFormat => 1
    | .truncatedStream => 2
    | .paletteIndexOutOfRange => 3
    | .invalidPaletteSize => 4
  | .ucnt => s.ucnt

/-- A host write of a register other than CMD, which stores nothing (10 R20, R28). -/
def writeReg (s : State) : RegWrite → State
  | .fmt v => { s with fmt := v, written := { s.written with fmt := true } }
  | .width v => { s with width := v, written := { s.written with width := true } }
  | .height v => { s with height := v, written := { s.written with height := true } }
  | .levels v => { s with levels := v, written := { s.written with levels := true } }
  | .spos v => { s with spos := v, written := { s.written with spos := true } }
  | .slen v => { s with slen := v, written := { s.written with slen := true } }
  | .pallen v => { s with pallen := v, written := { s.written with pallen := true } }
  | .cmd _ => s

/-! ### Start, end and error entry of a command -/

/-- The start of a command: STATUS <- BUSY, ERR <- 0, UCNT <- 0 (46 R290). -/
def beginCommand (s : State) : State :=
  { s with status := .busy, err := .none, ucnt := 0, running := none }

/-- Normal completion: STATUS <- DONE (46 R290). -/
def finishCommand (s : State) : State := { s with status := .done, running := none }

/-- `raise E`, the error entry (60 R340): ERR <- the code, STATUS <- ERROR, UCNT kept, SPOS <- draw; no
other register changes and the command is over. -/
def raiseError (e : ErrCode) (s : State) : State :=
  { s with err := e, status := .error, running := none,
           spos := Config.freeSpos s.draws, written := { s.written with spos := true },
           draws := s.draws + 1 }

/-- The image cells an error leaves unspecified, each now a draw (60 R341 (a)). -/
def scrambleImage (cells : List Nat) (s : State) : State :=
  { s with image := Memory.setMany s.image (freePixelCells s.draws cells),
           draws := s.draws + cells.length }

/-- The stream bytes an error leaves unspecified, each now a draw (60 R341 (b)). -/
def scrambleStream (cells : List Nat) (s : State) : State :=
  { s with stream := Memory.setMany s.stream (freeByteCells s.draws cells),
           draws := s.draws + cells.length }

end Sys2Proof.Machine
end

