-- ==== Sys2Proof/Machine/Operands.lean ====
section
/-! DEFINITION. The operand forms: the geometry of units, tiles and pixels (46_commands.md R292, R294,
R295), the fields inside a wire unit (30_encoding.md R92 to R99), and the small numeric helpers of
00_scope.md R9. -/

namespace Sys2Proof.Machine

/-! ### Numbers -/

/-- `rnd(x) = floor(x + 1/2)` (00 R9, parameter ROUND; log 4). -/
def rnd (x : Rat) : Nat := (x + 1 / 2).floor.toNat

/-- `clamp(x, lo, hi)` (00 R9). -/
def clamp (x lo hi : Rat) : Rat := if x < lo then lo else if hi < x then hi else x

/-- `lerp(a, b, t) = a + (b - a) * t` (00 R9). -/
def lerp (a b t : Rat) : Rat := a + (b - a) * t

/-- `abs(x)` (00 R9). -/
def absRat (x : Rat) : Rat := if x < 0 then -x else x

/-- The scan of `nearest`: the best index and distance so far, the index of the next distance. -/
def nearestFrom (best : Nat) (bestD : Rat) : Nat → List Rat → Nat
  | _, [] => best
  | i, d :: ds => if d < bestD then nearestFrom i d (i + 1) ds else nearestFrom best bestD (i + 1) ds

/-- The smallest index whose distance is least (41 R155, 43 R213; parameter TIE = lowest index, log 4). -/
def nearest : List Rat → Nat
  | [] => 0
  | d :: ds => nearestFrom 0 d 1 ds

/-- The pixel (0, 0, 0, 0), transparent black (41 R142). -/
def clearPixel : Pixel := ⟨0, 0, 0, 0⟩

/-! ### Units, tiles and pixels -/

/-- `ceil(n / 4) = (n + 3) div 4` (00 R10). -/
def ceil4 (n : Nat) : Nat := (n + 3) / 4

/-- The unit count `n` of a texture of W x H pixels (46 R292). -/
def unitCount (f : Fmt) (W H : Nat) : Nat :=
  match f with
  | .block _ => ceil4 W * ceil4 H
  | .idx4 => W * H / 2
  | .idx8 => W * H

/-- The format of the running command's units. -/
def commandFmt : Command → Fmt
  | .dec f => f
  | .enc b => .block b

/-- Column of tile position `p` of unit `u` in the image (46 R292, R294). -/
def tileX (W u p : Nat) : Nat := 4 * (u % ceil4 W) + p % 4

/-- Row of tile position `p` of unit `u` in the image (46 R292, R294). -/
def tileY (W u p : Nat) : Nat := 4 * (u / ceil4 W) + p / 4

/-- Whether tile position `p` of unit `u` lies inside the image (46 R294, R295). -/
def tileInside (W H u p : Nat) : Bool := decide (tileX W u p < W) && decide (tileY W u p < H)

/-- The image pixels unit `u` writes, in order: the cell, and which of the unit's decoded pixels goes
there (46 R294, R303, R304). -/
def unitSlots (f : Fmt) (W H u : Nat) : List (Nat × Nat) :=
  match f with
  | .block _ =>
    ((List.range 16).filter (fun p => tileInside W H u p)).map
      (fun p => (imageKey (tileX W u p) (tileY W u p), p))
  | .idx4 =>
    [(imageKey (2 * u % W) (2 * u / W), 0), (imageKey ((2 * u + 1) % W) ((2 * u + 1) / W), 1)]
  | .idx8 => [(imageKey (u % W) (u / W), 0)]

/-- The writes of a decoded unit: each slot gets the unit's pixel for it (46 R294). -/
def scatterCells (slots : List (Nat × Nat)) (T : List Pixel) : List (Nat × Pixel) :=
  slots.map (fun q => (q.1, T.getD q.2 clearPixel))

/-- The image cells of the units numbered `f0` to `n - 1` (60 R341 (a)). -/
def unitCells (f : Fmt) (W H f0 n : Nat) : List Nat :=
  (List.range' f0 (n - f0)).flatMap (fun u => (unitSlots f W H u).map Prod.fst)

/-- The sample of tile position `p` of unit `u`: the image's pixel inside the image, a draw of its own
outside it (46 R295, parameter PAD); none where the image's pixel is unwritten. -/
def gatherPixel (s : State) (u p : Nat) : Option Pixel :=
  if tileInside s.width.toNat s.height.toNat u p then
    Memory.get s.image (imageKey (tileX s.width.toNat u p) (tileY s.width.toNat u p))
  else some (freePixel (s.draws + p))

/-- The samples of a list of tile positions; none if one of them is unwritten. -/
def gatherFrom (s : State) (u : Nat) : List Nat → Option (List Pixel)
  | [] => some []
  | p :: ps =>
    match gatherPixel s u p, gatherFrom s u ps with
    | some v, some vs => some (v :: vs)
    | _, _ => none

/-- The tile to encode, positions 0..15 (46 R295). -/
def gatherTile (s : State) (u : Nat) : Option (List Pixel) := gatherFrom s u (List.range 16)

/-! ### Fields of the wire units -/

/-- The 5-bit red field of a packed colour (30 R92). -/
def field5R (v : Half) : Nat := (v.extractLsb' 11 5).toNat

/-- The 6-bit green field of a packed colour (30 R92). -/
def field6G (v : Half) : Nat := (v.extractLsb' 5 6).toNat

/-- The 5-bit blue field of a packed colour (30 R92). -/
def field5B (v : Half) : Nat := (v.extractLsb' 0 5).toNat

/-- The index byte of tile row `r` (30 R91, R93). -/
def indexByte (k : ColorBlock) (r : Nat) : Byte :=
  match r with
  | 0 => k.x0
  | 1 => k.x1
  | 2 => k.x2
  | _ => k.x3

/-- INDICES_DXT1: `idx(r, c) = (B[4 + r] >> (2 * c)) mod 4` at tile position `p = 4r + c` (41 R143, 30 R93). -/
def colorIndex (k : ColorBlock) (p : Nat) : Nat := ((indexByte k (p / 4)).toNat >>> (2 * (p % 4))) % 4

/-- Byte `j` of an alpha plane (30 R96). -/
def planeByte (k : AlphaPlane) (j : Nat) : Byte :=
  match j with
  | 0 => k.b0
  | 1 => k.b1
  | 2 => k.b2
  | 3 => k.b3
  | 4 => k.b4
  | 5 => k.b5
  | 6 => k.b6
  | _ => k.b7

/-- Nibble `n` of an alpha plane: the low nibble of byte `n div 2` when n is even, else its high nibble
(30 R96). -/
def planeNibble (k : AlphaPlane) (n : Nat) : Nat :=
  if n % 2 = 0 then (planeByte k (n / 2)).toNat % 16 else (planeByte k (n / 2)).toNat / 16

/-- AINDICES_DXT5: the 3-bit index of tile position `p`, row r and column c: `k = 4r + 3 - c`,
`(Q >> (45 - 3k)) mod 8` (43 R204, 30 R99). -/
def alphaIndex (q : BitVec 48) (p : Nat) : Nat :=
  (q.toNat >>> (45 - 3 * (4 * (p / 4) + 3 - p % 4))) % 8

end Sys2Proof.Machine
end

