-- ==== Sys2Proof/Machine/Flags.lean ====
section
/-! DEFINITION. What a step does to STATUS, ERR, UCNT and SPOS. The codec has no condition codes, carry,
overflow or predicate flags (10_state.md R32); these registers are its only flags. The error entry itself
is `raiseError` (Ops.lean); here are the data an error leaves (60_exceptions.md R341) and the advance of
the unit loop (46_commands.md R293). -/

namespace Sys2Proof.Machine

/-- The unit count of the running command, from the descriptor (46 R292). -/
def unitTotal (s : State) (c : Command) : Nat :=
  unitCount (commandFmt c) s.width.toNat s.height.toNat

/-- Whether command `c` is running with a unit left: the loop condition `D[UCNT] < n` (46 R293). -/
def unitReady (s : State) (c : Command) : Bool :=
  decide (s.status = .busy) && decide (s.running = some c) && decide (s.ucnt.toNat < unitTotal s c)

/-- `D[SPOS] <- a + us; pc <- pc + 1`, and STATUS <- DONE when no unit is left (46 R293, R290). -/
def advanceUnit (c : Command) (s : State) : State :=
  let s1 := { s with spos := s.spos + BitVec.ofNat 32 (unitSize (commandFmt c)), ucnt := s.ucnt + 1 }
  if s1.ucnt.toNat < unitTotal s1 c then s1 else finishCommand s1

/-- The first offset of the running command's texture: the units before UCNT lie between it and SPOS
(46 R293, R296; log 16). -/
def streamStart (c : Command) (s : State) : Nat :=
  s.spos.toNat - s.ucnt.toNat * unitSize (commandFmt c)

/-- The stream offsets an error of an ENC command leaves unspecified, from offset `a` up to
`min(SLEN, SPOS_start + total) - 1` (60 R341 (b)). -/
def unspecifiedBytes (c : Command) (a : Nat) (s : State) : List Nat :=
  let stop := min s.slen.toNat (streamStart c s + unitTotal s c * unitSize (commandFmt c))
  List.range' a (stop - a)

/-- What an error in unit `f` leaves behind (60 R341 (a), (b)): for DEC every pixel of the units f..n-1,
for ENC every byte from the offset `a` on, becomes a draw. -/
def scrambleFrom (c : Command) (f a : Nat) (s : State) : State :=
  match c with
  | .dec fm => scrambleImage (unitCells fm s.width.toNat s.height.toNat f (unitTotal s c)) s
  | .enc _ => scrambleStream (unspecifiedBytes c a s) s

/-- `raise E` inside unit UCNT of command `c` (60 R340, R341). -/
def raiseInUnit (c : Command) (e : ErrCode) (s : State) : State :=
  raiseError e (scrambleFrom c s.ucnt.toNat s.spos.toNat s)

/-- The state after a reset (70 R370, R371): the reset state, with the host's remaining script. If a
command was running, every pixel (DEC) or byte (ENC) it could write is unspecified (R371, f = 0; log 16). -/
def resetTo (s : State) : State :=
  let base := { State.reset with script := s.script, draws := s.draws }
  match s.status, s.running with
  | .busy, some (.dec fm) =>
    scrambleImage (unitCells fm s.width.toNat s.height.toNat 0 (unitTotal s (.dec fm))) base
  | .busy, some (.enc b) =>
    scrambleStream (unspecifiedBytes (.enc b) (streamStart (.enc b) s) s) base
  | _, _ => base

end Sys2Proof.Machine
end

