-- ==== Sys2Proof/Machine/Indexed.lean ====
section
/-! DEFINITION. The indexed-palette decoder and the palette defilter (45_indexed_palette.md). -/

namespace Sys2Proof.Machine

/-- Whether an index is legal: `i < PALLEN` (45 R263). -/
def indexLegal (s : State) (i : Nat) : Bool := decide (i < s.pallen.toNat)

/-- What a lookup of palette indices gives: the pixels, the error of an illegal index, or the refusal of
an unwritten entry. -/
inductive Lookup where
  | pixels (T : List Pixel)
  | outOfRange
  | unwritten
  deriving DecidableEq, Repr

/-- The indices of one unit, checked and looked up first one first (45 R264, R265): the pixel is copied
whole. -/
def lookupIndices (s : State) : List Nat → Lookup
  | [] => .pixels []
  | i :: is =>
    if indexLegal s i then
      match Memory.get s.pal i with
      | none => .unwritten
      | some p =>
        match lookupIndices s is with
        | .pixels T => .pixels (p :: T)
        | .outOfRange => .outOfRange
        | .unwritten => .unwritten
    else .outOfRange

/-- `src(i)`: i with bits 3 and 4 exchanged (30 R103, 45 R270): with part = i div 32, block = bit 4,
stripe = bit 3 and color = i mod 8, `part*32 + block*8 + stripe*16 + color`. -/
def defiltSource (i : Nat) : Nat := i / 32 * 32 + i / 16 % 2 * 8 + i / 8 % 2 * 16 + i % 8

/-- The permuted palette: entry i from the old entry `src(i)`, all reads before all writes (45 R270). -/
def defiltCells (pal : Memory Pixel) : Option (List (Nat × Pixel)) :=
  (Memory.readAll pal ((List.range 256).map defiltSource)).map (cellsAt 0)

end Sys2Proof.Machine
end

