-- ==== Sys2Proof/Machine/Commands.lean ====
section
/-! DEFINITION. The meanings of the command rows (46_commands.md R290, R291, R300 to R308; 30_encoding.md
R112): what one host write to CMD does. A command that has units to run leaves STATUS = BUSY and the
command in progress; each later step runs one unit (R293, decision D42; log 6). A command reads its registers
whether or not anything has written them (log 2). -/

namespace Sys2Proof.Machine

/-- A write to CMD has a meaning only while STATUS is not BUSY (10 R28, R41; log 9). -/
def unlessBusy (s : State) (k : Result) : Result :=
  if s.status = .busy then .refused .hostAccessWhileBusy else k

/-- The start of the unit loop, after the start checks (46 R290, R293): WIDTH and HEIGHT give the unit
count; with no unit the command ends DONE at once (R297). -/
def startLoop (c : Command) (s : State) : Result :=
  if unitTotal s c = 0 then .next (finishCommand (beginCommand s))
  else .next { beginCommand s with running := some c }

/-- Start check 3 of 46 R291: PALLEN must be 16 or 256 (45 R261). -/
def paletteCheck (s : State) (k : Result) : Result :=
  if s.pallen.toNat = 16 ∨ s.pallen.toNat = 256 then k
  else .next (raiseError .invalidPaletteSize (beginCommand s))

/-- Start check 4 of 46 R291: an odd IDX4 width has no meaning (45 R262, 93 U5). -/
def evenWidthCheck (s : State) (k : Result) : Result :=
  if s.width.toNat % 2 = 0 then k else .refused .oddIdx4Width

/-- DEC.DXT1 (46 R300). -/
def execDecDxt1 (s : State) : Result := unlessBusy s (startLoop (.dec (.block .dxt1)) s)

/-- DEC.DXT3 (46 R301). -/
def execDecDxt3 (s : State) : Result := unlessBusy s (startLoop (.dec (.block .dxt3)) s)

/-- DEC.DXT5 (46 R302). -/
def execDecDxt5 (s : State) : Result := unlessBusy s (startLoop (.dec (.block .dxt5)) s)

/-- DEC.IDX4 (46 R303). -/
def execDecIdx4 (s : State) : Result :=
  unlessBusy s (paletteCheck s (evenWidthCheck s (startLoop (.dec .idx4) s)))

/-- DEC.IDX8 (46 R304). -/
def execDecIdx8 (s : State) : Result := unlessBusy s (paletteCheck s (startLoop (.dec .idx8) s))

/-- ENC.DXT1 (46 R305). -/
def execEncDxt1 (s : State) : Result := unlessBusy s (startLoop (.enc .dxt1) s)

/-- ENC.DXT3 (46 R306). -/
def execEncDxt3 (s : State) : Result := unlessBusy s (startLoop (.enc .dxt3) s)

/-- ENC.DXT5 (46 R307). -/
def execEncDxt5 (s : State) : Result := unlessBusy s (startLoop (.enc .dxt5) s)

/-- PAL.DEFILT (46 R308, 45 R270): a single unit; the FMT byte of CMD16 is not read. -/
def execPalDefilt (_fmt : Byte) (s : State) : Result :=
  unlessBusy s <|
    if s.pallen.toNat = 256 then
      match defiltCells s.pal with
      | some cells =>
        .next (finishCommand { beginCommand s with pal := Memory.setMany s.pal cells, ucnt := 1 })
      | none => .refused .unwrittenPalette
    else .next (raiseError .invalidPaletteSize (beginCommand s))

/-- ILLEGAL.DEC (30 R112 (a)): ends at once with UnsupportedFormat (60 R331). -/
def execIllegalDec (_fmt : Byte) (s : State) : Result :=
  unlessBusy s (.next (raiseError .unsupportedFormat (beginCommand s)))

/-- ILLEGAL.ENC (30 R112 (a), (b)): ends at once with UnsupportedFormat (60 R331). -/
def execIllegalEnc (_fmt : Byte) (s : State) : Result :=
  unlessBusy s (.next (raiseError .unsupportedFormat (beginCommand s)))

/-- RESERVED (30 R112 (c), 93 U9): "the spec gives them no meaning and a model refuses them". -/
def execReserved (_cmd16 : Half) (_s : State) : Result := .refused .reservedCommand

end Sys2Proof.Machine
end

