-- ==== Sys2Proof/Machine/Rgb565.lean ====
section
/-! DEFINITION. The RGB565 colour unit (40_rgb565.md). -/

namespace Sys2Proof.Machine

/-- The 5-bit to 8-bit expansion of UNPACK565: `(f * 527 + 23) >> 6` (40 R121). -/
def expand5 (f : Nat) : Nat := (f * 527 + 23) >>> 6

/-- The 6-bit to 8-bit expansion of UNPACK565: `(f * 259 + 33) >> 6` (40 R121). -/
def expand6 (f : Nat) : Nat := (f * 259 + 33) >>> 6

/-- UNPACK565 (40 R121): the expanded fields over 255. -/
def unpack565 (v : Half) : Color :=
  { r := (expand5 (field5R v) : Rat) / 255,
    g := (expand6 (field6G v) : Rat) / 255,
    b := (expand5 (field5B v) : Rat) / 255 }

/-- QUANT5 (40 R122). -/
def quant5 (x : Sample) : Nat := rnd (x * 31)

/-- QUANT6 (40 R122). -/
def quant6 (x : Sample) : Nat := rnd (x * 63)

/-- The packed value of three fields: `(r5 << 11) + (g6 << 5) + b5` (40 R122, 41 R152). -/
def packFields (r5 g6 b5 : Nat) : Half := BitVec.ofNat 16 (r5 * 2048 + g6 * 32 + b5)

/-- PACK565 (40 R122). -/
def pack565 (c : Color) : Half := packFields (quant5 c.r) (quant6 c.g) (quant5 c.b)

/-- LERP3: `lerp` on each channel (40 R126). -/
def lerp3 (x y : Color) (t : Rat) : Color :=
  { r := lerp x.r y.r t, g := lerp x.g y.g t, b := lerp x.b y.b t }

/-- A colour with an alpha. -/
def withAlpha (c : Color) (a : Sample) : Pixel := ⟨c.r, c.g, c.b, a⟩

/-- The colour of a pixel. -/
def colorOf (p : Pixel) : Color := ⟨p.r, p.g, p.b⟩

end Sys2Proof.Machine
end

