-- ==== Sys2Proof/Machine/Selector.lean ====
section
/-! DEFINITION. The endpoint selector (44_endpoint_selector.md). -/

namespace Sys2Proof.Machine

/-- Insert a value into an ascending list unless it is there already. -/
def insertDistinct (x : Nat) : List Nat → List Nat
  | [] => [x]
  | y :: ys => if x < y then x :: y :: ys else if x = y then y :: ys else y :: insertDistinct x ys

/-- The distinct members of a list in ascending order (44 R241, R243). -/
def ascending : List Nat → List Nat
  | [] => []
  | x :: xs => insertDistinct x (ascending xs)

/-- `Sy = y[0] + ... + y[N-1]` (44 R241). -/
def sumOf : List Nat → Nat
  | [] => 0
  | y :: ys => y + sumOf ys

/-- `Sxy = i*y[0] + (i+1)*y[1] + ...` (44 R241, with i = 0). -/
def weightedSum : Nat → List Nat → Nat
  | _, [] => 0
  | i, y :: ys => i * y + weightedSum (i + 1) ys

/-- The slope `m` of the least-squares line over the points (i, y[i]) (44 R241). -/
def fitSlope (ys : List Nat) : Rat :=
  let N : Rat := ys.length
  let Sx := N * (N - 1) / 2
  let Sxx := (N - 1) * N * (2 * N - 1) / 6
  (N * weightedSum 0 ys - Sx * sumOf ys) / (N * Sxx - Sx * Sx)

/-- The intercept `b` of the least-squares line (44 R241). -/
def fitIntercept (ys : List Nat) : Rat :=
  let N : Rat := ys.length
  let Sx := N * (N - 1) / 2
  (sumOf ys - fitSlope ys * Sx) / N

/-- The two clamped and rounded ends of the fitted line (44 R241, N >= 3). -/
def fitEnds (ys : List Nat) (max : Nat) : Nat × Nat :=
  let N : Rat := ys.length
  (rnd (clamp (fitIntercept ys) 0 max), rnd (clamp (fitSlope ys * (N - 1) + fitIntercept ys) 0 max))

/-- SELECT (44 R241) over the set of the listed values. -/
def select (V : List Nat) (max : Nat) (default : Nat × Nat) : Nat × Nat :=
  match ascending V with
  | [] => default
  | [y0] => (y0, y0)
  | [y0, y1] => (y0, y1)
  | ys => fitEnds ys max

end Sys2Proof.Machine
end

