-- ==== Sys2Proof/Machine/Dxt1.lean ====
section
/-! DEFINITION. The DXT1 block colour codec (41_dxt1.md). -/

namespace Sys2Proof.Machine

/-! ### Decode -/

/-- PALETTE_DXT1: 4-colour mode when `c0 > c1` as packed values (41 R141, 40 R124), else 3-colour mode
with transparent black (41 R142). -/
def paletteDxt1 (c0 c1 : Half) : List Pixel :=
  let k0 := unpack565 c0
  let k1 := unpack565 c1
  if c1.toNat < c0.toNat then
    [withAlpha k0 1, withAlpha k1 1, withAlpha (lerp3 k0 k1 (1 / 3)) 1, withAlpha (lerp3 k0 k1 (2 / 3)) 1]
  else
    [withAlpha k0 1, withAlpha k1 1, withAlpha (lerp3 k0 k1 (1 / 2)) 1, clearPixel]

/-- The pixel of tile position `p` of a colour block (41 R144). -/
def colorPixel (k : ColorBlock) (p : Nat) : Pixel :=
  (paletteDxt1 k.c0 k.c1).getD (colorIndex k p) clearPixel

/-- DECODE_TILE_DXT1 (41 R144). -/
def decodeTileDxt1 (k : ColorBlock) : List Pixel := (List.range 16).map (colorPixel k)

/-! ### Encode -/

/-- Whether a sample pixel is opaque: its A is strictly above 1/2 (41 R150). -/
def isSolid (p : Pixel) : Bool := decide (1 / 2 < p.a)

/-- The opaque samples of a tile (41 R150). -/
def solidPixels (T : List Pixel) : List Pixel := T.filter isSolid

/-- The (lo, hi) pair of the red channel (41 R151, R152). -/
def selectR (T : List Pixel) : Nat × Nat :=
  select ((solidPixels T).map (fun p => quant5 p.r)) 31 Config.colorDefault

/-- The (lo, hi) pair of the green channel (41 R151, R152). -/
def selectG (T : List Pixel) : Nat × Nat :=
  select ((solidPixels T).map (fun p => quant6 p.g)) 63 Config.colorDefault

/-- The (lo, hi) pair of the blue channel (41 R151, R152). -/
def selectB (T : List Pixel) : Nat × Nat :=
  select ((solidPixels T).map (fun p => quant5 p.b)) 31 Config.colorDefault

/-- `pl`, the packed loColor (41 R152). -/
def packedLo (T : List Pixel) : Half := packFields (selectR T).1 (selectG T).1 (selectB T).1

/-- `ph`, the packed hiColor (41 R152). -/
def packedHi (T : List Pixel) : Half := packFields (selectR T).2 (selectG T).2 (selectB T).2

/-- The order of the written endpoints (41 R153). -/
def orderEndpoints (mode : EncMode) (pl ph : Half) : Half × Half :=
  match mode with
  | .four => if pl.toNat < ph.toNat then (ph, pl) else (pl, ph)
  | .three => if ph.toNat < pl.toNat then (ph, pl) else (pl, ph)

/-- The three built colours (41 R154). -/
def builtColors (c0 c1 : Half) : List Color :=
  let k0 := unpack565 c0
  let k1 := unpack565 c1
  [k0, k1, lerp3 k0 k1 (1 / 2)]

/-- The sum of absolute channel differences (41 R155). -/
def colorDistance (p : Pixel) (k : Color) : Rat :=
  absRat (p.r - k.r) + absRat (p.g - k.g) + absRat (p.b - k.b)

/-- The palette index of a sample: 3 when transparent, else the nearest built colour (41 R155). -/
def colorChoice (c0 c1 : Half) (p : Pixel) : Nat :=
  if isSolid p then nearest ((builtColors c0 c1).map (colorDistance p)) else 3

/-- The index byte of tile row `r` (41 R156): column c in bits [2c+1 : 2c]. -/
def packIndexRow (idx : List Nat) (r : Nat) : Byte :=
  BitVec.ofNat 8 (idx.getD (4 * r) 0 + 4 * idx.getD (4 * r + 1) 0 + 16 * idx.getD (4 * r + 2) 0 +
    64 * idx.getD (4 * r + 3) 0)

/-- A colour block from its endpoints and its sixteen indices by tile position (41 R156). -/
def packColorBlock (c0 c1 : Half) (idx : List Nat) : ColorBlock :=
  { c0 := c0, c1 := c1, x0 := packIndexRow idx 0, x1 := packIndexRow idx 1, x2 := packIndexRow idx 2,
    x3 := packIndexRow idx 3 }

/-- ENCODE_TILE_DXT1 under an endpoint order (41 R153, R156). -/
def encodeTileWith (mode : EncMode) (T : List Pixel) : ColorBlock :=
  let c := orderEndpoints mode (packedLo T) (packedHi T)
  packColorBlock c.1 c.2 (T.map (colorChoice c.1 c.2))

/-- ENCODE_TILE_DXT1 (41 R156). -/
def encodeTileDxt1 (T : List Pixel) : ColorBlock := encodeTileWith Config.encMode T

end Sys2Proof.Machine
end

