-- ==== Sys2Proof/Machine/Dxt3.lean ====
section
/-! DEFINITION. The DXT3 alpha codec (42_dxt3.md). -/

namespace Sys2Proof.Machine

/-- The alpha of tile position `n` (42 R181). -/
def alpha4At (k : AlphaPlane) (n : Nat) : Sample := (planeNibble k n : Rat) / 15

/-- ALPHA4_DECODE (42 R181). -/
def alpha4Decode (k : AlphaPlane) : List Sample := (List.range 16).map (alpha4At k)

/-- The nibble of an alpha sample: `rnd(A * 15)` (42 R182). -/
def quant4 (x : Sample) : Nat := rnd (x * 15)

/-- Byte `j` of an encoded alpha plane: `nib[2j] + 16 * nib[2j + 1]` (42 R182). -/
def packNibbles (nib : List Nat) (j : Nat) : Byte :=
  BitVec.ofNat 8 (nib.getD (2 * j) 0 + 16 * nib.getD (2 * j + 1) 0)

/-- ALPHA4_ENCODE (42 R182). -/
def alpha4Encode (AL : List Sample) : AlphaPlane :=
  let nib := AL.map quant4
  ⟨packNibbles nib 0, packNibbles nib 1, packNibbles nib 2, packNibbles nib 3,
   packNibbles nib 4, packNibbles nib 5, packNibbles nib 6, packNibbles nib 7⟩

/-- The pixel of tile position `p`: the colour block's RGB and the alpha plane's alpha (42 R183). -/
def dxt3Pixel (k : Dxt3Block) (p : Nat) : Pixel :=
  withAlpha (colorOf (colorPixel k.color p)) (alpha4At k.alpha p)

/-- DECODE_TILE_DXT3 (42 R183). -/
def decodeTileDxt3 (k : Dxt3Block) : List Pixel := (List.range 16).map (dxt3Pixel k)

/-- ENCODE_TILE_DXT3 (42 R184). -/
def encodeTileDxt3 (T : List Pixel) : Dxt3Block :=
  { alpha := alpha4Encode (T.map Pixel.a), color := encodeTileDxt1 T }

end Sys2Proof.Machine
end

