-- ==== Sys2Proof/Machine/Dxt5.lean ====
section
/-! DEFINITION. The DXT5 alpha codec (43_dxt5.md). -/

namespace Sys2Proof.Machine

/-! ### Decode -/

/-- RAMP_DXT5: the 8-value ramp when `a0 > a1` (43 R201), else the 6-value ramp with 0 and 1 (43 R202). -/
def rampDxt5 (a0 a1 : Byte) : List Sample :=
  let A0 : Rat := (a0.toNat : Rat) / 255
  let A1 : Rat := (a1.toNat : Rat) / 255
  if a1.toNat < a0.toNat then
    [A0, A1, lerp A0 A1 (1 / 7), lerp A0 A1 (2 / 7), lerp A0 A1 (3 / 7), lerp A0 A1 (4 / 7),
      lerp A0 A1 (5 / 7), lerp A0 A1 (6 / 7)]
  else
    [A0, A1, lerp A0 A1 (1 / 5), lerp A0 A1 (2 / 5), lerp A0 A1 (3 / 5), lerp A0 A1 (4 / 5), 0, 1]

/-- The alpha of tile position `p` (43 R205). -/
def alpha8At (k : AlphaBlock) (p : Nat) : Sample := (rampDxt5 k.a0 k.a1).getD (alphaIndex k.q p) 0

/-- ALPHA8_DECODE (43 R205). -/
def alpha8Decode (k : AlphaBlock) : List Sample := (List.range 16).map (alpha8At k)

/-- The pixel of tile position `p`: the colour block's RGB and the alpha block's alpha (43 R206). -/
def dxt5Pixel (k : Dxt5Block) (p : Nat) : Pixel :=
  withAlpha (colorOf (colorPixel k.color p)) (alpha8At k.alpha p)

/-- DECODE_TILE_DXT5 (43 R206). -/
def decodeTileDxt5 (k : Dxt5Block) : List Pixel := (List.range 16).map (dxt5Pixel k)

/-! ### Encode -/

/-- Whether an alpha sample is extreme: exactly 0 or exactly 1, before any quantisation (43 R210). -/
def isExtreme (x : Sample) : Bool := decide (x = 0) || decide (x = 1)

/-- `has_extreme` (43 R210). -/
def hasExtreme (AL : List Sample) : Bool := AL.any isExtreme

/-- The 8-bit quantisation of an alpha sample: `rnd(A * 255)` (43 R210). -/
def quant8 (x : Sample) : Nat := rnd (x * 255)

/-- The quantised interior samples VA (43 R210). -/
def interiorValues (AL : List Sample) : List Nat := (AL.filter (fun x => !isExtreme x)).map quant8

/-- The fitted pair (lo, hi) (43 R211). -/
def alphaFit (AL : List Sample) : Nat × Nat := select (interiorValues AL) 255 Config.alphaDefault

/-- The mode and order of the written endpoints (43 R212). -/
def orderAlpha (extreme : Bool) (lo hi : Nat) : Nat × Nat :=
  if extreme then
    if hi < lo then (hi, lo) else (lo, hi)
  else if lo = hi then
    if 1 ≤ lo then (lo, lo - 1) else (1, 0)
  else if lo < hi then (hi, lo)
  else (lo, hi)

/-- The written endpoint bytes of a tile's alphas (43 R210 to R212). -/
def alphaEndpoints (AL : List Sample) : Byte × Byte :=
  let e := orderAlpha (hasExtreme AL) (alphaFit AL).1 (alphaFit AL).2
  (BitVec.ofNat 8 e.1, BitVec.ofNat 8 e.2)

/-- The ramp index of an alpha sample (43 R213). -/
def alphaChoice (a0 a1 : Byte) (x : Sample) : Nat :=
  nearest ((rampDxt5 a0 a1).map (fun y => absRat (x - y)))

/-- The sum of AINDICES_PACK from term `k` on: `aidx[4*(k div 4) + 3 - (k mod 4)] * 2^(45 - 3k)` for
`fuel` values of k (43 R214). -/
def packAlphaFrom (aidx : List Nat) : Nat → Nat → Nat
  | 0, _ => 0
  | fuel + 1, k =>
    aidx.getD (4 * (k / 4) + 3 - k % 4) 0 * 2 ^ (45 - 3 * k) + packAlphaFrom aidx fuel (k + 1)

/-- AINDICES_PACK: the 48-bit index word (43 R214). -/
def packAlpha (aidx : List Nat) : BitVec 48 := BitVec.ofNat 48 (packAlphaFrom aidx 16 0)

/-- ALPHA8_ENCODE (43 R215). -/
def alpha8Encode (AL : List Sample) : AlphaBlock :=
  let e := alphaEndpoints AL
  { a0 := e.1, a1 := e.2, q := packAlpha (AL.map (alphaChoice e.1 e.2)) }

/-- ENCODE_TILE_DXT5 (43 R216). -/
def encodeTileDxt5 (T : List Pixel) : Dxt5Block :=
  { alpha := alpha8Encode (T.map Pixel.a), color := encodeTileDxt1 T }

end Sys2Proof.Machine
end

