-- ==== Sys2Proof/Machine/Units.lean ====
section
/-! DEFINITION. The meanings of the wire-format rows: one unit of the running command (46_commands.md
R293 to R295, R300 to R307). A DEC command's unit is decoded into the image, an ENC command's unit is
made from the image and written to the stream; SPOS, UCNT and STATUS advance with it. -/

namespace Sys2Proof.Machine

/-- The effect of a decoded unit (46 R293, R294): its pixels into the image, then the advance. -/
def putPixels (f : Fmt) (T : List Pixel) (s : State) : State :=
  let cells := scatterCells (unitSlots f s.width.toNat s.height.toNat s.ucnt.toNat) T
  advanceUnit (.dec f) { s with image := Memory.setMany s.image cells }

/-- The effect of an encoded unit (46 R293, 20 R63): its bytes into the stream in one write, then the
advance. -/
def putBytes (b : BlockFmt) (bytes : List Byte) (s : State) : State :=
  advanceUnit (.enc b) { s with stream := Memory.setMany s.stream (cellsAt s.spos.toNat bytes) }

/-- One unit of DEC: TruncatedStream when it does not fit (46 R293), else its decoded pixels. -/
def decUnit (f : Fmt) (T : List Pixel) (s : State) : Result :=
  if unitReady s (.dec f) then
    if fitsStream s s.spos.toNat (unitSize f) then .next (putPixels f T s)
    else .next (raiseInUnit (.dec f) .truncatedStream s)
  else .refused .noUnitRunning

/-- One unit of an indexed DEC: TruncatedStream before PaletteIndexOutOfRange (60 R336). -/
def decIndices (f : Fmt) (is : List Nat) (s : State) : Result :=
  if unitReady s (.dec f) then
    if fitsStream s s.spos.toNat (unitSize f) then
      match lookupIndices s is with
      | .pixels T => .next (putPixels f T s)
      | .outOfRange => .next (raiseInUnit (.dec f) .paletteIndexOutOfRange s)
      | .unwritten => .refused .unwrittenPalette
    else .next (raiseInUnit (.dec f) .truncatedStream s)
  else .refused .noUnitRunning

/-- The state after the padding draws of a gathered tile (46 R295): each position has a draw of its own. -/
def afterGather (s : State) : State := { s with draws := s.draws + 16 }

/-- One unit of ENC (46 R293, R295): gather the tile, encode it, MemWrite. -/
def encUnit (b : BlockFmt) (bytesOfTile : List Pixel → List Byte) (s : State) : Result :=
  if unitReady s (.enc b) then
    match gatherTile s s.ucnt.toNat with
    | none => .refused .unwrittenImage
    | some T =>
      if fitsStream s s.spos.toNat (unitSize (.block b)) then
        .next (putBytes b (bytesOfTile T) (afterGather s))
      else .next (raiseInUnit (.enc b) .truncatedStream (afterGather s))
  else .refused .noUnitRunning

/-- WIRE.DXT1: a unit of DEC.DXT1 (46 R300) or of ENC.DXT1 (46 R305). -/
def execWireDxt1 (u : Wire ColorBlock) (s : State) : Result :=
  match u with
  | .read k => decUnit (.block .dxt1) (decodeTileDxt1 k) s
  | .write => encUnit .dxt1 (fun T => encodeColor (encodeTileDxt1 T)) s

/-- WIRE.DXT3: a unit of DEC.DXT3 (46 R301) or of ENC.DXT3 (46 R306). -/
def execWireDxt3 (u : Wire Dxt3Block) (s : State) : Result :=
  match u with
  | .read k => decUnit (.block .dxt3) (decodeTileDxt3 k) s
  | .write => encUnit .dxt3 (fun T => encodeDxt3 (encodeTileDxt3 T)) s

/-- WIRE.DXT5: a unit of DEC.DXT5 (46 R302) or of ENC.DXT5 (46 R307). -/
def execWireDxt5 (u : Wire Dxt5Block) (s : State) : Result :=
  match u with
  | .read k => decUnit (.block .dxt5) (decodeTileDxt5 k) s
  | .write => encUnit .dxt5 (fun T => encodeDxt5 (encodeTileDxt5 T)) s

/-- WIRE.IDX4: a unit of DEC.IDX4 (46 R303); the low nibble is checked and looked up first (45 R264). -/
def execWireIdx4 (r l : BitVec 4) (s : State) : Result := decIndices .idx4 [l.toNat, r.toNat] s

/-- WIRE.IDX8: a unit of DEC.IDX8 (46 R304, 45 R265). -/
def execWireIdx8 (i : Byte) (s : State) : Result := decIndices .idx8 [i.toNat] s

end Sys2Proof.Machine
end

