-- ==== Sys2Proof/Machine/Dispatch.lean ====
section
/-! DEFINITION. One arm per row of spec/opcode_table.json. -/

namespace Sys2Proof.Machine

def exec (i : Instr) (s : State) : Host.Outcome State Fault Refusal :=
  match i with
  | .decDxt1 => Sys2Proof.Machine.execDecDxt1 s
  | .decDxt3 => Sys2Proof.Machine.execDecDxt3 s
  | .decDxt5 => Sys2Proof.Machine.execDecDxt5 s
  | .decIdx4 => Sys2Proof.Machine.execDecIdx4 s
  | .decIdx8 => Sys2Proof.Machine.execDecIdx8 s
  | .encDxt1 => Sys2Proof.Machine.execEncDxt1 s
  | .encDxt3 => Sys2Proof.Machine.execEncDxt3 s
  | .encDxt5 => Sys2Proof.Machine.execEncDxt5 s
  | .palDefilt fmt => Sys2Proof.Machine.execPalDefilt fmt s
  | .illegalDec fmt => Sys2Proof.Machine.execIllegalDec fmt s
  | .illegalEnc fmt => Sys2Proof.Machine.execIllegalEnc fmt s
  | .reserved cmd16 => Sys2Proof.Machine.execReserved cmd16 s
  | .wireDxt1 u => Sys2Proof.Machine.execWireDxt1 u s
  | .wireDxt3 u => Sys2Proof.Machine.execWireDxt3 u s
  | .wireDxt5 u => Sys2Proof.Machine.execWireDxt5 u s
  | .wireIdx4 r l => Sys2Proof.Machine.execWireIdx4 r l s
  | .wireIdx8 index => Sys2Proof.Machine.execWireIdx8 index s

end Sys2Proof.Machine
end

