-- ==== Sys2Proof/Machine/HostPort.lean ====
section
/-! DEFINITION. The host's statements (30_encoding.md R115, 10_state.md R41) and the fetch: what the next
step runs. While STATUS is BUSY that is the next unit of the running command (46_commands.md R293); at
any other time it is the host's next action, and a write to CMD starts the command its byte and FMT name
(10_state.md R28, 46_commands.md R290). Also here: how a word is placed where the next step fetches it. -/

namespace Sys2Proof.Machine

/-- What the next step does: run an instruction in a state, move to a state, or stop. -/
inductive Fetched where
  | run (i : Instr) (s : State)
  | moved (s : State)
  | fault (r : Fault)
  | refused (r : Refusal)
  deriving Repr

/-- The state after a host read of register `r` that returned `v`, STATUS not being BUSY. A read of CMD takes
a free value (10 R28); a read of STATUS ends the window of 70 R380. -/
def afterRead (r : Reg) (v : Word) (s : State) : State :=
  match r with
  | .cmd => { s with port := .reg v, draws := s.draws + 1 }
  | .status => { s with port := .reg v, unread := false }
  | .fmt | .width | .height | .levels | .spos | .slen | .pallen | .err | .ucnt => { s with port := .reg v }

/-- A host read of register `r` while STATUS is not BUSY (10 R41). -/
def hostRead (r : Reg) (s : State) : Fetched := .moved (afterRead r (readReg s r) s)

/-- The command a write of `v` to CMD starts: CMD16 = FMT || v (30 R110; log 23). From here on the host must read
STATUS before anything else (70 R380). -/
def fetchCommand (v : Byte) (s : State) : Fetched :=
  match decode .command [v, s.fmt] with
  | .ok i => .run i { s with unread := true }
  | .error _ => .refused .undecodable

/-- A host action while STATUS is not BUSY; `s` is the state after the action left the script (10 R41).
MODEL'S CHOICE: the spec says nothing of a host read of a stream byte at or above SLEN, or with SLEN
unwritten, nor of a host read of a pixel outside WIDTH and HEIGHT; such a read answers from the memory like
any other, and a write there takes effect (logs 17, 22). -/
def hostAct (a : HostAction) (s : State) : Fetched :=
  match a with
  | .wr (.cmd v) => fetchCommand v s
  | .wr w => .moved (writeReg s w)
  | .rd r => hostRead r s
  | .wrs a bytes =>
    if a.toNat + bytes.length ≤ 2 ^ 32 then
      .moved { s with stream := Memory.setMany s.stream (cellsAt a.toNat bytes) }
    else .fault .streamOffsetOutsideSpace
  | .wrImg x y p =>
    if p.inRange then .moved { s with image := Memory.set s.image (imageKey x.toNat y.toNat) p }
    else .refused .sampleOutOfRange
  | .wrPal i p =>
    if p.inRange then .moved { s with pal := Memory.set s.pal i.toNat p }
    else .refused .sampleOutOfRange
  | .rdStream a =>
    match Memory.get s.stream a.toNat with
    | some v => .moved { s with port := .byte v }
    | none => .refused .unwrittenStream
  | .rdImg x y =>
    match Memory.get s.image (imageKey x.toNat y.toNat) with
    | some p => .moved { s with port := .pixel p }
    | none => .refused .unwrittenImage
  | .rdPal i =>
    match Memory.get s.pal i.toNat with
    | some p => .moved { s with port := .pixel p }
    | none => .refused .unwrittenPalette
  | .wait => hostRead .status s
  | .reset => .moved (resetTo s)

/-- The next unit of the running command (46 R293). DEC reads the unit's bytes, raising TruncatedStream
when they do not fit below SLEN (20 R62); ENC reads nothing. With no unit left the command is DONE. -/
def fetchUnit (s : State) : Fetched :=
  match s.running with
  | none => .refused .noUnitRunning
  | some c =>
    if s.ucnt.toNat < unitTotal s c then
      match c with
      | .enc b =>
        match decode (.unit (.enc b)) [] with
        | .ok i => .run i s
        | .error _ => .refused .undecodable
      | .dec f =>
        if fitsStream s s.spos.toNat (unitSize f) then
          match readStream s s.spos.toNat (unitSize f) with
          | none => .refused .unwrittenStream
          | some bytes =>
            match decode (.unit (.dec f)) bytes with
            | .ok i => .run i s
            | .error _ => .refused .undecodable
        else .moved (raiseInUnit (.dec f) .truncatedStream s)
    else .moved (finishCommand s)

/-- A step while STATUS is BUSY. The host may poll STATUS (10 R41), and a reset abandons the command (70 R371);
MODEL'S CHOICE: whether the poll or the reset lands before the next unit, which the spec does not say, is
free (logs 8, 16). A `WAIT` stands until the command ends; any other host action is outside the model
(70 R380; log 9). -/
def fetchBusy (s : State) : Fetched :=
  match s.script with
  | [] => fetchUnit s
  | .wait :: _ => fetchUnit s
  | .rd .status :: rest =>
    if Config.freePoll s.draws then
      .moved { s with script := rest, port := .reg 1, draws := s.draws + 1 }
    else fetchUnit { s with draws := s.draws + 1 }
  | .reset :: rest =>
    if Config.freePoll s.draws then .moved (resetTo { s with script := rest, draws := s.draws + 1 })
    else fetchUnit { s with draws := s.draws + 1 }
  | _ :: _ => .refused .hostAccessWhileBusy

/-- The actions open to the host from its write to CMD until it has read STATUS as DONE or ERROR (70 R380): a
read of STATUS, a `WAIT`, which is such reads, and a reset (70 R371). -/
def readsStatusOnly (a : HostAction) : Bool := decide (a = .rd .status ∨ a = .wait ∨ a = .reset)

/-- A step while STATUS is IDLE, DONE or ERROR: the host's next action; with none the codec stays as it
is (70 R370). Until the host has read STATUS as DONE or ERROR it has no other access (70 R380, which draws
the window of 10 R41 by what the host has read; log 9). -/
def fetchIdle (s : State) : Fetched :=
  match s.script with
  | [] => .moved s
  | a :: rest =>
    if s.unread && !readsStatusOnly a then .refused .hostAccessBeforeStatusRead
    else hostAct a { s with script := rest }

/-- What the next step does. -/
def fetch (s : State) : Fetched :=
  match s.status with
  | .busy => fetchBusy s
  | .idle | .done | .error => fetchIdle s

/-! ### Placing a word where the next step fetches it -/

/-- The codec not BUSY, no command in progress and the last one's end read, as a write to CMD needs it (10 R28,
70 R380). -/
def quiesce (s : State) : State :=
  { s with status := if s.status = .busy then .idle else s.status, running := none, unread := false }

/-- The state in which the host has written its whole descriptor (70 R375): a register it has written keeps its
value, and it writes 0 to each of the others (log 7). -/
def prepareDescriptor (s : State) : State :=
  { s with
    fmt := if s.written.fmt then s.fmt else 0,
    width := if s.written.width then s.width else 0,
    height := if s.written.height then s.height else 0,
    levels := if s.written.levels then s.levels else 0,
    spos := if s.written.spos then s.spos else 0,
    slen := if s.written.slen then s.slen else 0,
    pallen := if s.written.pallen then s.pallen else 0,
    written := ⟨true, true, true, true, true, true, true⟩ }

/-- The state with the command word `CMD16 = fmt || v` as the host's next write to CMD, its descriptor written
(log 7). -/
def placeCommand (v fmt : Byte) (s : State) : State :=
  let q := prepareDescriptor (quiesce s)
  { q with fmt := fmt, script := .wr (.cmd v) :: q.script }

/-- Every index of the list holds a palette entry: transparent black where nothing was written. -/
def fillPalette (pal : Memory Pixel) : List Nat → Memory Pixel
  | [] => pal
  | i :: is =>
    match Memory.get pal i with
    | some _ => fillPalette pal is
    | none => fillPalette (Memory.set pal i clearPixel) is

/-- The script with nothing of the host's before the next unit (10 R41). -/
def waitScript : List HostAction → List HostAction
  | .wait :: rest => .wait :: rest
  | as => .wait :: as

/-- The state in which the next step runs the unit with these bytes: a DEC of the format is in progress
on a 2 x 1 texture, its first unit at SPOS, and the host has prepared it as 70 R375 asks (log 7). -/
def placeUnit (f : Fmt) (bytes : List Byte) (s : State) : State :=
  let s := prepareDescriptor s
  let a := if s.spos.toNat + bytes.length < 2 ^ 32 then s.spos.toNat else 0
  { s with
    width := 2, height := 1, spos := BitVec.ofNat 32 a, slen := BitVec.ofNat 32 (a + bytes.length),
    pallen := if s.pallen.toNat = 16 then 16 else 256,
    status := .busy, err := .none, ucnt := 0, running := some (.dec f), unread := true,
    pal := fillPalette s.pal (List.range (if s.pallen.toNat = 16 then 16 else 256)),
    stream := Memory.setMany s.stream (cellsAt a bytes),
    script := waitScript s.script }

/-- Place a word, numbered as spec/opcode_table.json numbers it, where the next step fetches it. -/
def placeWord (s : State) (nbits w : Nat) : State :=
  match slotOfWidth nbits with
  | .command => placeCommand (BitVec.ofNat 8 w) (BitVec.ofNat 8 (w / 256)) s
  | .unit (.dec f) => placeUnit f (bytesOfNat (unitSize f) w) s
  | .unit (.enc _) => s

end Sys2Proof.Machine
end

