-- ==== Sys2Proof/Safety.lean ====
section
/-! DEFINITION. The vocabulary of the claims: the invariants of the machine, which hold at reset and which
every step keeps, and the conditions under which a command or a unit runs. -/

namespace Sys2Proof.Machine

/-- Every memory is in canonical form and lists only addresses that exist: 256 palette entries (10 R33),
32-bit stream offsets (10 R34), image coordinates below 2^16 (10 R35). -/
structure MemoriesCanonical (s : State) : Prop where
  pal_wf : Memory.wf s.pal
  stream_wf : Memory.wf s.stream
  image_wf : Memory.wf s.image
  pal_keys : ∀ c ∈ s.pal, c.1 < 256
  stream_keys : ∀ c ∈ s.stream, c.1 < 2 ^ 32
  image_keys : ∀ c ∈ s.image, c.1 < 2 ^ 32

/-- Every sample of the palette RAM and of the image lies in [0, 1] (00 R8). -/
structure SamplesInRange (s : State) : Prop where
  pal : ∀ c ∈ s.pal, c.2.inRange = true
  image : ∀ c ∈ s.image, c.2.inRange = true

/-- What holds of the command in progress: a unit is left, its start checks passed, and the units before UCNT
lie inside the stream's byte range, just below SPOS (46 R291, R293; 10 R30). -/
structure CommandLegal (c : Command) (s : State) : Prop where
  unit_left : s.ucnt.toNat < unitTotal s c
  palette_legal : c = .dec .idx4 ∨ c = .dec .idx8 → s.pallen.toNat = 16 ∨ s.pallen.toNat = 256
  width_even : c = .dec .idx4 → s.width.toNat % 2 = 0
  confirmed : s.ucnt.toNat * unitSize (commandFmt c) ≤ s.spos.toNat
  inside : s.ucnt.toNat = 0 ∨ s.spos.toNat ≤ s.slen.toNat

/-- STATUS, ERR and the command in progress agree (10 R29, R31), the command in progress is legal, and the
host's window of 70 R380 is open while a command runs and never before the first one. -/
structure RegistersLegal (s : State) : Prop where
  busy_iff : s.status = .busy ↔ s.running ≠ none
  error_iff : s.status = .error ↔ s.err ≠ .none
  running_legal : ∀ c, s.running = some c → CommandLegal c s
  busy_unread : s.status = .busy → s.unread = true
  unread_not_idle : s.unread = true → s.status ≠ .idle

/-- The host's next action lets the running command go on: it waits, or has nothing to do (10 R41). -/
def HostWaits (s : State) : Prop := s.script = [] ∨ ∃ rest, s.script = .wait :: rest

/-- A unit of command `c` is the next thing to run: `c` is in progress, STATUS is BUSY, a unit is left
(46 R293). -/
def UnitDue (s : State) (c : Command) : Prop :=
  s.status = .busy ∧ s.running = some c ∧ s.ucnt.toNat < unitTotal s c

/-- The unit at SPOS fits below SLEN (20 R62, R63). -/
def UnitFits (s : State) (c : Command) : Prop :=
  s.spos.toNat + unitSize (commandFmt c) ≤ s.slen.toNat

/-- PALLEN is one of the two legal lengths (45 R261). -/
def PaletteLengthLegal (s : State) : Prop := s.pallen.toNat = 16 ∨ s.pallen.toNat = 256

/-- The state after a completed unit of `c`, but for the memory it wrote: SPOS and UCNT have moved, and
STATUS is DONE exactly when no unit is left (46 R293, R290). -/
def unitDone (c : Command) (s : State) : State :=
  { s with
    spos := s.spos + BitVec.ofNat 32 (unitSize (commandFmt c)),
    ucnt := s.ucnt + 1,
    status := if s.ucnt.toNat + 1 < unitTotal s c then .busy else .done,
    running := if s.ucnt.toNat + 1 < unitTotal s c then some c else none }

/-- The unit an image pixel belongs to (46 R292): the tile that covers it, or the stream byte that holds
its index. -/
def unitOfPixel (f : Fmt) (W x y : Nat) : Nat :=
  match f with
  | .block _ => y / 4 * ceil4 W + x / 4
  | .idx4 => (y * W + x) / 2
  | .idx8 => y * W + x

/-- The sixteen pixels a block of a format decodes to (41 R144, 42 R183, 43 R206); no pixels for bytes
that are no block. -/
def tileOfBytes (b : BlockFmt) (bytes : List Byte) : List Pixel :=
  match decodeUnitBytes (.block b) bytes with
  | .ok (.wireDxt1 (.read k)) => decodeTileDxt1 k
  | .ok (.wireDxt3 (.read k)) => decodeTileDxt3 k
  | .ok (.wireDxt5 (.read k)) => decodeTileDxt5 k
  | _ => []

/-- The bytes a tile of a format encodes to (41 R156, 42 R184, 43 R216). -/
def bytesOfTile (b : BlockFmt) (T : List Pixel) : List Byte :=
  match b with
  | .dxt1 => encodeColor (encodeTileDxt1 T)
  | .dxt3 => encodeDxt3 (encodeTileDxt3 T)
  | .dxt5 => encodeDxt5 (encodeTileDxt5 T)

/-- The instruction that starts a DEC of a block format (46 R300 to R302). -/
def decInstr : BlockFmt → Instr
  | .dxt1 => .decDxt1
  | .dxt3 => .decDxt3
  | .dxt5 => .decDxt5

/-- The instruction that starts an ENC of a block format (46 R305 to R307). -/
def encInstr : BlockFmt → Instr
  | .dxt1 => .encDxt1
  | .dxt3 => .encDxt3
  | .dxt5 => .encDxt5

/-- The outcome of a step that leaves the host's script alone, for a host whose script is `as`: a unit does not
look at the script. -/
def keepScript (as : List HostAction) : Result → Result
  | .next t => .next { t with script := as }
  | .fault r => .fault r
  | .refused r => .refused r

/-- The step in which the next unit runs while the host's pending action stays pending, one free value having
settled that order (46 R293; logs 8, 16). -/
def unitFirst (s : State) : Result := keepScript s.script (step { s with script := [], draws := s.draws + 1 })

/-- Every sample of a list of pixels lies in [0, 1] (00 R8). -/
def TileInRange (T : List Pixel) : Prop := ∀ p ∈ T, p.inRange = true

end Sys2Proof.Machine
end

