-- ==== Sys2Proof/Certificates/Slice0/Obligations.lean ====
section
/-! DEFINITION. The statements for the provers, each from the numbered rules of spec/ (OBLIGATIONS.json
says which). In all of them `exec` and `step` answer a next state where the conclusion says so; a free
value appears only under an existential, so a statement holds for every value of it. -/

open Sys2Proof Sys2Proof.Machine

/-! ### Encodings (30_encoding.md) -/

/-- Decode and encode agree: the decoder reads a well-formed instruction's bytes, in its own slot, as that
instruction, whatever its operands. -/
def Obligations.DecodeOfEncodeIsIdentity : Prop :=
  ∀ i : Instr, i.WellFormed = true → decode (slotOf i) (encode i) = .ok i

/-- Every byte sequence has at most one meaning and no bit of it is lost: what decodes to an instruction is
that instruction's encoding, the instruction is well-formed, and the slot is its own. -/
def Obligations.EncodeOfDecodeIsIdentity : Prop :=
  ∀ (sl : Slot) (bytes : List Byte) (i : Instr), decode sl bytes = .ok i →
    encode i = bytes ∧ i.WellFormed = true ∧ slotOf i = sl

/-- The decoder rejects exactly the wrong lengths: every byte pattern of a unit and every command word is
an instruction (30 R112, R113). -/
def Obligations.DecodeRejectsExactlyWrongLengths : Prop :=
  ∀ (sl : Slot) (bytes : List Byte),
    (∃ r, decode sl bytes = .error r) ↔ bytes.length ≠ slotBytes sl

/-- A few words of the spec's tables, one of each family: 46 R300, R304, R306, R308; 30 R112; 41 R144's
block; 42 R183's; 43 R206's; 45 R264's byte 0x2F; 45 R265's byte 0x80. -/
def Obligations.SpecWordsDecode : Prop :=
  decode .command [0x01#8, 0x00#8] = .ok .decDxt1 ∧
  decode .command [0x01#8, 0x04#8] = .ok .decIdx8 ∧
  decode .command [0x02#8, 0x01#8] = .ok .encDxt3 ∧
  decode .command [0x03#8, 0x09#8] = .ok (.palDefilt 0x09#8) ∧
  decode .command [0x01#8, 0x05#8] = .ok (.illegalDec 0x05#8) ∧
  decode .command [0x02#8, 0x03#8] = .ok (.illegalEnc 0x03#8) ∧
  decode .command [0x05#8, 0x00#8] = .ok (.reserved 0x0005#16) ∧
  decode (.unit (.dec (.block .dxt1)))
    [0x00#8, 0xF8#8, 0x1F#8, 0x00#8, 0x1B#8, 0x1B#8, 0x1B#8, 0x1B#8] =
    .ok (.wireDxt1 (.read ⟨0xF800#16, 0x001F#16, 0x1B#8, 0x1B#8, 0x1B#8, 0x1B#8⟩)) ∧
  decode (.unit (.dec (.block .dxt3)))
    [0xF0#8, 0x58#8, 0#8, 0#8, 0#8, 0#8, 0#8, 0#8, 0x00#8, 0xF8#8, 0x00#8, 0xF8#8, 0#8, 0#8, 0#8, 0#8] =
    .ok (.wireDxt3 (.read ⟨⟨0xF0#8, 0x58#8, 0#8, 0#8, 0#8, 0#8, 0#8, 0#8⟩,
      ⟨0xF800#16, 0xF800#16, 0#8, 0#8, 0#8, 0#8⟩⟩)) ∧
  decode (.unit (.dec (.block .dxt5)))
    [0xFF#8, 0x00#8, 0x68#8, 0x8F#8, 0xAC#8, 0x97#8, 0x70#8, 0x53#8,
      0x00#8, 0xF8#8, 0x00#8, 0xF8#8, 0#8, 0#8, 0#8, 0#8] =
    .ok (.wireDxt5 (.read ⟨⟨0xFF#8, 0x00#8, 0x688FAC977053#48⟩,
      ⟨0xF800#16, 0xF800#16, 0#8, 0#8, 0#8, 0#8⟩⟩)) ∧
  decode (.unit (.dec .idx4)) [0x2F#8] = .ok (.wireIdx4 2#4 15#4) ∧
  decode (.unit (.dec .idx8)) [0x80#8] = .ok (.wireIdx8 0x80#8)

/-- 30 R93: bit pair k, counted through the four index bytes with the most significant pair of each byte
first, is the palette index of the pixel at row k/4, column 3 - k%4; equivalently
`idx(r, c) = B[4 + r][2c+1 : 2c]`. -/
def Obligations.ColorIndexLayout : Prop :=
  ∀ b0 b1 b2 b3 b4 b5 b6 b7 : Byte,
    (∀ k : Nat, k < 16 →
      colorIndex (decodeColor b0 b1 b2 b3 b4 b5 b6 b7) (4 * (k / 4) + (3 - k % 4)) =
        ((([b4, b5, b6, b7].getD (k / 4) 0#8).extractLsb' (6 - 2 * (k % 4)) 2).toNat)) ∧
    (∀ r c : Nat, r < 4 → c < 4 →
      colorIndex (decodeColor b0 b1 b2 b3 b4 b5 b6 b7) (4 * r + c) =
        (([b4, b5, b6, b7].getD r 0#8).extractLsb' (2 * c) 2).toNat)

/-- 30 R91: every eight bytes are a DXT1 colour block, byte by byte: c0 from B[0] (bits 7:0) and B[1] (bits
15:8), c1 from B[2] and B[3], both little-endian, and B[4 + r] the index byte of tile row r. 30 R94: every
sixteen bytes are a DXT3 block: B[0..7] its alpha plane, then a colour block laid out the same way in B[8..15].
30 R97: every sixteen bytes are a DXT5 block: a0 = B[0], a1 = B[1], the six alpha index bytes B[2..7], none of
them lost (O7 says what they mean), then a colour block laid out the same way in B[8..15]. -/
def Obligations.EndpointLayout : Prop :=
  ∀ b0 b1 b2 b3 b4 b5 b6 b7 : Byte,
    ∃ k : ColorBlock,
      decode (.unit (.dec (.block .dxt1))) [b0, b1, b2, b3, b4, b5, b6, b7] = .ok (.wireDxt1 (.read k)) ∧
      (k.c0.extractLsb' 0 8 = b0 ∧ k.c0.extractLsb' 8 8 = b1 ∧
        k.c1.extractLsb' 0 8 = b2 ∧ k.c1.extractLsb' 8 8 = b3 ∧
        k.x0 = b4 ∧ k.x1 = b5 ∧ k.x2 = b6 ∧ k.x3 = b7) ∧
      (k.c0.toNat = b0.toNat + 256 * b1.toNat ∧ k.c1.toNat = b2.toNat + 256 * b3.toNat) ∧
      ∀ p0 p1 p2 p3 p4 p5 p6 p7 : Byte,
        decode (.unit (.dec (.block .dxt3)))
          [p0, p1, p2, p3, p4, p5, p6, p7, b0, b1, b2, b3, b4, b5, b6, b7] =
          .ok (.wireDxt3 (.read ⟨⟨p0, p1, p2, p3, p4, p5, p6, p7⟩, k⟩)) ∧
        ∃ a : AlphaBlock,
          decode (.unit (.dec (.block .dxt5)))
            [p0, p1, p2, p3, p4, p5, p6, p7, b0, b1, b2, b3, b4, b5, b6, b7] =
            .ok (.wireDxt5 (.read ⟨a, k⟩)) ∧
          a.a0 = p0 ∧ a.a1 = p1 ∧ a = decodeAlpha p0 p1 p2 p3 p4 p5 p6 p7 ∧
          encodeAlpha a = [p0, p1, p2, p3, p4, p5, p6, p7]

/-- 30 R99: Q has the first index byte most significant; index k, `Q[47 - 3k : 45 - 3k]`, is that of the
pixel at row k/4, column 3 - k%4; and the table of R99 byte by byte. That the bytes join in stream order is
the spec's reading (decision D7). -/
def Obligations.AlphaIndexLayout : Prop :=
  ∀ b0 b1 b2 b3 b4 b5 b6 b7 : Byte,
    let q := (decodeAlpha b0 b1 b2 b3 b4 b5 b6 b7).q
    q.toNat = b2.toNat * 2 ^ 40 + b3.toNat * 2 ^ 32 + b4.toNat * 2 ^ 24 + b5.toNat * 2 ^ 16 +
      b6.toNat * 2 ^ 8 + b7.toNat ∧
    (∀ k : Nat, k < 16 →
      alphaIndex q (4 * (k / 4) + (3 - k % 4)) = (q.extractLsb' (45 - 3 * k) 3).toNat) ∧
    alphaIndex q 3 = b2.toNat / 32 ∧
    alphaIndex q 2 = b2.toNat / 4 % 8 ∧
    alphaIndex q 1 = b2.toNat % 4 * 2 + b3.toNat / 128 ∧
    alphaIndex q 0 = b3.toNat / 16 % 8 ∧
    alphaIndex q 7 = b3.toNat / 2 % 8 ∧
    alphaIndex q 6 = b3.toNat % 2 * 4 + b4.toNat / 64 ∧
    alphaIndex q 5 = b4.toNat / 8 % 8 ∧
    alphaIndex q 4 = b4.toNat % 8 ∧
    alphaIndex q 11 = b5.toNat / 32 ∧
    alphaIndex q 10 = b5.toNat / 4 % 8 ∧
    alphaIndex q 9 = b5.toNat % 4 * 2 + b6.toNat / 128 ∧
    alphaIndex q 8 = b6.toNat / 16 % 8 ∧
    alphaIndex q 15 = b6.toNat / 2 % 8 ∧
    alphaIndex q 14 = b6.toNat % 2 * 4 + b7.toNat / 64 ∧
    alphaIndex q 13 = b7.toNat / 8 % 8 ∧
    alphaIndex q 12 = b7.toNat % 8

/-- 30 R96 and 42 R181: nibble n of the alpha plane is the low nibble of byte n/2 when n is even and its
high nibble when n is odd, belongs to tile position n (the spec's reading, decision D8), and decodes to
nibble/15. -/
def Obligations.AlphaPlaneLayout : Prop :=
  ∀ b0 b1 b2 b3 b4 b5 b6 b7 : Byte, ∀ n : Nat, n < 16 →
    (alpha4Decode ⟨b0, b1, b2, b3, b4, b5, b6, b7⟩)[n]? =
      some (((((([b0, b1, b2, b3, b4, b5, b6, b7].getD (n / 2) 0#8).extractLsb' (4 * (n % 2)) 4).toNat :
        Nat)) : Rat) / 15)

/-! ### The RGB565 unit, the DXT1 codec (40_rgb565.md, 41_dxt1.md) -/

/-- 40 R121: UNPACK565 by its formula, which equals rounding `field * 255 / 31` and `field * 255 / 63`; and
30 R92: the fields it reads are bits 15:11, 10:5 and 4:0 (the spec's reading, decision D4). -/
def Obligations.UnpackFollowsFormula : Prop :=
  (∀ v : Half, unpack565 v =
    ⟨(((field5R v * 527 + 23) / 64 : Nat) : Rat) / 255, (((field6G v * 259 + 33) / 64 : Nat) : Rat) / 255,
      (((field5B v * 527 + 23) / 64 : Nat) : Rat) / 255⟩) ∧
  (∀ v : Half, field5R v = v.toNat / 2048 ∧ field6G v = v.toNat / 32 % 64 ∧ field5B v = v.toNat % 32) ∧
  (∀ f : Nat, f < 32 → (f * 527 + 23) / 64 = rnd ((f : Rat) * 255 / 31)) ∧
  (∀ f : Nat, f < 64 → (f * 259 + 33) / 64 = rnd ((f : Rat) * 255 / 63)) ∧
  unpack565 0x8410#16 = ⟨132 / 255, 130 / 255, 132 / 255⟩

/-- 40 R123 (derived in the spec): every 16-bit value survives unpacking and packing. -/
def Obligations.PackInvertsUnpack : Prop := ∀ v : Half, pack565 (unpack565 v) = v

/-- 41 R141, R142: the palette in 4-colour mode and in 3-colour mode, chosen by comparing the packed
endpoints (all of alpha 1 but transparent black: the spec's decision D6); and 41 R144: tile position p holds
palette entry idx[p]. -/
def Obligations.PaletteModesFollowEndpointOrder : Prop :=
  ∀ k : ColorBlock,
    let x := unpack565 k.c0
    let y := unpack565 k.c1
    (k.c1.toNat < k.c0.toNat → paletteDxt1 k.c0 k.c1 =
      [⟨x.r, x.g, x.b, 1⟩, ⟨y.r, y.g, y.b, 1⟩,
        ⟨(2 * x.r + y.r) / 3, (2 * x.g + y.g) / 3, (2 * x.b + y.b) / 3, 1⟩,
        ⟨(x.r + 2 * y.r) / 3, (x.g + 2 * y.g) / 3, (x.b + 2 * y.b) / 3, 1⟩]) ∧
    (k.c0.toNat ≤ k.c1.toNat → paletteDxt1 k.c0 k.c1 =
      [⟨x.r, x.g, x.b, 1⟩, ⟨y.r, y.g, y.b, 1⟩,
        ⟨(x.r + y.r) / 2, (x.g + y.g) / 2, (x.b + y.b) / 2, 1⟩, ⟨0, 0, 0, 0⟩]) ∧
    (∀ p : Nat, p < 16 →
      (decodeTileDxt1 k)[p]? = (paletteDxt1 k.c0 k.c1)[colorIndex k p]? ∧ colorIndex k p < 4)

/-- 00 R8 with 41 R140, 42 R180, 43 R200: every block of every format decodes to sixteen pixels whose
samples lie in [0, 1]. -/
def Obligations.DecodedTilesInRange : Prop :=
  (∀ k : ColorBlock, (decodeTileDxt1 k).length = 16 ∧ TileInRange (decodeTileDxt1 k)) ∧
  (∀ k : Dxt3Block, (decodeTileDxt3 k).length = 16 ∧ TileInRange (decodeTileDxt3 k)) ∧
  (∀ k : Dxt5Block, (decodeTileDxt5 k).length = 16 ∧ TileInRange (decodeTileDxt5 k))

/-- 42 R183, 43 R206: a DXT3 or DXT5 pixel has the colour block's RGB and the alpha block's alpha; the
colour palette's own alpha is dropped (the spec's decision D9). -/
def Obligations.AlphaOverridesColorAlpha : Prop :=
  (∀ (k : Dxt3Block) (p : Nat), p < 16 → ∃ c, (decodeTileDxt1 k.color)[p]? = some c ∧
    (decodeTileDxt3 k)[p]? = some ⟨c.r, c.g, c.b, (planeNibble k.alpha p : Rat) / 15⟩) ∧
  (∀ (k : Dxt5Block) (p : Nat), p < 16 → ∃ c a, (decodeTileDxt1 k.color)[p]? = some c ∧
    (rampDxt5 k.alpha.a0 k.alpha.a1)[alphaIndex k.alpha.q p]? = some a ∧
    (decodeTileDxt5 k)[p]? = some ⟨c.r, c.g, c.b, a⟩)

/-- The colour fit and the endpoint order, for samples in [0, 1]. 41 R150 to R152: per channel, (lo, hi) is SELECT
over the set of the quantised values of the opaque samples (A > 1/2), `rnd(31 * R)`, `rnd(63 * G)`, `rnd(31 * B)`
(40 R122, the spec's decision D3), with the maxima 31, 63, 31 and the default (0, 0) (decision D14); loColor packs
the three lo, hiColor the three hi. Packed loColor is at most packed hiColor (41 R152, derived there from 44 R245),
and the block is written with c0 = hiColor and c1 = loColor (41 R153 with ENC_MODE = FOUR: the spec's decision
D10, log 4). -/
def Obligations.EncoderWritesHighEndpointFirst : Prop :=
  ∀ T : List Pixel, TileInRange T →
    (∀ VR VG VB : List Nat,
      (∀ v, v ∈ VR ↔ ∃ p ∈ T, 1 / 2 < p.a ∧ v = rnd (31 * p.r)) →
      (∀ v, v ∈ VG ↔ ∃ p ∈ T, 1 / 2 < p.a ∧ v = rnd (63 * p.g)) →
      (∀ v, v ∈ VB ↔ ∃ p ∈ T, 1 / 2 < p.a ∧ v = rnd (31 * p.b)) →
      let R := select VR 31 (0, 0)
      let G := select VG 63 (0, 0)
      let B := select VB 31 (0, 0)
      (packedLo T).toNat = R.1 * 2048 + G.1 * 32 + B.1 ∧
      (packedHi T).toNat = R.2 * 2048 + G.2 * 32 + B.2) ∧
    (packedLo T).toNat ≤ (packedHi T).toNat ∧
    (encodeTileDxt1 T).c0 = packedHi T ∧ (encodeTileDxt1 T).c1 = packedLo T

/-- 41 R155 (the spec's decisions D12, D13; the parameter TIE, the model's log 4): the encoded index
of a transparent sample (A <= 1/2) is 3; that of an opaque one is the first of the three candidates at the least sum of channel differences, and so
below 3. The candidates are the unpacked written endpoints and their midpoint (41 R154). -/
def Obligations.ColorIndicesAreNearest : Prop :=
  ∀ (T : List Pixel) (p : Nat) (x : Pixel), T.length = 16 → T[p]? = some x →
    let k := encodeTileDxt1 T
    let u := unpack565 k.c0
    let v := unpack565 k.c1
    let d : List Rat :=
      [|x.r - u.r| + |x.g - u.g| + |x.b - u.b|, |x.r - v.r| + |x.g - v.g| + |x.b - v.b|,
        |x.r - (u.r + v.r) / 2| + |x.g - (u.g + v.g) / 2| + |x.b - (u.b + v.b) / 2|]
    (x.a ≤ 1 / 2 → colorIndex k p = 3) ∧
    (1 / 2 < x.a → colorIndex k p < 3 ∧
      ∀ j : Nat, j < 3 → d.getD (colorIndex k p) 0 ≤ d.getD j 0 ∧
        (j < colorIndex k p → d.getD (colorIndex k p) 0 < d.getD j 0))

/-- 41 R156's last line is the inverse of 41 R143: packed indices read back. -/
def Obligations.PackedColorIndicesReadBack : Prop :=
  ∀ (c0 c1 : Half) (idx : List Nat), idx.length = 16 → (∀ j ∈ idx, j < 4) →
    ∀ p : Nat, p < 16 → colorIndex (packColorBlock c0 c1 idx) p = idx.getD p 0

/-- 41 R157 (a) (derived in the spec): a tile with no opaque sample encodes to `00 00 00 00 FF FF FF FF`,
which decodes to sixteen pixels (0, 0, 0, 0). -/
def Obligations.TransparentTileEncodesToDefault : Prop :=
  ∀ T : List Pixel, T.length = 16 → (∀ p ∈ T, p.a ≤ 1 / 2) →
    encodeColor (encodeTileDxt1 T) = [0x00#8, 0x00#8, 0x00#8, 0x00#8, 0xFF#8, 0xFF#8, 0xFF#8, 0xFF#8] ∧
    decodeTileDxt1 (encodeTileDxt1 T) = List.replicate 16 ⟨0, 0, 0, 0⟩

/-- 41 R158 (1) (derived in the spec): sixteen equal opaque samples encode to a block that decodes to
sixteen equal pixels, `(UNPACK565(PACK565(R, G, B)), 1)`. -/
def Obligations.SolidTileRoundTrip : Prop :=
  ∀ p : Pixel, p.inRange = true → 1 / 2 < p.a →
    decodeTileDxt1 (encodeTileDxt1 (List.replicate 16 p)) =
      List.replicate 16 ⟨(unpack565 (pack565 ⟨p.r, p.g, p.b⟩)).r, (unpack565 (pack565 ⟨p.r, p.g, p.b⟩)).g,
        (unpack565 (pack565 ⟨p.r, p.g, p.b⟩)).b, 1⟩

/-! ### The selector (44_endpoint_selector.md) -/

/-- 44 R241, whole, over any list V with the members of the ascending list `y` (44 R243: neither the order in V
nor how often a value occurs matters). N = 0: the default. N = 1 and N = 2: the values themselves. N >= 3: the
least-squares line value = m * index + b over the points (i, y[i]) exists, and for the m and b that solve its normal
equations lo and hi are b and m(N-1) + b, clamped to 0..max and rounded half up. The exact solution, the clamp and
then the rounding are the spec's decision D15, the rounding itself its decision D2 (the model's log 4). And every row
of the spec's table 44 R244. -/
def Obligations.SelectorWorkedExamples : Prop :=
  (∀ (V y : List Nat) (top : Nat) (d : Nat × Nat), (∀ v, v ∈ V ↔ v ∈ y) → y.Pairwise (· < ·) →
    (y = [] → select V top d = d) ∧
    (∀ u, y = [u] → select V top d = (u, u)) ∧
    (∀ u v, y = [u, v] → select V top d = (u, v)) ∧
    (3 ≤ y.length →
      let N := y.length
      let Line : Rat → Rat → Prop := fun m b =>
        m * (∑ i ∈ Finset.range N, (i : Rat)) + b * N = ∑ i ∈ Finset.range N, (y.getD i 0 : Rat) ∧
        m * (∑ i ∈ Finset.range N, (i : Rat) ^ 2) + b * (∑ i ∈ Finset.range N, (i : Rat)) =
          ∑ i ∈ Finset.range N, (i : Rat) * y.getD i 0
      (∃ m b, Line m b) ∧
      ∀ m b, Line m b →
        select V top d = (rnd (max 0 (min b top)), rnd (max 0 (min (m * (N - 1) + b) top))))) ∧
  (∀ d, select [] 31 d = d) ∧ select [16] 31 (0, 0) = (16, 16) ∧ select [3, 9] 31 (0, 0) = (3, 9) ∧
  select [0, 10, 20] 31 (0, 0) = (0, 20) ∧ select [29, 30, 31] 31 (0, 0) = (29, 31) ∧
  select [10, 11, 13] 31 (0, 0) = (10, 13) ∧ select [0, 1, 31] 31 (0, 0) = (0, 26) ∧
  select [0, 30, 31] 31 (0, 0) = (5, 31) ∧ select [0, 4, 5] 31 (0, 0) = (1, 6) ∧
  select [3, 4, 6, 11] 63 (0, 0) = (2, 10) ∧ select [0, 64, 128, 255] 255 (0, 0) = (0, 236) ∧
  select (List.range 16) 255 (0, 0) = (0, 15)

/-- 44 R245 (derived in the spec): over a non-empty set of values at most `max` the selector's pair is
ascending and at most `max`, and it is strictly ascending once the set has two members. -/
def Obligations.SelectorPairOrdered : Prop :=
  ∀ (V : List Nat) (max : Nat) (d : Nat × Nat), V ≠ [] → (∀ v ∈ V, v ≤ max) →
    (select V max d).1 ≤ (select V max d).2 ∧ (select V max d).2 ≤ max ∧
    ((∃ v ∈ V, ∃ w ∈ V, v ≠ w) → (select V max d).1 < (select V max d).2)

/-! ### The DXT3 and DXT5 alpha codecs (42_dxt3.md, 43_dxt5.md) -/

/-- 42 R182: of sixteen alpha samples in [0, 1], the encoded nibble of tile position n is `rnd(15 * AL[n])`, where
`rnd` rounds half up (the spec's decision D2, the model's log 4: 1/30 gives 1 and 1/2 gives 8), and byte j is
`nib[2j] + 16 * nib[2j + 1]`. With 42 R181: encoding a decoded alpha plane gives the plane back, byte for byte. -/
def Obligations.AlphaPlaneRoundTrip : Prop :=
  (∀ AL : List Sample, AL.length = 16 → (∀ x ∈ AL, 0 ≤ x ∧ x ≤ 1) →
    let k := alpha4Encode AL
    (∀ (n : Nat) (x : Sample), AL[n]? = some x →
      planeNibble k n = rnd (15 * x) ∧
      (planeNibble k n : Rat) ≤ 15 * x + 1 / 2 ∧ 15 * x + 1 / 2 < (planeNibble k n : Rat) + 1) ∧
    (∀ (j : Nat) (x y : Sample), AL[2 * j]? = some x → AL[2 * j + 1]? = some y →
      ((encodePlane k).getD j 0#8).toNat = rnd (15 * x) + 16 * rnd (15 * y))) ∧
  rnd (15 * (1 / 30)) = 1 ∧ rnd (15 * (1 / 2)) = 8 ∧
  (∀ k : AlphaPlane, alpha4Encode (alpha4Decode k) = k)

/-- 43 R201, R202: the two ramps, and which one the endpoint bytes choose. That the intermediate entries are
exact rationals, rounded nowhere, is the spec's decision D1 (the model's log 5). -/
def Obligations.AlphaRampModes : Prop :=
  ∀ a0 a1 : Byte,
    let x : Rat := a0.toNat
    let y : Rat := a1.toNat
    (a1.toNat < a0.toNat → rampDxt5 a0 a1 =
      [x / 255, y / 255, (6 * x + 1 * y) / 1785, (5 * x + 2 * y) / 1785, (4 * x + 3 * y) / 1785,
        (3 * x + 4 * y) / 1785, (2 * x + 5 * y) / 1785, (1 * x + 6 * y) / 1785]) ∧
    (a0.toNat ≤ a1.toNat → rampDxt5 a0 a1 =
      [x / 255, y / 255, (4 * x + 1 * y) / 1275, (3 * x + 2 * y) / 1275, (2 * x + 3 * y) / 1275,
        (1 * x + 4 * y) / 1275, 0, 1])

/-- 43 R214 is the inverse of 43 R204: packed alpha indices read back. -/
def Obligations.PackedAlphaIndicesReadBack : Prop :=
  ∀ aidx : List Nat, aidx.length = 16 → (∀ j ∈ aidx, j < 8) →
    ∀ p : Nat, p < 16 → alphaIndex (packAlpha aidx) p = aidx.getD p 0

/-- 43 R210, R211: the fitted pair (lo, hi) is SELECT over the set of the values `rnd(255 * x)` of the samples x
that are neither exactly 0 nor exactly 1 (the spec's decision D17), with the default (254, 255). 43 R212: an
extreme sample forces (a0, a1) = (lo, hi) with a0 <= a1; without one a0 > a1: (hi, lo), or on a tie (v, v - 1),
or (1, 0) when v = 0 (the spec's decision D16). 43 R217 (a) (derived in the spec): when every sample is
extreme, (a0, a1) = (254, 255). -/
def Obligations.AlphaModeFollowsExtremes : Prop :=
  ∀ AL : List Sample, (∀ x ∈ AL, 0 ≤ x ∧ x ≤ 1) →
    let lo := (alphaFit AL).1
    let hi := (alphaFit AL).2
    let k := alpha8Encode AL
    (∀ VA : List Nat, (∀ v, v ∈ VA ↔ ∃ x ∈ AL, (x ≠ 0 ∧ x ≠ 1) ∧ v = rnd (255 * x)) →
      (lo, hi) = select VA 255 (254, 255)) ∧
    (AL ≠ [] → (∀ x ∈ AL, x = 0 ∨ x = 1) → k.a0.toNat = 254 ∧ k.a1.toNat = 255) ∧
    ((∃ x ∈ AL, x = 0 ∨ x = 1) →
      k.a0.toNat = lo ∧ k.a1.toNat = hi ∧ k.a0.toNat ≤ k.a1.toNat) ∧
    ((∀ x ∈ AL, x ≠ 0 ∧ x ≠ 1) →
      k.a1.toNat < k.a0.toNat ∧
      (lo < hi → k.a0.toNat = hi ∧ k.a1.toNat = lo) ∧
      (lo = hi → 1 ≤ lo → k.a0.toNat = lo ∧ k.a1.toNat = lo - 1) ∧
      (lo = hi → lo = 0 → k.a0.toNat = 1 ∧ k.a1.toNat = 0))

/-- 43 R213 (the spec's decision D13; the parameter TIE, the model's log 4): the encoded index
of every alpha sample is the first ramp entry at the least distance. -/
def Obligations.AlphaIndicesAreNearest : Prop :=
  ∀ (AL : List Sample) (p : Nat) (x : Sample), AL.length = 16 → AL[p]? = some x →
    let k := alpha8Encode AL
    let e := (rampDxt5 k.a0 k.a1).map (fun y => |x - y|)
    alphaIndex k.q p < 8 ∧
    ∀ j : Nat, j < 8 → e.getD (alphaIndex k.q p) 0 ≤ e.getD j 0 ∧
      (j < alphaIndex k.q p → e.getD (alphaIndex k.q p) 0 < e.getD j 0)

/-! ### Reset and the host (10_state.md, 70_reset_and_hazards.md) -/

/-- 10 R40: STATUS = IDLE, ERR = none, UCNT = 0; every descriptor register, palette entry, stream byte and
image pixel is unwritten; with no host action the codec then does nothing. The values are the spec's decision
D32; that no host action is pending at reset, and that each descriptor register holds some value, one for every
run, is the model's choice (log 1). -/
def Obligations.ResetLeavesIdleAndUnwritten : Prop :=
  State.reset.status = .idle ∧ State.reset.err = .none ∧ State.reset.ucnt = 0 ∧
  State.reset.written = ⟨false, false, false, false, false, false, false⟩ ∧
  (∀ i : Nat, Memory.get State.reset.pal i = none) ∧
  (∀ a : Nat, Memory.get State.reset.stream a = none) ∧
  (∀ x y : Nat, Memory.get State.reset.image (imageKey x y) = none) ∧
  (State.reset.fmt = Config.resetFmt ∧ State.reset.width = Config.resetWidth ∧
    State.reset.height = Config.resetHeight ∧ State.reset.levels = Config.resetLevels ∧
    State.reset.spos = Config.resetSpos ∧ State.reset.slen = Config.resetSlen ∧
    State.reset.pallen = Config.resetPallen) ∧
  step State.reset = .next State.reset

/-- 70 R370: with no host action the codec stays as it is. -/
def Obligations.IdleCodecStays : Prop :=
  ∀ s : State, s.status ≠ .busy → s.script = [] → step s = .next s

/-- 70 R370, R371: a reset. The codec is IDLE with everything unwritten, whatever it was; the host's remaining
script stands. Both memories are empty unless a command was running: then the pixels (DEC) or bytes (ENC)
it could write hold something unspecified (R371, 60 R341 with f = 0), and nothing else is written. While a
command runs the next unit may come first, the reset staying pending: that order is free. Where the range
starts, what stands outside it and the free order are the model's choice (log 16). -/
def Obligations.ResetAction : Prop :=
  ∀ (s : State) (rest : List HostAction), s.script = .reset :: rest →
    (s.status ≠ .busy → step s = .next { State.reset with script := rest, draws := s.draws }) ∧
    (s.status = .busy →
      (Config.freePoll s.draws = false ∧ step s = unitFirst s) ∨
      (Config.freePoll s.draws = true ∧ ∃ t, step s = .next t ∧
        t = { State.reset with script := rest, draws := t.draws, stream := t.stream, image := t.image } ∧
        (s.running = none → t.stream = [] ∧ t.image = []) ∧
        (∀ f : Fmt, s.running = some (.dec f) → (f = .idx4 → s.width.toNat % 2 = 0) →
          t.stream = [] ∧ ∀ x y : Nat, x < 65536 →
            (s.width.toNat ≤ x ∨ s.height.toNat ≤ y → Memory.get t.image (imageKey x y) = none) ∧
            (x < s.width.toNat → y < s.height.toNat →
              ∃ p, Memory.get t.image (imageKey x y) = some p ∧ p.inRange = true)) ∧
        (∀ b : BlockFmt, s.running = some (.enc b) →
          t.image = [] ∧ ∀ a : Nat,
            (Memory.get t.stream a).isSome ↔
              s.spos.toNat - s.ucnt.toNat * unitSize (.block b) ≤ a ∧
              a < min s.slen.toNat (s.spos.toNat - s.ucnt.toNat * unitSize (.block b) +
                unitTotal s (.enc b) * unitSize (.block b)))))

/-- A step runs the command the host's write to CMD names (10 R28, 30 R110): when the byte written and FMT
decode to `i`, the step is `exec i` on the state in which the write has left the host's script and the host
has STATUS to read (70 R380), whether or not anything has written FMT (the model's choice, log 2). The end of the
command before must have been read (70 R380). -/
def Obligations.StepRunsWrittenCommand : Prop :=
  ∀ (s : State) (v : Byte) (rest : List HostAction) (i : Instr),
    s.status ≠ .busy → s.unread = false → s.script = .wr (.cmd v) :: rest →
    decode .command [v, s.fmt] = .ok i → step s = exec i { s with script := rest, unread := true }

/-- A step runs the next unit of the command in progress (46 R293): for DEC the unit the bytes at SPOS
decode to, for ENC the unit to be produced; the state is not changed around `exec`. One unit a step is the
model's choice (the spec's decision D42 allows it; log 6). -/
def Obligations.StepRunsDueUnit : Prop :=
  ∀ s : State, HostWaits s →
    (∀ (f : Fmt) (bytes : List Byte) (i : Instr), UnitDue s (.dec f) → UnitFits s (.dec f) →
      Memory.readAll s.stream (List.range' s.spos.toNat (unitSize f)) = some bytes →
      decode (.unit (.dec f)) bytes = .ok i → step s = exec i s) ∧
    (∀ (b : BlockFmt) (i : Instr), UnitDue s (.enc b) →
      decode (.unit (.enc b)) [] = .ok i → step s = exec i s)

/-- 10 R41, 70 R380: while BUSY the host may read STATUS only. Any other access is refused, but for a wait and
a reset; a poll of STATUS returns 1 (BUSY) and changes nothing of the machine, or the next unit runs first and
the poll stays pending. Once the command has ended, the host still has no other access until it has read
STATUS. The refusals are log 9, the free order of poll and unit log 8. -/
def Obligations.BusyHostAccess : Prop :=
  ∀ (s : State) (a : HostAction) (rest : List HostAction), s.script = a :: rest →
    (s.status = .busy → a ≠ .wait → a ≠ .reset → a ≠ .rd .status → step s = .refused .hostAccessWhileBusy) ∧
    (s.status = .busy → a = .rd .status →
      (Config.freePoll s.draws = true ∧
        step s = .next { s with script := rest, port := .reg 1, draws := s.draws + 1 }) ∨
      (Config.freePoll s.draws = false ∧ step s = unitFirst s)) ∧
    (s.status ≠ .busy → s.unread = true → a ≠ .wait → a ≠ .reset → a ≠ .rd .status →
      step s = .refused .hostAccessBeforeStatusRead)

/-- 10 R20 to R27, R38: while the codec is not BUSY and the last command's end has been read, the host writes any
value to a descriptor register and reads it back; that register, alone, is now written, and nothing else of the
machine changes. A read of a register that nothing has written returns what it holds as well (the model's choice,
log 2). That a value comes at its register's width is log 17. -/
def Obligations.HostRegisterWriteReadsBack : Prop :=
  (∀ (s : State) (w : RegWrite) (r : Reg) (v : Word) (m : Written) (rest : List HostAction),
    s.status ≠ .busy → s.unread = false → s.script = .wr w :: .rd r :: rest →
    ((∃ x, w = .fmt x ∧ r = .fmt ∧ v = x.setWidth 32 ∧ m = { s.written with fmt := true }) ∨
     (∃ x, w = .width x ∧ r = .width ∧ v = x.setWidth 32 ∧ m = { s.written with width := true }) ∨
     (∃ x, w = .height x ∧ r = .height ∧ v = x.setWidth 32 ∧ m = { s.written with height := true }) ∨
     (∃ x, w = .levels x ∧ r = .levels ∧ v = x.setWidth 32 ∧ m = { s.written with levels := true }) ∨
     (∃ x, w = .spos x ∧ r = .spos ∧ v = x ∧ m = { s.written with spos := true }) ∨
     (∃ x, w = .slen x ∧ r = .slen ∧ v = x ∧ m = { s.written with slen := true }) ∨
     (∃ x, w = .pallen x ∧ r = .pallen ∧ v = x.setWidth 32 ∧ m = { s.written with pallen := true })) →
    ∃ t u, step s = .next t ∧ step t = .next u ∧
      u = { s with script := rest, port := .reg v, written := m, fmt := u.fmt, width := u.width,
                   height := u.height, levels := u.levels, spos := u.spos, slen := u.slen,
                   pallen := u.pallen } ∧
      (r ≠ .fmt → u.fmt = s.fmt) ∧ (r ≠ .width → u.width = s.width) ∧
      (r ≠ .height → u.height = s.height) ∧ (r ≠ .levels → u.levels = s.levels) ∧
      (r ≠ .spos → u.spos = s.spos) ∧ (r ≠ .slen → u.slen = s.slen) ∧
      (r ≠ .pallen → u.pallen = s.pallen)) ∧
  (∀ (s : State) (r : Reg) (v : Word) (rest : List HostAction), s.status ≠ .busy → s.unread = false →
    s.script = .rd r :: rest →
    (r = .fmt ∧ v = s.fmt.setWidth 32) ∨ (r = .width ∧ v = s.width.setWidth 32) ∨
      (r = .height ∧ v = s.height.setWidth 32) ∨ (r = .levels ∧ v = s.levels.setWidth 32) ∨
      (r = .spos ∧ v = s.spos) ∨ (r = .slen ∧ v = s.slen) ∨ (r = .pallen ∧ v = s.pallen.setWidth 32) →
    step s = .next { s with script := rest, port := .reg v })

/-- 10 R29, R30, R31: while the codec is not BUSY a host read of STATUS, and a WAIT, which is such reads (30 R115),
returns the code the rules give and lets the host go on (70 R380); then a read of ERR or UCNT returns its code.
Nothing else of the machine changes. -/
def Obligations.HostReadsStatusErrUcnt : Prop :=
  ∀ (s : State) (rest : List HostAction), s.status ≠ .busy →
    (s.script = .rd .status :: rest ∨ s.script = .wait :: rest → ∃ v : Word,
      step s = .next { s with script := rest, port := .reg v, unread := false } ∧
      (s.status = .idle → v = 0) ∧ (s.status = .done → v = 2) ∧ (s.status = .error → v = 3)) ∧
    (s.unread = false → s.script = .rd .err :: rest → ∃ v : Word,
      step s = .next { s with script := rest, port := .reg v } ∧
      (s.err = .none → v = 0) ∧ (s.err = .unsupportedFormat → v = 1) ∧ (s.err = .truncatedStream → v = 2) ∧
      (s.err = .paletteIndexOutOfRange → v = 3) ∧ (s.err = .invalidPaletteSize → v = 4)) ∧
    (s.unread = false → s.script = .rd .ucnt :: rest →
      step s = .next { s with script := rest, port := .reg s.ucnt })

/-- 10 R33 to R35, R41: while the codec is not BUSY and the last command's end has been read, the host writes
stream bytes, a pixel, a palette entry, and every other cell is as before; and its read of a written byte, pixel
or entry returns the value held and changes nothing of the machine. That a write and a read take effect also at
a stream offset at or above SLEN and at a pixel outside WIDTH x HEIGHT, which a command does not reach, is the
model's choice (logs 17, 22). -/
def Obligations.HostMemoryWritesReadBack : Prop :=
  ∀ (s : State) (rest : List HostAction), s.status ≠ .busy → s.unread = false →
    (∀ (a : Word) (bytes : List Byte), s.script = .wrs a bytes :: rest →
      a.toNat + bytes.length ≤ 2 ^ 32 →
      ∃ t, step s = .next t ∧ t = { s with script := rest, stream := t.stream } ∧
        ∀ b : Nat, Memory.get t.stream b =
          if a.toNat ≤ b ∧ b < a.toNat + bytes.length then bytes[b - a.toNat]? else Memory.get s.stream b) ∧
    (∀ (x y : Half) (p : Pixel), s.script = .wrImg x y p :: rest → p.inRange = true →
      ∃ t, step s = .next t ∧ t = { s with script := rest, image := t.image } ∧
        ∀ x' y' : Half, Memory.get t.image (imageKey x'.toNat y'.toNat) =
          if x' = x ∧ y' = y then some p else Memory.get s.image (imageKey x'.toNat y'.toNat)) ∧
    (∀ (i : Byte) (p : Pixel), s.script = .wrPal i p :: rest → p.inRange = true →
      ∃ t, step s = .next t ∧ t = { s with script := rest, pal := t.pal } ∧
        ∀ j : Nat, Memory.get t.pal j = if j = i.toNat then some p else Memory.get s.pal j) ∧
    (∀ (a : Word) (v : Byte), s.script = .rdStream a :: rest → Memory.get s.stream a.toNat = some v →
      step s = .next { s with script := rest, port := .byte v }) ∧
    (∀ (x y : Half) (p : Pixel), s.script = .rdImg x y :: rest →
      Memory.get s.image (imageKey x.toNat y.toNat) = some p →
      step s = .next { s with script := rest, port := .pixel p }) ∧
    (∀ (i : Byte) (p : Pixel), s.script = .rdPal i :: rest → Memory.get s.pal i.toNat = some p →
      step s = .next { s with script := rest, port := .pixel p })

/-! ### The commands (46_commands.md R290, R291; 60_exceptions.md) -/

/-- 46 R290, R291, R297 for DEC.DXT1, DEC.DXT3, DEC.DXT5, ENC.DXT1, ENC.DXT3, ENC.DXT5: the command starts:
STATUS = BUSY, ERR = none, UCNT = 0 and the unit loop is in progress; with no unit (width or height 0) it ends DONE
at once. No other register and no memory changes. The start is a step of its own (log 6); that it starts on a
register nothing has written too is the model's choice (log 2). -/
def Obligations.BlockCommandsStart : Prop :=
  ∀ (i : Instr) (c : Command) (b : BlockFmt),
    (i = decInstr b ∧ c = .dec (.block b)) ∨ (i = encInstr b ∧ c = .enc b) →
    ∀ s : State, s.status ≠ .busy →
      unitTotal s c = (s.width.toNat + 3) / 4 * ((s.height.toNat + 3) / 4) ∧
      (0 < s.width.toNat → 0 < s.height.toNat →
        exec i s = .next { s with status := .busy, err := .none, ucnt := 0, running := some c }) ∧
      (s.width.toNat = 0 ∨ s.height.toNat = 0 →
        exec i s = .next { s with status := .done, err := .none, ucnt := 0, running := none })

/-- 46 R290, R291, R297 for DEC.IDX4 and DEC.IDX8, with PALLEN 16 or 256 and, for IDX4, an even width (log 6,
log 2). -/
def Obligations.IndexedCommandsStart : Prop :=
  ∀ s : State, s.status ≠ .busy → PaletteLengthLegal s →
    (s.width.toNat % 2 = 0 →
      (0 < s.width.toNat * s.height.toNat → exec .decIdx4 s =
        .next { s with status := .busy, err := .none, ucnt := 0, running := some (.dec .idx4) }) ∧
      (s.width.toNat * s.height.toNat = 0 → exec .decIdx4 s =
        .next { s with status := .done, err := .none, ucnt := 0, running := none }) ∧
      unitTotal s (.dec .idx4) * 2 = s.width.toNat * s.height.toNat) ∧
    (0 < s.width.toNat * s.height.toNat → exec .decIdx8 s =
      .next { s with status := .busy, err := .none, ucnt := 0, running := some (.dec .idx8) }) ∧
    (s.width.toNat * s.height.toNat = 0 → exec .decIdx8 s =
      .next { s with status := .done, err := .none, ucnt := 0, running := none }) ∧
    unitTotal s (.dec .idx8) = s.width.toNat * s.height.toNat

/-- 30 R112 (a), (b), 60 R331, R340: OP = DEC with FMT above 4 and OP = ENC with FMT above 2 are ILLEGAL.DEC
and ILLEGAL.ENC; each ends at once with UnsupportedFormat: ERR, STATUS, UCNT = 0, SPOS some value, and
no other register, and nothing of stream, image and palette, changes (log 10). -/
def Obligations.UnsupportedFormatEndsCommand : Prop :=
  (∀ fmt : Byte, 4 < fmt.toNat → decode .command [1#8, fmt] = .ok (.illegalDec fmt)) ∧
  (∀ fmt : Byte, 2 < fmt.toNat → decode .command [2#8, fmt] = .ok (.illegalEnc fmt)) ∧
  (∀ (i : Instr) (fmt : Byte) (s : State), i = .illegalDec fmt ∨ i = .illegalEnc fmt → s.status ≠ .busy →
    ∃ (x : Word) (d : Nat), exec i s = .next
      { s with status := .error, err := .unsupportedFormat, ucnt := 0, running := none,
               spos := x, written := { s.written with spos := true }, draws := d })

/-- 45 R261, R270, 60 R334, R340: DEC.IDX4 and DEC.IDX8 with PALLEN neither 16 nor 256, and PAL.DEFILT with
PALLEN not 256, end at once with InvalidPaletteSize (the spec's decision D26); no memory changes; SPOS is some
value (log 10). That it holds for a PALLEN nothing has written too is the model's choice (log 2). -/
def Obligations.InvalidPaletteSizeEndsCommand : Prop :=
  ∀ (i : Instr) (s : State), s.status ≠ .busy →
    ((i = .decIdx4 ∨ i = .decIdx8) ∧ s.pallen.toNat ≠ 16 ∧ s.pallen.toNat ≠ 256) ∨
      ((∃ fmt, i = .palDefilt fmt) ∧ s.pallen.toNat ≠ 256) →
    ∃ (x : Word) (d : Nat), exec i s = .next
      { s with status := .error, err := .invalidPaletteSize, ucnt := 0, running := none,
               spos := x, written := { s.written with spos := true }, draws := d }

/-- The stops at the start of a command: RESERVED always (30 R112 (c)), and DEC.IDX4 with a legal palette length and
an odd width (45 R262). Every other command starts and answers a next state, whichever registers have been
written, but for a PAL.DEFILT that finds an unwritten palette entry (10 R38); and no instruction looks at the marks
that say which registers have been written. That an unwritten register stops nothing is the model's choice (log 2). -/
def Obligations.CommandsWithoutMeaningRefused : Prop :=
  (∀ (w : Half) (s : State), exec (.reserved w) s = .refused .reservedCommand) ∧
  (∀ s : State, s.status ≠ .busy → PaletteLengthLegal s → s.width.toNat % 2 = 1 →
    exec .decIdx4 s = .refused .oddIdx4Width) ∧
  (∀ (i : Instr) (s : State), slotOf i = .command → s.status ≠ .busy → (∀ w, i ≠ .reserved w) →
    (i = .decIdx4 → PaletteLengthLegal s → s.width.toNat % 2 = 0) →
    ((∃ fmt, i = .palDefilt fmt) → s.pallen.toNat = 256 → ∀ j : Nat, j < 256 → (Memory.get s.pal j).isSome) →
    ∃ t, exec i s = .next t) ∧
  (∀ (i : Instr) (s t : State) (w : Written), exec i s = .next t →
    ∃ m, exec i { s with written := w } = .next { t with written := m })

/-- 45 R270, 46 R308 (the spec's decisions D26, D35): PAL.DEFILT. With PALLEN = 256 every entry is read before
any is written, entry `part*32 + block*16 + stripe*8 + color` becomes the old entry
`part*32 + block*8 + stripe*16 + color`, UCNT = 1, DONE, and no other register or memory changes, whatever
the FMT byte of CMD16 is. With any other PALLEN it ends with InvalidPaletteSize and no memory changes; SPOS
is then some value (60 R340, log 10). That it holds for a PALLEN nothing has written too is log 2. -/
def Obligations.DefilterPermutesPalette : Prop :=
  ∀ (fmt : Byte) (s : State), s.status ≠ .busy →
    (s.pallen.toNat = 256 → (∀ i : Nat, i < 256 → (Memory.get s.pal i).isSome) →
      ∃ t, exec (.palDefilt fmt) s = .next t ∧
        t = { s with pal := t.pal, status := .done, err := .none, ucnt := 1, running := none } ∧
        ∀ part block stripe color : Nat, part < 8 → block < 2 → stripe < 2 → color < 8 →
          Memory.get t.pal (part * 32 + block * 16 + stripe * 8 + color) =
            Memory.get s.pal (part * 32 + block * 8 + stripe * 16 + color)) ∧
    (s.pallen.toNat ≠ 256 → ∃ (x : Word) (d : Nat), exec (.palDefilt fmt) s = .next
      { s with status := .error, err := .invalidPaletteSize, ucnt := 0, running := none,
               spos := x, written := { s.written with spos := true }, draws := d })

/-- 45 R271 (derived in the spec): PAL.DEFILT twice restores the palette (for a PALLEN nothing has written too:
log 2). -/
def Obligations.DefilterTwiceRestoresPalette : Prop :=
  ∀ (fmt fmt' : Byte) (s : State), s.status ≠ .busy → s.pallen.toNat = 256 →
    (∀ i : Nat, i < 256 → (Memory.get s.pal i).isSome) →
    ∃ t u, exec (.palDefilt fmt) s = .next t ∧ exec (.palDefilt fmt') t = .next u ∧
      ∀ i : Nat, Memory.get u.pal i = Memory.get s.pal i

/-! ### The units (46_commands.md R293 to R298) -/

/-- 46 R293, R294, R300 to R302: one unit of DEC.DXT1, DEC.DXT3, DEC.DXT5 that fits. Its sixteen pixels go
to their tile, those outside the image are dropped, every other pixel is as before; SPOS, UCNT and STATUS
advance; stream, palette and the other registers are unchanged. -/
def Obligations.DecodedBlockUnit : Prop :=
  ∀ (i : Instr) (b : BlockFmt) (T : List Pixel),
    (∃ k, i = .wireDxt1 (.read k) ∧ b = .dxt1 ∧ T = decodeTileDxt1 k) ∨
    (∃ k, i = .wireDxt3 (.read k) ∧ b = .dxt3 ∧ T = decodeTileDxt3 k) ∨
    (∃ k, i = .wireDxt5 (.read k) ∧ b = .dxt5 ∧ T = decodeTileDxt5 k) →
    ∀ s : State, UnitDue s (.dec (.block b)) → UnitFits s (.dec (.block b)) →
      ∃ t, exec i s = .next t ∧ t = { unitDone (.dec (.block b)) s with image := t.image } ∧
        ∀ x y : Nat, x < 65536 → Memory.get t.image (imageKey x y) =
          if x / 4 = s.ucnt.toNat % ceil4 s.width.toNat ∧ y / 4 = s.ucnt.toNat / ceil4 s.width.toNat ∧
            x < s.width.toNat ∧ y < s.height.toNat
          then T[4 * (y % 4) + x % 4]? else Memory.get s.image (imageKey x y)

/-- 46 R303, 45 R264: one unit of DEC.IDX4 that fits, with both palette entries written: pixel 2u gets the
low nibble's entry, pixel 2u + 1 the high nibble's, every other pixel is as before. -/
def Obligations.DecodedIdx4Unit : Prop :=
  ∀ (r l : BitVec 4) (s : State) (pl ph : Pixel),
    UnitDue s (.dec .idx4) → UnitFits s (.dec .idx4) → PaletteLengthLegal s →
    Memory.get s.pal l.toNat = some pl → Memory.get s.pal r.toNat = some ph →
    ∃ t, exec (.wireIdx4 r l) s = .next t ∧ t = { unitDone (.dec .idx4) s with image := t.image } ∧
      ∀ x y : Nat, x < 65536 → Memory.get t.image (imageKey x y) =
        if x < s.width.toNat ∧ y * s.width.toNat + x = 2 * s.ucnt.toNat then some pl
        else if x < s.width.toNat ∧ y * s.width.toNat + x = 2 * s.ucnt.toNat + 1 then some ph
        else Memory.get s.image (imageKey x y)

/-- 46 R304, 45 R265: one unit of DEC.IDX8 that fits, its index below PALLEN and its entry written: pixel u
gets that entry, every other pixel is as before. -/
def Obligations.DecodedIdx8Unit : Prop :=
  ∀ (i : Byte) (s : State) (p : Pixel),
    UnitDue s (.dec .idx8) → UnitFits s (.dec .idx8) → i.toNat < s.pallen.toNat →
    Memory.get s.pal i.toNat = some p →
    ∃ t, exec (.wireIdx8 i) s = .next t ∧ t = { unitDone (.dec .idx8) s with image := t.image } ∧
      ∀ x y : Nat, x < 65536 → Memory.get t.image (imageKey x y) =
        if x < s.width.toNat ∧ y * s.width.toNat + x = s.ucnt.toNat then some p
        else Memory.get s.image (imageKey x y)

/-- 46 R293, R295, R305 to R307: one unit of ENC.DXT1, ENC.DXT3, ENC.DXT5 that fits, every image pixel of
its tile written. For some choice of the padding pixels, each in range, the tile's block stands at SPOS;
every other byte is as before; SPOS, UCNT and STATUS advance; image, palette and the other registers are
unchanged. The padding is free (the spec's decision D19, log 12). -/
def Obligations.EncodedBlockUnit : Prop :=
  ∀ (i : Instr) (b : BlockFmt),
    (i = .wireDxt1 .write ∧ b = .dxt1) ∨ (i = .wireDxt3 .write ∧ b = .dxt3) ∨
      (i = .wireDxt5 .write ∧ b = .dxt5) →
    ∀ s : State, UnitDue s (.enc b) → UnitFits s (.enc b) →
      (∀ p : Nat, p < 16 → tileInside s.width.toNat s.height.toNat s.ucnt.toNat p = true →
        (Memory.get s.image (imageKey (tileX s.width.toNat s.ucnt.toNat p)
          (tileY s.width.toNat s.ucnt.toNat p))).isSome) →
      ∃ (T : List Pixel) (t : State), exec i s = .next t ∧ T.length = 16 ∧
        (∀ p : Nat, p < 16 →
          (tileInside s.width.toNat s.height.toNat s.ucnt.toNat p = true →
            T[p]? = Memory.get s.image (imageKey (tileX s.width.toNat s.ucnt.toNat p)
              (tileY s.width.toNat s.ucnt.toNat p))) ∧
          (tileInside s.width.toNat s.height.toNat s.ucnt.toNat p = false →
            ∃ q, T[p]? = some q ∧ q.inRange = true)) ∧
        t = { unitDone (.enc b) s with stream := t.stream, draws := t.draws } ∧
        ∀ a : Nat, Memory.get t.stream a =
          if s.spos.toNat ≤ a ∧ a < s.spos.toNat + unitSize (.block b)
          then (bytesOfTile b T)[a - s.spos.toNat]? else Memory.get s.stream a

/-- 60 R332, R340, R341 (a): a DEC step whose unit does not fit below SLEN raises TruncatedStream. ERR and
STATUS say so and UCNT keeps the unit; the pixels of the units before it, and everything outside the
image, are as they were; the pixels of the units from it on hold some pixel in range; the stream, the
palette and every register but SPOS are unchanged (the spec's decision D27; logs 10, 11). -/
def Obligations.TruncatedDecode : Prop :=
  ∀ (f : Fmt) (s : State), UnitDue s (.dec f) → HostWaits s → ¬ UnitFits s (.dec f) →
    (f = .idx4 → s.width.toNat % 2 = 0) →
    ∃ t, step s = .next t ∧
      t = { s with status := .error, err := .truncatedStream, running := none, spos := t.spos,
                   written := { s.written with spos := true }, image := t.image, draws := t.draws } ∧
      ∀ x y : Nat, x < 65536 →
        (s.width.toNat ≤ x ∨ s.height.toNat ≤ y ∨ unitOfPixel f s.width.toNat x y < s.ucnt.toNat →
          Memory.get t.image (imageKey x y) = Memory.get s.image (imageKey x y)) ∧
        (x < s.width.toNat → y < s.height.toNat → s.ucnt.toNat ≤ unitOfPixel f s.width.toNat x y →
          ∃ p, Memory.get t.image (imageKey x y) = some p ∧ p.inRange = true)

/-- 60 R332, R340, R341 (b): an ENC unit that does not fit raises TruncatedStream. Bytes before SPOS, and
from `min(SLEN, SPOS_start + total)` on, are as they were, with SPOS_start = SPOS - UCNT * unit size; the
image, the palette and every register but SPOS are unchanged (the spec's decision D27; logs 10, 11). -/
def Obligations.TruncatedEncode : Prop :=
  ∀ (i : Instr) (b : BlockFmt),
    (i = .wireDxt1 .write ∧ b = .dxt1) ∨ (i = .wireDxt3 .write ∧ b = .dxt3) ∨
      (i = .wireDxt5 .write ∧ b = .dxt5) →
    ∀ s : State, UnitDue s (.enc b) → ¬ UnitFits s (.enc b) →
      (∀ p : Nat, p < 16 → tileInside s.width.toNat s.height.toNat s.ucnt.toNat p = true →
        (Memory.get s.image (imageKey (tileX s.width.toNat s.ucnt.toNat p)
          (tileY s.width.toNat s.ucnt.toNat p))).isSome) →
      ∃ t, exec i s = .next t ∧
        t = { s with status := .error, err := .truncatedStream, running := none, spos := t.spos,
                     written := { s.written with spos := true }, stream := t.stream, draws := t.draws } ∧
        ∀ a : Nat, a < s.spos.toNat ∨ min s.slen.toNat (s.spos.toNat - s.ucnt.toNat * unitSize (.block b) +
            unitTotal s (.enc b) * unitSize (.block b)) ≤ a →
          Memory.get t.stream a = Memory.get s.stream a

/-- 45 R263, R265, 60 R333, R340, R341 (a): an IDX8 unit whose index is not below PALLEN raises
PaletteIndexOutOfRange, the index never clamped; an IDX4 unit that fits never raises it (45 R264). -/
def Obligations.IndexOutOfRangeEndsDecode : Prop :=
  (∀ (i : Byte) (s : State), UnitDue s (.dec .idx8) → UnitFits s (.dec .idx8) →
    s.pallen.toNat ≤ i.toNat →
    ∃ t, exec (.wireIdx8 i) s = .next t ∧
      t = { s with status := .error, err := .paletteIndexOutOfRange, running := none, spos := t.spos,
                   written := { s.written with spos := true }, image := t.image, draws := t.draws } ∧
      ∀ x y : Nat, x < 65536 →
        s.width.toNat ≤ x ∨ s.height.toNat ≤ y ∨ y * s.width.toNat + x < s.ucnt.toNat →
        Memory.get t.image (imageKey x y) = Memory.get s.image (imageKey x y)) ∧
  (∀ (r l : BitVec 4) (s t : State), UnitFits s (.dec .idx4) → PaletteLengthLegal s →
    exec (.wireIdx4 r l) s = .next t → t.status ≠ .error)

/-- 46 R292, R294, R298: every pixel of the image is written by exactly one unit of a command, the one
`unitOfPixel` names, and that unit is one of the command's. -/
def Obligations.EveryPixelInOneUnit : Prop :=
  ∀ (f : Fmt) (W H x y : Nat), x < W → y < H → W ≤ 65535 → H ≤ 65535 → (f = .idx4 → W % 2 = 0) →
    unitOfPixel f W x y < unitCount f W H ∧
    ∀ u : Nat, u < unitCount f W H →
      ((∃ k, (imageKey x y, k) ∈ unitSlots f W H u) ↔ u = unitOfPixel f W x y)

/-! ### Frames (10_state.md R20, 20_memory.md R60) -/

/-- 10 R20, the column "written by codec": no instruction writes FMT, WIDTH, HEIGHT, LEVELS, SLEN or PALLEN,
nor the host's script, what it has read, and the mark that it has yet to read STATUS. -/
def Obligations.DescriptorsNeverWrittenByCodec : Prop :=
  ∀ (i : Instr) (s t : State), exec i s = .next t →
    t.fmt = s.fmt ∧ t.width = s.width ∧ t.height = s.height ∧ t.levels = s.levels ∧ t.slen = s.slen ∧
    t.pallen = s.pallen ∧ t.script = s.script ∧ t.port = s.port ∧ t.unread = s.unread

/-- 20 R60, 10 R33: the palette is written by PAL.DEFILT alone; the stream only by the units of ENC; the
image only by the units of DEC. So a start of a command writes no memory. -/
def Obligations.MemoriesWrittenByTheirCommandsOnly : Prop :=
  ∀ (i : Instr) (s t : State), exec i s = .next t →
    ((∀ fmt, i ≠ .palDefilt fmt) → t.pal = s.pal) ∧
    (i ≠ .wireDxt1 .write → i ≠ .wireDxt3 .write → i ≠ .wireDxt5 .write → t.stream = s.stream) ∧
    ((∀ k, i ≠ .wireDxt1 (.read k)) → (∀ k, i ≠ .wireDxt3 (.read k)) → (∀ k, i ≠ .wireDxt5 (.read k)) →
      (∀ r l, i ≠ .wireIdx4 r l) → (∀ x, i ≠ .wireIdx8 x) → t.image = s.image)

/-! ### Invariants -/

/-- Every step keeps the memories canonical and inside their address spaces (10 R33 to R35). -/
def Obligations.StepKeepsMemoriesCanonical : Prop :=
  ∀ s t : State, MemoriesCanonical s → step s = .next t → MemoriesCanonical t

/-- Every step keeps every stored sample in [0, 1] (00 R8). -/
def Obligations.StepKeepsSamplesInRange : Prop :=
  ∀ s t : State, SamplesInRange s → step s = .next t → SamplesInRange t

/-- Every step keeps STATUS, ERR and the command in progress in agreement, the command legal, and the window of
70 R380 open while a command runs and closed until the first one (10 R29 to R31, 46 R291, R293). -/
def Obligations.StepKeepsRegistersLegal : Prop :=
  ∀ s t : State, RegistersLegal s → step s = .next t → RegistersLegal t

/-- The three invariants hold at reset. -/
def Obligations.InvariantsHoldAtReset : Prop :=
  MemoriesCanonical State.reset ∧ SamplesInRange State.reset ∧ RegistersLegal State.reset

/-! ### Whole commands -/

/-- 46 R299: every command ends, DONE or ERROR. A legal command in progress, with the host waiting (it has no
action pending or a WAIT), is over after at most as many steps as it has units left: those steps answer a next
state that is DONE or ERROR, or they are refused because one of them finds an unwritten stream byte, pixel or
palette entry (10 R38; log 3), and for no other reason. One unit a step is the model's choice, which the spec's
decision D42 allows (log 6). -/
def Obligations.EveryCommandEnds : Prop :=
  ∀ (s : State) (c : Command), RegistersLegal s → s.running = some c → HostWaits s →
    ∃ k : Nat, k ≤ unitTotal s c - s.ucnt.toNat ∧
      ((∃ t, Host.Core.run Sys2Proof.core k s = .next t ∧ (t.status = .done ∨ t.status = .error)) ∨
        Host.Core.run Sys2Proof.core k s = .refused .unwrittenStream ∨
        Host.Core.run Sys2Proof.core k s = .refused .unwrittenImage ∨
        Host.Core.run Sys2Proof.core k s = .refused .unwrittenPalette)

/-- 46 R293, R294, R296 with R300 to R302: a whole DEC.DXT1, DEC.DXT3 or DEC.DXT5 whose bytes are there. The
start and then one step a unit end DONE, with UCNT = n, SPOS = SPOS_start + total, the stream unchanged,
and every pixel of the image the one its block decodes to. One unit a step is log 6; that no register needs to
have been written is log 2. -/
def Obligations.WholeBlockDecode : Prop :=
  ∀ (b : BlockFmt) (s : State), s.status ≠ .busy → HostWaits s →
    let c : Command := .dec (.block b)
    let us := unitSize (.block b)
    let n := unitTotal s c
    s.spos.toNat + n * us ≤ s.slen.toNat →
    (∀ a : Nat, s.spos.toNat ≤ a → a < s.spos.toNat + n * us → (Memory.get s.stream a).isSome) →
    ∃ t0 t, exec (decInstr b) s = .next t0 ∧ Host.Core.run Sys2Proof.core n t0 = .next t ∧
      t.status = .done ∧ t.err = .none ∧ t.ucnt.toNat = n ∧ t.spos.toNat = s.spos.toNat + n * us ∧
      t.stream = s.stream ∧ t.pal = s.pal ∧
      ∀ x y : Nat, x < s.width.toNat → y < s.height.toNat →
        ∃ bytes, Memory.readAll s.stream
            (List.range' (s.spos.toNat + us * unitOfPixel (.block b) s.width.toNat x y) us) = some bytes ∧
          Memory.get t.image (imageKey x y) = (tileOfBytes b bytes)[4 * (y % 4) + x % 4]?

/-- 46 R293, R295, R296 with R305 to R307: a whole ENC.DXT1, ENC.DXT3 or ENC.DXT5 of a written image into a
range that fits. The start and then one step a unit end DONE, with UCNT = n, SPOS = SPOS_start + total,
the image unchanged, every byte of the range written and every other byte as before; the block of a tile
that lies wholly inside the image is the one the tile's pixels encode to. One unit a step is log 6; that no
register needs to have been written is log 2. -/
def Obligations.WholeBlockEncode : Prop :=
  ∀ (b : BlockFmt) (s : State), s.status ≠ .busy → HostWaits s →
    let c : Command := .enc b
    let us := unitSize (.block b)
    let n := unitTotal s c
    s.spos.toNat + n * us ≤ s.slen.toNat →
    (∀ x y : Nat, x < s.width.toNat → y < s.height.toNat → (Memory.get s.image (imageKey x y)).isSome) →
    ∃ t0 t, exec (encInstr b) s = .next t0 ∧ Host.Core.run Sys2Proof.core n t0 = .next t ∧
      t.status = .done ∧ t.err = .none ∧ t.ucnt.toNat = n ∧ t.spos.toNat = s.spos.toNat + n * us ∧
      t.image = s.image ∧ t.pal = s.pal ∧
      (∀ a : Nat, s.spos.toNat ≤ a → a < s.spos.toNat + n * us → (Memory.get t.stream a).isSome) ∧
      (∀ a : Nat, a < s.spos.toNat ∨ s.spos.toNat + n * us ≤ a →
        Memory.get t.stream a = Memory.get s.stream a) ∧
      ∀ (u : Nat) (T : List Pixel), u < n →
        (∀ p : Nat, p < 16 → tileInside s.width.toNat s.height.toNat u p = true) →
        Memory.readAll s.image ((List.range 16).map
          (fun p => imageKey (tileX s.width.toNat u p) (tileY s.width.toNat u p))) = some T →
        Memory.readAll t.stream (List.range' (s.spos.toNat + us * u) us) = some (bytesOfTile b T)

/-- 46 R293, R296 with R303, R304, 45 R266: a whole DEC.IDX4 (even width) or DEC.IDX8 whose bytes are there,
every index of them below PALLEN with its palette entry written. It ends DONE with UCNT = SPOS advance = n
bytes, and every pixel is the palette entry its index names: the low nibble the left pixel of IDX4 (log 6;
that no register needs to have been written is log 2). -/
def Obligations.WholeIndexedDecode : Prop :=
  ∀ (f : Fmt) (i : Instr) (s : State), (f = .idx4 ∧ i = .decIdx4) ∨ (f = .idx8 ∧ i = .decIdx8) →
    s.status ≠ .busy → HostWaits s → PaletteLengthLegal s →
    (f = .idx4 → s.width.toNat % 2 = 0) →
    let n := unitTotal s (.dec f)
    let index := fun (x : Byte) (q : Nat) =>
      if f = .idx4 then (if q % 2 = 0 then x.toNat % 16 else x.toNat / 16) else x.toNat
    let byteNo := fun (q : Nat) => if f = .idx4 then q / 2 else q
    s.spos.toNat + n ≤ s.slen.toNat →
    (∀ q : Nat, q < s.width.toNat * s.height.toNat → ∃ x, Memory.get s.stream (s.spos.toNat + byteNo q) = some x ∧
      index x q < s.pallen.toNat ∧ (Memory.get s.pal (index x q)).isSome) →
    ∃ t0 t, exec i s = .next t0 ∧ Host.Core.run Sys2Proof.core n t0 = .next t ∧
      t.status = .done ∧ t.err = .none ∧ t.ucnt.toNat = n ∧ t.spos.toNat = s.spos.toNat + n ∧
      t.stream = s.stream ∧ t.pal = s.pal ∧
      ∀ x y : Nat, x < s.width.toNat → y < s.height.toNat →
        ∃ v, Memory.get s.stream (s.spos.toNat + byteNo (y * s.width.toNat + x)) = some v ∧
          Memory.get t.image (imageKey x y) = Memory.get s.pal (index v (y * s.width.toNat + x))

/-! ### Unwritten items (10_state.md R38) -/

/-- 10 R38: "A model must not substitute 0." A stream byte that nothing has written stops the unit of DEC that
decodes it, an image pixel the unit of ENC that encodes it, a palette entry the unit of DEC.IDX4 or DEC.IDX8 that
looks it up and the PAL.DEFILT that permutes it; and a host read stops at each of them (log 3). -/
def Obligations.UnwrittenItemsRefused : Prop :=
  (∀ (f : Fmt) (s : State) (a : Nat), UnitDue s (.dec f) → HostWaits s → UnitFits s (.dec f) →
    s.spos.toNat ≤ a → a < s.spos.toNat + unitSize f → Memory.get s.stream a = none →
    step s = .refused .unwrittenStream) ∧
  (∀ (i : Instr) (b : BlockFmt) (s : State) (p : Nat),
    (i = .wireDxt1 .write ∧ b = .dxt1) ∨ (i = .wireDxt3 .write ∧ b = .dxt3) ∨
      (i = .wireDxt5 .write ∧ b = .dxt5) →
    UnitDue s (.enc b) → p < 16 → tileInside s.width.toNat s.height.toNat s.ucnt.toNat p = true →
    Memory.get s.image (imageKey (tileX s.width.toNat s.ucnt.toNat p)
      (tileY s.width.toNat s.ucnt.toNat p)) = none →
    exec i s = .refused .unwrittenImage) ∧
  (∀ (r l : BitVec 4) (s : State), UnitDue s (.dec .idx4) → UnitFits s (.dec .idx4) → PaletteLengthLegal s →
    Memory.get s.pal l.toNat = none ∨ Memory.get s.pal r.toNat = none →
    exec (.wireIdx4 r l) s = .refused .unwrittenPalette) ∧
  (∀ (i : Byte) (s : State), UnitDue s (.dec .idx8) → UnitFits s (.dec .idx8) → i.toNat < s.pallen.toNat →
    Memory.get s.pal i.toNat = none → exec (.wireIdx8 i) s = .refused .unwrittenPalette) ∧
  (∀ (fmt : Byte) (s : State) (i : Nat), s.status ≠ .busy → s.pallen.toNat = 256 →
    i < 256 → Memory.get s.pal i = none → exec (.palDefilt fmt) s = .refused .unwrittenPalette) ∧
  (∀ (s : State) (rest : List HostAction), s.status ≠ .busy → s.unread = false →
    (∀ a : Word, s.script = .rdStream a :: rest → Memory.get s.stream a.toNat = none →
      step s = .refused .unwrittenStream) ∧
    (∀ x y : Half, s.script = .rdImg x y :: rest → Memory.get s.image (imageKey x.toNat y.toNat) = none →
      step s = .refused .unwrittenImage) ∧
    (∀ i : Byte, s.script = .rdPal i :: rest → Memory.get s.pal i.toNat = none →
      step s = .refused .unwrittenPalette))
end

