-- ==== Sys2Proof/Laws/Bytes.lean ====
section
/-! SUPPORT. The byte-order helpers of the decoder and the encoder as arithmetic on naturals. -/

namespace Sys2Proof

/-- Appending bytes is positional arithmetic. -/
theorem toNat_append_byte {n : Nat} (x : BitVec n) (b : Byte) :
    (x ++ b).toNat = x.toNat * 256 + b.toNat := by
  rw [BitVec.toNat_append, ← Nat.shiftLeft_add_eq_or_of_lt b.isLt, Nat.shiftLeft_eq]

/-- `le16(b0, b1) = b0 + 256 * b1` (00 R11). -/
theorem toNat_le16 (b0 b1 : Byte) : (le16 b0 b1).toNat = b1.toNat * 256 + b0.toNat :=
  toNat_append_byte b1 b0

/-- The 48-bit index word from its six bytes (30 R99). -/
theorem toNat_decodeAlpha_q (b0 b1 b2 b3 b4 b5 b6 b7 : Byte) :
    (decodeAlpha b0 b1 b2 b3 b4 b5 b6 b7).q.toNat =
      ((((b2.toNat * 256 + b3.toNat) * 256 + b4.toNat) * 256 + b5.toNat) * 256 + b6.toNat) * 256 +
        b7.toNat := by
  have h : (decodeAlpha b0 b1 b2 b3 b4 b5 b6 b7).q.toNat =
      (b2 ++ b3 ++ b4 ++ b5 ++ b6 ++ b7).toNat := rfl
  rw [h]
  simp only [toNat_append_byte]

/-- Byte `j` of a value (its least significant byte is byte 0). -/
theorem toNat_byteOf {n : Nat} (v : BitVec n) (j : Nat) :
    (byteOf v j).toNat = v.toNat / 2 ^ (8 * j) % 256 := by
  simp [byteOf, BitVec.extractLsb'_toNat, Nat.shiftRight_eq_div_pow]

/-- A 16-bit value from its two bytes. -/
theorem le16_byteOf (v : Half) : le16 (byteOf v 0) (byteOf v 1) = v := by
  apply BitVec.eq_of_toNat_eq
  have := v.isLt
  rw [toNat_le16, toNat_byteOf, toNat_byteOf]
  omega

theorem byteOf_le16_0 (b0 b1 : Byte) : byteOf (le16 b0 b1) 0 = b0 := by
  apply BitVec.eq_of_toNat_eq
  have := b0.isLt
  have := b1.isLt
  rw [toNat_byteOf, toNat_le16]
  omega

theorem byteOf_le16_1 (b0 b1 : Byte) : byteOf (le16 b0 b1) 1 = b1 := by
  apply BitVec.eq_of_toNat_eq
  have := b0.isLt
  have := b1.isLt
  rw [toNat_byteOf, toNat_le16]
  omega

/-- The nibbles of a byte (30 R100). -/
theorem toNat_nibbleLow (b : Byte) : (b.extractLsb' 0 4).toNat = b.toNat % 16 := by
  simp [BitVec.extractLsb'_toNat]

theorem toNat_nibbleHigh (b : Byte) : (b.extractLsb' 4 4).toNat = b.toNat / 16 := by
  have := b.isLt
  simp [BitVec.extractLsb'_toNat, Nat.shiftRight_eq_div_pow]
  omega

theorem toNat_append_nibbles (r l : BitVec 4) : (r ++ l).toNat = r.toNat * 16 + l.toNat := by
  rw [BitVec.toNat_append, ← Nat.shiftLeft_add_eq_or_of_lt l.isLt, Nat.shiftLeft_eq]

end Sys2Proof
end

