-- ==== Sys2Proof/Laws/Memory.lean ====
section
/-! SUPPORT. The laws of a memory: what a read gives after a write, and that every operation keeps the
canonical form (addresses strictly rising). -/

namespace Sys2Proof.Machine

variable {α : Type}

@[simp] theorem Memory.get_nil (a : Nat) : Memory.get ([] : Memory α) a = none := rfl

theorem Memory.get_cons (k : Nat) (v : α) (m : Memory α) (a : Nat) :
    Memory.get ((k, v) :: m) a = if a = k then some v else Memory.get m a := rfl

/-- A read of the cell just written gives what was written. -/
@[simp] theorem Memory.get_set_same (m : Memory α) (a : Nat) (x : α) :
    Memory.get (Memory.set m a x) a = some x := by
  induction m with
  | nil => simp [Memory.set, Memory.get]
  | cons c m ih =>
    obtain ⟨k, v⟩ := c
    simp only [Memory.set]
    split
    · simp [Memory.get]
    · split
      · simp [Memory.get]
      · rename_i hne
        simp [Memory.get, hne, ih]

/-- A write leaves every other cell as it was. -/
theorem Memory.get_set_other (m : Memory α) (a b : Nat) (x : α) (h : b ≠ a) :
    Memory.get (Memory.set m a x) b = Memory.get m b := by
  induction m with
  | nil => simp [Memory.set, Memory.get, h]
  | cons c m ih =>
    obtain ⟨k, v⟩ := c
    simp only [Memory.set]
    split
    · simp [Memory.get, h]
    · split
      · rename_i hk
        subst hk
        simp [Memory.get, h]
      · simp only [Memory.get_cons, ih]

/-- Every address of a memory after a write is the written one or was there before. -/
theorem Memory.mem_set {m : Memory α} {a : Nat} {x : α} {c : Nat × α}
    (h : c ∈ Memory.set m a x) : c = (a, x) ∨ c ∈ m := by
  induction m with
  | nil => simpa [Memory.set] using h
  | cons d m ih =>
    obtain ⟨k, v⟩ := d
    simp only [Memory.set] at h
    split at h
    · simpa using h
    · split at h
      · rcases List.mem_cons.1 h with rfl | h
        · exact .inl rfl
        · exact .inr (List.mem_cons_of_mem _ h)
      · rcases List.mem_cons.1 h with rfl | h
        · exact .inr List.mem_cons_self
        · exact (ih h).imp id (List.mem_cons_of_mem _)

/-- A write keeps the canonical form. -/
theorem Memory.wf_set {m : Memory α} (h : Memory.wf m) (a : Nat) (x : α) :
    Memory.wf (Memory.set m a x) := by
  induction m with
  | nil => simp [Memory.set, Memory.wf]
  | cons c m ih =>
    obtain ⟨k, v⟩ := c
    obtain ⟨hk, hm⟩ := List.pairwise_cons.1 h
    simp only [Memory.set]
    split
    · rename_i hak
      refine List.pairwise_cons.2 ⟨fun c hc => ?_, h⟩
      rcases List.mem_cons.1 hc with rfl | hc
      · exact hak
      · exact Nat.lt_trans hak (hk c hc)
    · split
      · rename_i hak
        exact List.pairwise_cons.2 ⟨fun c hc => by simpa [hak] using hk c hc, hm⟩
      · rename_i h1 h2
        refine List.pairwise_cons.2 ⟨fun c hc => ?_, ih hm⟩
        rcases Memory.mem_set hc with rfl | hc
        · exact Nat.lt_of_le_of_ne (Nat.le_of_not_lt h1) (Ne.symm h2)
        · exact hk c hc

/-- A list of writes keeps the canonical form. -/
theorem Memory.wf_setMany {ws : List (Nat × α)} : ∀ {m : Memory α}, Memory.wf m →
    Memory.wf (Memory.setMany m ws) := by
  induction ws with
  | nil => intro m h; exact h
  | cons w ws ih => intro m h; exact ih (Memory.wf_set h _ _)

/-- Every cell of a memory after a list of writes is one of the writes or was there before. -/
theorem Memory.mem_setMany {ws : List (Nat × α)} {c : Nat × α} : ∀ {m : Memory α},
    c ∈ Memory.setMany m ws → c ∈ ws ∨ c ∈ m := by
  induction ws with
  | nil => intro m h; exact .inr h
  | cons w ws ih =>
    intro m h
    rcases ih h with h | h
    · exact .inl (List.mem_cons_of_mem _ h)
    · rcases Memory.mem_set h with rfl | h
      · exact .inl List.mem_cons_self
      · exact .inr h

/-- A cell that no write of the list names is unchanged. -/
theorem Memory.get_setMany_other {ws : List (Nat × α)} {a : Nat} : ∀ {m : Memory α},
    a ∉ ws.map Prod.fst → Memory.get (Memory.setMany m ws) a = Memory.get m a := by
  induction ws with
  | nil => intro m _; rfl
  | cons w ws ih =>
    intro m h
    simp only [List.map_cons, List.mem_cons, not_or] at h
    rw [Memory.setMany, ih h.2, Memory.get_set_other _ _ _ _ h.1]

/-- Where the writes name distinct cells, each written cell reads as its write. -/
theorem Memory.get_setMany_mem {ws : List (Nat × α)} {a : Nat} {x : α} : ∀ {m : Memory α},
    (ws.map Prod.fst).Nodup → (a, x) ∈ ws → Memory.get (Memory.setMany m ws) a = some x := by
  induction ws with
  | nil => intro m _ h; cases h
  | cons w ws ih =>
    intro m hn h
    rw [List.map_cons, List.nodup_cons] at hn
    rcases List.mem_cons.1 h with rfl | h
    · rw [Memory.setMany, Memory.get_setMany_other hn.1, Memory.get_set_same]
    · exact ih hn.2 h

/-- A memory's read of a listed cell in canonical form. -/
theorem Memory.mem_of_get {m : Memory α} {a : Nat} {x : α} (h : Memory.get m a = some x) :
    (a, x) ∈ m := by
  induction m with
  | nil => cases h
  | cons c m ih =>
    obtain ⟨k, v⟩ := c
    rw [Memory.get_cons] at h
    split at h
    · rename_i hk
      cases h; subst hk; exact List.mem_cons_self
    · exact List.mem_cons_of_mem _ (ih h)

/-! ### Reading several cells -/

theorem Memory.readAll_cons (m : Memory α) (a : Nat) (as : List Nat) (vs : List α) :
    Memory.readAll m (a :: as) = some vs ↔
      ∃ v ws, vs = v :: ws ∧ Memory.get m a = some v ∧ Memory.readAll m as = some ws := by
  simp only [Memory.readAll]
  cases Memory.get m a <;> cases Memory.readAll m as <;> simp [eq_comm]

/-- Reading several cells gives one value a cell. -/
theorem Memory.length_readAll {m : Memory α} {as : List Nat} {vs : List α}
    (h : Memory.readAll m as = some vs) : vs.length = as.length := by
  induction as generalizing vs with
  | nil => cases h; rfl
  | cons a as ih =>
    obtain ⟨v, ws, rfl, _, h⟩ := (Memory.readAll_cons ..).1 h
    simp [ih h]

/-- Each value read is the value of its cell. -/
theorem Memory.get_of_readAll {m : Memory α} {as : List Nat} {vs : List α}
    (h : Memory.readAll m as = some vs) (i : Nat) (hi : i < as.length) :
    Memory.get m as[i] = vs[i]? := by
  induction as generalizing vs i with
  | nil => cases hi
  | cons a as ih =>
    obtain ⟨v, ws, rfl, hv, h⟩ := (Memory.readAll_cons ..).1 h
    cases i with
    | zero => simpa using hv
    | succ i => simpa using ih h i (by simpa using hi)

/-- Where every cell holds a value, reading them succeeds. -/
theorem Memory.readAll_isSome {m : Memory α} {as : List Nat}
    (h : ∀ a ∈ as, (Memory.get m a).isSome) : ∃ vs, Memory.readAll m as = some vs := by
  induction as with
  | nil => exact ⟨[], rfl⟩
  | cons a as ih =>
    obtain ⟨ws, hw⟩ := ih (fun b hb => h b (List.mem_cons_of_mem _ hb))
    obtain ⟨v, hv⟩ := Option.isSome_iff_exists.1 (h a List.mem_cons_self)
    exact ⟨v :: ws, (Memory.readAll_cons ..).2 ⟨v, ws, rfl, hv, hw⟩⟩

/-- Reading several cells succeeds only where every one holds a value. -/
theorem Memory.isSome_of_readAll {m : Memory α} {as : List Nat} {vs : List α}
    (h : Memory.readAll m as = some vs) : ∀ a ∈ as, (Memory.get m a).isSome := by
  induction as generalizing vs with
  | nil => intro a ha; cases ha
  | cons b as ih =>
    obtain ⟨v, ws, rfl, hv, h⟩ := (Memory.readAll_cons ..).1 h
    intro a ha
    rcases List.mem_cons.1 ha with rfl | ha
    · simp [hv]
    · exact ih h a ha

/-- Every value read stands in the memory. -/
theorem Memory.mem_of_readAll {m : Memory α} {as : List Nat} {vs : List α}
    (h : Memory.readAll m as = some vs) {v : α} (hv : v ∈ vs) : ∃ a, (a, v) ∈ m := by
  induction as generalizing vs with
  | nil => cases h; cases hv
  | cons b as ih =>
    obtain ⟨w, ws, rfl, hw, h⟩ := (Memory.readAll_cons ..).1 h
    rcases List.mem_cons.1 hv with rfl | hv
    · exact ⟨b, Memory.mem_of_get hw⟩
    · exact ih h hv

/-! ### Cells at consecutive addresses, and cells of free values -/

/-- The addresses of consecutive cells. -/
@[simp] theorem map_fst_cellsAt (a : Nat) (xs : List α) :
    (cellsAt a xs).map Prod.fst = List.range' a xs.length := by
  induction xs generalizing a with
  | nil => rfl
  | cons x xs ih => simp [cellsAt, ih, List.range'_succ]

/-- Which consecutive cells there are. -/
theorem mem_cellsAt {a : Nat} {xs : List α} {c : Nat × α} :
    c ∈ cellsAt a xs ↔ ∃ i, xs[i]? = some c.2 ∧ c.1 = a + i := by
  induction xs generalizing a with
  | nil => simp [cellsAt]
  | cons x xs ih =>
    rw [cellsAt, List.mem_cons, ih]
    constructor
    · rintro (rfl | ⟨i, h, h'⟩)
      · exact ⟨0, by simp⟩
      · exact ⟨i + 1, by simpa using h, by omega⟩
    · rintro ⟨i, h, h'⟩
      cases i with
      | zero => left; simp at h h'; exact Prod.ext h' h.symm
      | succ i => right; exact ⟨i, by simpa using h, by omega⟩

/-- The addresses of consecutive cells are distinct. -/
theorem nodup_cellsAt (a : Nat) (xs : List α) : ((cellsAt a xs).map Prod.fst).Nodup := by
  rw [map_fst_cellsAt]; exact List.nodup_range'

/-- After writing `xs` at `a`, byte `i` of them is read back. -/
theorem Memory.get_setMany_cellsAt (m : Memory α) (a : Nat) (xs : List α) (i : Nat)
    (hi : i < xs.length) : Memory.get (Memory.setMany m (cellsAt a xs)) (a + i) = xs[i]? := by
  rw [List.getElem?_eq_getElem hi]
  exact Memory.get_setMany_mem (nodup_cellsAt a xs)
    (mem_cellsAt.2 ⟨i, List.getElem?_eq_getElem hi, rfl⟩)

/-- After writing `xs` at `a`, every other address reads as before. -/
theorem Memory.get_setMany_cellsAt_other (m : Memory α) (a : Nat) (xs : List α) (b : Nat)
    (h : b < a ∨ a + xs.length ≤ b) :
    Memory.get (Memory.setMany m (cellsAt a xs)) b = Memory.get m b := by
  refine Memory.get_setMany_other ?_
  rw [map_fst_cellsAt, List.mem_range'_1]
  omega

@[simp] theorem map_fst_freePixelCells (k : Nat) (as : List Nat) :
    (freePixelCells k as).map Prod.fst = as := by
  induction as generalizing k with
  | nil => rfl
  | cons a as ih => simp [freePixelCells, ih]

@[simp] theorem map_fst_freeByteCells (k : Nat) (as : List Nat) :
    (freeByteCells k as).map Prod.fst = as := by
  induction as generalizing k with
  | nil => rfl
  | cons a as ih => simp [freeByteCells, ih]

/-- Every cell of free pixels holds a free pixel. -/
theorem mem_freePixelCells {k : Nat} {as : List Nat} {c : Nat × Pixel}
    (h : c ∈ freePixelCells k as) : c.1 ∈ as ∧ ∃ j, c.2 = freePixel j := by
  induction as generalizing k with
  | nil => cases h
  | cons a as ih =>
    rcases List.mem_cons.1 h with rfl | h
    · exact ⟨List.mem_cons_self, k, rfl⟩
    · exact ⟨List.mem_cons_of_mem _ (ih h).1, (ih h).2⟩

end Sys2Proof.Machine
end

