-- ==== Sys2Proof/Laws/Geometry.lean ====
section
/-! SUPPORT. The geometry of units, tiles and pixels: which image cells a unit's slots are, and that they
are distinct. -/

namespace Sys2Proof.Machine

/-- Two pixels with columns below 2^16 share a cell only if they are the same. -/
theorem imageKey_inj {x y x' y' : Nat} (hx : x < 65536) (hx' : x' < 65536) :
    imageKey x y = imageKey x' y' ↔ x = x' ∧ y = y' := by
  unfold imageKey
  omega

/-- The cell of a pixel inside a 16-bit image is below 2^32. -/
theorem imageKey_lt {x y : Nat} (hx : x < 65536) (hy : y < 65536) : imageKey x y < 2 ^ 32 := by
  unfold imageKey
  omega

theorem tileInside_iff {W H u p : Nat} :
    tileInside W H u p = true ↔ tileX W u p < W ∧ tileY W u p < H := by
  simp [tileInside]

/-- The slot of a block unit for a pixel: the pixel lies in the unit's tile and inside the image, at the
tile position of its low coordinate bits (46 R292, R294). -/
theorem mem_unitSlots_block {b : BlockFmt} {W H u x y k : Nat} (hW : W ≤ 65535) (hx : x < 65536) :
    (imageKey x y, k) ∈ unitSlots (.block b) W H u ↔
      (x / 4 = u % ceil4 W ∧ y / 4 = u / ceil4 W ∧ x < W ∧ y < H) ∧ k = 4 * (y % 4) + x % 4 := by
  simp only [unitSlots, List.mem_map, List.mem_filter, List.mem_range, tileInside_iff, Prod.mk.injEq]
  constructor
  · rintro ⟨p, ⟨hp, hX, hY⟩, hk, rfl⟩
    obtain ⟨rfl, rfl⟩ := (imageKey_inj (by omega) hx).1 hk
    simp only [tileX, tileY] at *
    omega
  · rintro ⟨⟨h1, h2, h3, h4⟩, rfl⟩
    refine ⟨4 * (y % 4) + x % 4, ⟨by omega, ?_, ?_⟩, ?_, rfl⟩ <;> simp only [tileX, tileY]
    · omega
    · omega
    · rw [imageKey_inj (by omega) hx]
      omega

/-- Splitting a linear pixel number into its row and column. -/
theorem divMod_iff {W x y q : Nat} (hW : 0 < W) :
    (x = q % W ∧ y = q / W) ↔ x < W ∧ y * W + x = q := by
  constructor
  · rintro ⟨rfl, rfl⟩
    exact ⟨Nat.mod_lt _ hW, Nat.div_add_mod' q W⟩
  · rintro ⟨h, rfl⟩
    constructor
    · rw [Nat.mul_comm, Nat.mul_add_mod, Nat.mod_eq_of_lt h]
    · rw [Nat.mul_comm, Nat.mul_add_div hW, Nat.div_eq_of_lt h, Nat.add_zero]

/-- The slot of an IDX8 unit for a pixel (46 R304). -/
theorem mem_unitSlots_idx8 {W H u x y k : Nat} (h0 : 0 < W) (hW : W ≤ 65535) (hx : x < 65536) :
    (imageKey x y, k) ∈ unitSlots .idx8 W H u ↔ (x < W ∧ y * W + x = u) ∧ k = 0 := by
  have hm : u % W < W := Nat.mod_lt _ h0
  rw [← divMod_iff h0]
  simp only [unitSlots, List.mem_singleton, Prod.mk.injEq]
  rw [imageKey_inj hx (by omega)]

/-- The two slots of an IDX4 unit for a pixel (46 R303). -/
theorem mem_unitSlots_idx4 {W H u x y k : Nat} (h0 : 0 < W) (hW : W ≤ 65535) (hx : x < 65536) :
    (imageKey x y, k) ∈ unitSlots .idx4 W H u ↔
      (x < W ∧ y * W + x = 2 * u) ∧ k = 0 ∨ (x < W ∧ y * W + x = 2 * u + 1) ∧ k = 1 := by
  have hm : 2 * u % W < W := Nat.mod_lt _ h0
  have hm' : (2 * u + 1) % W < W := Nat.mod_lt _ h0
  rw [← divMod_iff h0, ← divMod_iff h0]
  simp only [unitSlots, List.mem_cons, List.mem_nil_iff, or_false, Prod.mk.injEq]
  rw [imageKey_inj hx (by omega), imageKey_inj hx (by omega)]

/-- The cells of one unit's slots are distinct. -/
theorem nodup_unitSlots {f : Fmt} {W H u : Nat} (hW : W ≤ 65535) (h0 : 0 < W) :
    ((unitSlots f W H u).map Prod.fst).Nodup := by
  cases f with
  | block b =>
    simp only [unitSlots, List.map_map]
    refine List.Nodup.map_on ?_ (List.nodup_range.filter _)
    intro p hp q hq h
    simp only [List.mem_filter, List.mem_range, tileInside_iff] at hp hq
    obtain ⟨h1, h2⟩ := (imageKey_inj (by omega) (by omega)).1 h
    simp only [tileX, tileY] at h1 h2
    omega
  | idx4 =>
    have hm : 2 * u % W < W := Nat.mod_lt _ h0
    have hm' : (2 * u + 1) % W < W := Nat.mod_lt _ h0
    simp only [unitSlots, List.map_cons, List.map_nil, List.nodup_cons, List.mem_singleton,
      List.not_mem_nil, not_false_iff, List.nodup_nil, and_true]
    rw [imageKey_inj (by omega) (by omega)]
    rintro ⟨h1, h2⟩
    have e1 := Nat.div_add_mod (2 * u) W
    have e2 := Nat.div_add_mod (2 * u + 1) W
    rw [← h1, ← h2] at e2
    omega
  | idx8 => simp [unitSlots]

/-- The cells of the units from `f0` to `n - 1` are the cells of their slots (60 R341). -/
theorem mem_unitCells {f : Fmt} {W H f0 n a : Nat} :
    a ∈ unitCells f W H f0 n ↔ ∃ u, f0 ≤ u ∧ u < n ∧ ∃ k, (a, k) ∈ unitSlots f W H u := by
  simp only [unitCells, List.mem_flatMap, List.mem_range'_1, List.mem_map, Prod.exists,
    exists_and_right, exists_eq_right]
  constructor
  · rintro ⟨u, hu, h⟩
    exact ⟨u, by omega, by omega, h⟩
  · rintro ⟨u, h1, h2, h⟩
    exact ⟨u, by omega, h⟩

/-- Every cell of a unit's slots lies below 2^32, where the image has fewer than 2^16 rows. -/
theorem unitSlots_lt {f : Fmt} {W H u a k : Nat} (hW : W ≤ 65535) (hH : H ≤ 65535)
    (hu : u < unitCount f W H) (h : (a, k) ∈ unitSlots f W H u) : a < 2 ^ 32 := by
  cases f with
  | block b =>
    simp only [unitSlots, List.mem_map, List.mem_filter, tileInside_iff, Prod.mk.injEq] at h
    obtain ⟨p, ⟨_, h1, h2⟩, rfl, _⟩ := h
    exact imageKey_lt (by omega) (by omega)
  | idx4 =>
    simp only [unitCount] at hu
    have hu' : 2 * u + 1 < W * H := by omega
    have h0 : 0 < W := by rcases Nat.eq_zero_or_pos W with rfl | h0 <;> omega
    have hm : 2 * u % W < W := Nat.mod_lt _ h0
    have hm' : (2 * u + 1) % W < W := Nat.mod_lt _ h0
    have hd : 2 * u / W < H := Nat.div_lt_of_lt_mul (by omega)
    have hd' : (2 * u + 1) / W < H := Nat.div_lt_of_lt_mul hu'
    simp only [unitSlots, List.mem_cons, List.mem_nil_iff, or_false, Prod.mk.injEq] at h
    rcases h with ⟨rfl, _⟩ | ⟨rfl, _⟩
    · exact imageKey_lt (by omega) (by omega)
    · exact imageKey_lt (by omega) (by omega)
  | idx8 =>
    simp only [unitCount] at hu
    have h0 : 0 < W := by rcases Nat.eq_zero_or_pos W with rfl | h0 <;> omega
    have hm : u % W < W := Nat.mod_lt _ h0
    have hd : u / W < H := Nat.div_lt_of_lt_mul hu
    simp only [unitSlots, List.mem_singleton, Prod.mk.injEq] at h
    obtain ⟨rfl, _⟩ := h
    exact imageKey_lt (by omega) (by omega)

/-! ### Writing and scrambling -/

/-- The cells a decoded unit writes are its slots' cells. -/
@[simp] theorem map_fst_scatterCells (slots : List (Nat × Nat)) (T : List Pixel) :
    (scatterCells slots T).map Prod.fst = slots.map Prod.fst := by
  simp [scatterCells]

/-- A slot of a decoded unit is read back as the unit's pixel for it. -/
theorem get_scatter_mem {m : Memory Pixel} {slots : List (Nat × Nat)} {T : List Pixel} {a k : Nat}
    (hn : (slots.map Prod.fst).Nodup) (h : (a, k) ∈ slots) :
    Memory.get (Memory.setMany m (scatterCells slots T)) a = some (T.getD k clearPixel) := by
  refine Memory.get_setMany_mem (by rwa [map_fst_scatterCells]) ?_
  exact List.mem_map.2 ⟨(a, k), h, rfl⟩

/-- A cell that is no slot of a decoded unit reads as before. -/
theorem get_scatter_other {m : Memory Pixel} {slots : List (Nat × Nat)} {T : List Pixel} {a : Nat}
    (h : ∀ k, (a, k) ∉ slots) :
    Memory.get (Memory.setMany m (scatterCells slots T)) a = Memory.get m a := by
  refine Memory.get_setMany_other ?_
  rw [map_fst_scatterCells, List.mem_map]
  rintro ⟨⟨b, k⟩, hk, rfl⟩
  exact h k hk

/-- After writes that name a cell, the cell holds the value of one of them. -/
theorem Memory.get_setMany_some {α : Type} {ws : List (Nat × α)} {a : Nat} : ∀ {m : Memory α},
    a ∈ ws.map Prod.fst → ∃ x, (a, x) ∈ ws ∧ Memory.get (Memory.setMany m ws) a = some x := by
  induction ws with
  | nil => intro m h; cases h
  | cons w ws ih =>
    intro m h
    by_cases ht : a ∈ ws.map Prod.fst
    · obtain ⟨x, hx, he⟩ := ih (m := Memory.set m w.1 w.2) ht
      exact ⟨x, List.mem_cons_of_mem _ hx, he⟩
    · have ha : a = w.1 := by simpa [ht] using h
      subst ha
      exact ⟨w.2, List.mem_cons_self, by rw [Memory.setMany, Memory.get_setMany_other ht, Memory.get_set_same]⟩

/-- A scrambled cell holds a free pixel; every other cell reads as before (60 R341 (a)). -/
theorem get_scrambleImage (cells : List Nat) (s : State) (a : Nat) :
    (a ∈ cells → ∃ j, Memory.get (scrambleImage cells s).image a = some (freePixel j)) ∧
    (a ∉ cells → Memory.get (scrambleImage cells s).image a = Memory.get s.image a) := by
  constructor
  · intro h
    obtain ⟨x, hx, he⟩ := Memory.get_setMany_some (m := s.image) (ws := freePixelCells s.draws cells)
      (a := a) (by simpa using h)
    obtain ⟨_, j, rfl⟩ := mem_freePixelCells hx
    exact ⟨j, he⟩
  · intro h
    exact Memory.get_setMany_other (by simpa using h)

/-- A byte that is not scrambled reads as before (60 R341 (b)). -/
theorem get_scrambleStream_other {cells : List Nat} {s : State} {a : Nat} (h : a ∉ cells) :
    Memory.get (scrambleStream cells s).stream a = Memory.get s.stream a :=
  Memory.get_setMany_other (by simpa using h)

/-! ### Free pixels are pixels -/

/-- A free sample lies in [0, 1] (00 R8). -/
theorem freeSample_inRange (k : Nat) : 0 ≤ freeSample k ∧ freeSample k ≤ 1 := by
  unfold freeSample
  dsimp only
  split
  · norm_num
  · rename_i h
    have hp : (0 : Rat) < (((Config.freePair k).1 + (Config.freePair k).2 : Nat) : Rat) := by
      exact_mod_cast Nat.pos_of_ne_zero h
    refine ⟨by positivity, ?_⟩
    rw [div_le_one hp]
    exact_mod_cast Nat.le_add_right _ _

/-- A pixel is in range when its four samples are. -/
theorem inRange_iff (p : Pixel) : p.inRange = true ↔
    (0 ≤ p.r ∧ p.r ≤ 1) ∧ (0 ≤ p.g ∧ p.g ≤ 1) ∧ (0 ≤ p.b ∧ p.b ≤ 1) ∧ (0 ≤ p.a ∧ p.a ≤ 1) := by
  simp [Pixel.inRange, and_assoc]

/-- A free pixel has its samples in [0, 1]. -/
theorem freePixel_inRange (k : Nat) : (freePixel k).inRange = true :=
  (inRange_iff _).2 ⟨freeSample_inRange _, freeSample_inRange _, freeSample_inRange _, freeSample_inRange _⟩

end Sys2Proof.Machine
end

