-- ==== Sys2Proof/Laws/Numbers.lean ====
section
/-! SUPPORT. The numeric helpers: rounding, clamping, interpolation, the nearest-entry scan, and the
ascending list of a set. -/

namespace Sys2Proof.Machine

/-! ### Rounding, clamping, interpolation -/

/-- `rnd x = n` exactly on [n - 1/2, n + 1/2), for `x` not below -1/2. -/
theorem rnd_eq_iff {x : Rat} {n : Nat} (h : 0 ≤ x + 1 / 2) :
    rnd x = n ↔ (n : Rat) ≤ x + 1 / 2 ∧ x + 1 / 2 < n + 1 := by
  have h0 : (0 : Int) ≤ (x + 1 / 2).floor := Rat.le_floor_iff.2 (by simpa using h)
  have e : rnd x = n ↔ (x + 1 / 2).floor = (n : Int) := by
    unfold rnd
    omega
  rw [e]
  exact (Int.floor_eq_iff (a := x + 1 / 2) (z := (n : Int))).trans (by simp)

/-- Rounding is monotone. -/
theorem rnd_mono {x y : Rat} (h : x ≤ y) : rnd x ≤ rnd y := by
  unfold rnd
  have : (x + 1 / 2).floor ≤ (y + 1 / 2).floor :=
    Int.floor_mono (R := Rat) (by linarith)
  omega

/-- A natural number rounds to itself. -/
@[simp] theorem rnd_natCast (n : Nat) : rnd (n : Rat) = n := by
  have hn : (0 : Rat) ≤ n := Nat.cast_nonneg n
  rw [rnd_eq_iff (by linarith)]
  constructor <;> linarith

/-- Rounding does not pass a natural upper bound. -/
theorem rnd_le {x : Rat} {n : Nat} (h : x ≤ n) : rnd x ≤ n := by
  simpa using rnd_mono h

/-- Rounding does not pass a natural lower bound. -/
theorem le_rnd {x : Rat} {n : Nat} (h : (n : Rat) ≤ x) : n ≤ rnd x := by
  simpa using rnd_mono h

/-- `rnd` is within one half of its argument. -/
theorem rnd_bounds {x : Rat} (h : 0 ≤ x) : x - 1 / 2 < rnd x ∧ (rnd x : Rat) ≤ x + 1 / 2 := by
  have := (rnd_eq_iff (x := x) (n := rnd x) (by linarith)).1 rfl
  constructor <;> linarith [this.1, this.2]

theorem clamp_bounds {x lo hi : Rat} (h : lo ≤ hi) : lo ≤ clamp x lo hi ∧ clamp x lo hi ≤ hi := by
  unfold clamp
  split
  · exact ⟨le_refl _, h⟩
  · split
    · exact ⟨h, le_refl _⟩
    · exact ⟨not_lt.1 ‹_›, not_lt.1 ‹_›⟩

theorem clamp_mono {x y lo hi : Rat} (h : lo ≤ hi) (hxy : x ≤ y) : clamp x lo hi ≤ clamp y lo hi := by
  unfold clamp
  split_ifs <;> linarith

/-- Interpolation between two samples stays in [0, 1]. -/
theorem lerp_inRange {a b t : Rat} (ha : 0 ≤ a ∧ a ≤ 1) (hb : 0 ≤ b ∧ b ≤ 1) (ht : 0 ≤ t ∧ t ≤ 1) :
    0 ≤ lerp a b t ∧ lerp a b t ≤ 1 := by
  obtain ⟨ha0, ha1⟩ := ha
  obtain ⟨hb0, hb1⟩ := hb
  obtain ⟨ht0, ht1⟩ := ht
  have e : lerp a b t = (1 - t) * a + t * b := by unfold lerp; ring
  rw [e]
  constructor
  · have := mul_nonneg (sub_nonneg.2 ht1) ha0
    have := mul_nonneg ht0 hb0
    linarith
  · have := mul_nonneg (sub_nonneg.2 ht1) (sub_nonneg.2 ha1)
    have := mul_nonneg ht0 (sub_nonneg.2 hb1)
    nlinarith

theorem absRat_eq (x : Rat) : absRat x = |x| := by
  unfold absRat
  split
  · exact (abs_of_neg ‹_›).symm
  · exact (abs_of_nonneg (not_lt.1 ‹_›)).symm

/-! ### The nearest entry -/

/-- The scan's answer is the first index, of the best so far and the ones to come, with the least
distance. -/
theorem nearestFrom_spec (ds : List Rat) : ∀ (best : Nat) (bestD : Rat) (i : Nat), best < i →
    let r := nearestFrom best bestD i ds
    let d := fun j => if j = best then bestD else ds.getD (j - i) 0
    (r = best ∨ (i ≤ r ∧ r < i + ds.length)) ∧ d r ≤ bestD ∧
    (∀ k < ds.length, d r ≤ ds.getD k 0 ∧ (i + k < r → d r < ds.getD k 0)) ∧
    (r ≠ best → d r < bestD) := by
  induction ds with
  | nil => intro best bestD i h; simp [nearestFrom]
  | cons x ds ih =>
    intro best bestD i h
    simp only [nearestFrom]
    split
    · rename_i hx
      obtain ⟨h1, h2, h3, h4⟩ := ih i x (i + 1) (Nat.lt_succ_self i)
      generalize hr : nearestFrom i x (i + 1) ds = r at h1 h2 h3 h4
      have hne : r ≠ best := by omega
      have hd : ∀ (P : Rat → Prop), P (if r = i then x else ds.getD (r - (i + 1)) 0) →
          P (if r = best then bestD else (x :: ds).getD (r - i) 0) := by
        intro P hP
        rw [if_neg hne]
        by_cases hri : r = i
        · rw [if_pos hri] at hP
          simpa [hri] using hP
        · rw [if_neg hri] at hP
          obtain ⟨k, hk⟩ : ∃ k, r - i = k + 1 := ⟨r - i - 1, by omega⟩
          have hk' : r - (i + 1) = k := by omega
          rw [hk'] at hP
          rw [hk, List.getD_cons_succ]
          exact hP
      refine ⟨.inr ?_, ?_, ?_, ?_⟩
      · simp only [List.length_cons]; omega
      · exact hd (· ≤ bestD) (le_trans h2 hx.le)
      · intro k hk
        cases k with
        | zero =>
          refine ⟨by simpa using hd (· ≤ x) h2, fun hlt => ?_⟩
          simpa using hd (· < x) (h4 (by omega))
        | succ k =>
          obtain ⟨h5, h6⟩ := h3 k (by simpa using hk)
          rw [List.getD_cons_succ]
          exact ⟨hd (· ≤ ds.getD k 0) h5, fun hlt => hd (· < ds.getD k 0) (h6 (by omega))⟩
      · exact fun _ => hd (· < bestD) (lt_of_le_of_lt h2 hx)
    · rename_i hx
      obtain ⟨h1, h2, h3, h4⟩ := ih best bestD (i + 1) (by omega)
      generalize hr : nearestFrom best bestD (i + 1) ds = r at h1 h2 h3 h4
      have hd : ∀ (P : Rat → Prop), P (if r = best then bestD else ds.getD (r - (i + 1)) 0) →
          P (if r = best then bestD else (x :: ds).getD (r - i) 0) := by
        intro P hP
        by_cases hrb : r = best
        · rw [if_pos hrb] at hP ⊢
          exact hP
        · rw [if_neg hrb] at hP ⊢
          obtain ⟨k, hk⟩ : ∃ k, r - i = k + 1 := ⟨r - i - 1, by omega⟩
          have hk' : r - (i + 1) = k := by omega
          rw [hk'] at hP
          rw [hk, List.getD_cons_succ]
          exact hP
      refine ⟨?_, hd (· ≤ bestD) h2, ?_, fun hne => hd (· < bestD) (h4 hne)⟩
      · simp only [List.length_cons]; omega
      · intro k hk
        cases k with
        | zero =>
          have hx' : bestD ≤ x := not_lt.1 hx
          refine ⟨by simpa using hd (· ≤ x) (le_trans h2 hx'), fun hlt => ?_⟩
          simpa using hd (· < x) (lt_of_lt_of_le (h4 (by omega)) hx')
        | succ k =>
          obtain ⟨h5, h6⟩ := h3 k (by simpa using hk)
          rw [List.getD_cons_succ]
          exact ⟨hd (· ≤ ds.getD k 0) h5, fun hlt => hd (· < ds.getD k 0) (h6 (by omega))⟩

/-- `nearest` answers the first index with the least distance (parameter TIE). -/
theorem nearest_spec {ds : List Rat} (h : ds ≠ []) :
    nearest ds < ds.length ∧
    ∀ j < ds.length, ds.getD (nearest ds) 0 ≤ ds.getD j 0 ∧
      (j < nearest ds → ds.getD (nearest ds) 0 < ds.getD j 0) := by
  cases ds with
  | nil => exact absurd rfl h
  | cons x ds =>
    obtain ⟨h1, h2, h3, h4⟩ := nearestFrom_spec ds 0 x 1 Nat.one_pos
    have hr : nearest (x :: ds) = nearestFrom 0 x 1 ds := rfl
    rw [hr]
    generalize nearestFrom 0 x 1 ds = r at h1 h2 h3 h4
    have hd : (if r = 0 then x else ds.getD (r - 1) 0) = (x :: ds).getD r 0 := by
      cases r <;> simp
    simp only [hd] at h2 h3 h4
    refine ⟨by simp only [List.length_cons]; omega, fun j hj => ?_⟩
    cases j with
    | zero => exact ⟨by simpa using h2, fun hlt => by simpa using h4 (by omega)⟩
    | succ k =>
      obtain ⟨h5, h6⟩ := h3 k (by simpa using hj)
      rw [List.getD_cons_succ]
      exact ⟨h5, fun hlt => h6 (by omega)⟩

/-! ### The ascending list of a set -/

theorem mem_insertDistinct {x y : Nat} {ys : List Nat} :
    y ∈ insertDistinct x ys ↔ y = x ∨ y ∈ ys := by
  induction ys with
  | nil => simp [insertDistinct]
  | cons z zs ih =>
    simp only [insertDistinct]
    split
    · simp
    · split
      · rename_i h; subst h; simp
      · simp only [List.mem_cons, ih]; tauto

/-- The members of the ascending list are the members of the set. -/
@[simp] theorem mem_ascending {y : Nat} {xs : List Nat} : y ∈ ascending xs ↔ y ∈ xs := by
  induction xs with
  | nil => simp [ascending]
  | cons x xs ih => simp [ascending, mem_insertDistinct, ih]

theorem sorted_insertDistinct {x : Nat} {ys : List Nat} (h : ys.Pairwise (· < ·)) :
    (insertDistinct x ys).Pairwise (· < ·) := by
  induction ys with
  | nil => simp [insertDistinct]
  | cons z zs ih =>
    obtain ⟨hz, hzs⟩ := List.pairwise_cons.1 h
    simp only [insertDistinct]
    split
    · rename_i hx
      refine List.pairwise_cons.2 ⟨fun w hw => ?_, h⟩
      rcases List.mem_cons.1 hw with rfl | hw
      · exact hx
      · exact Nat.lt_trans hx (hz w hw)
    · split
      · exact h
      · refine List.pairwise_cons.2 ⟨fun w hw => ?_, ih hzs⟩
        rcases mem_insertDistinct.1 hw with rfl | hw
        · omega
        · exact hz w hw

/-- The list is strictly ascending. -/
theorem sorted_ascending (xs : List Nat) : (ascending xs).Pairwise (· < ·) := by
  induction xs with
  | nil => simp [ascending]
  | cons x xs ih => exact sorted_insertDistinct ih

/-- The selector's ascending list depends on the set of values alone (44 R241, R243). -/
theorem ascending_congr {V U : List Nat} (h : ∀ v, v ∈ V ↔ v ∈ U) : ascending V = ascending U :=
  (sorted_ascending V).eq_of_mem_iff (sorted_ascending U) (by simpa using h)

/-- SELECT is a function of a set: order and repetition of the values do not matter (44 R240, R243). -/
theorem select_congr {V U : List Nat} (h : ∀ v, v ∈ V ↔ v ∈ U) (max : Nat) (d : Nat × Nat) :
    select V max d = select U max d := by
  unfold select; rw [ascending_congr h]

end Sys2Proof.Machine
end

