-- ==== Sys2Proof/Laws/State.lean ====
section
/-! SUPPORT. What each named update of the state does to each field: one lemma per field per update, true
by rfl. -/

namespace Sys2Proof.Machine

/-! ### beginCommand -/

@[simp] theorem beginCommand_fmt (s : State) :
    (beginCommand s).fmt = s.fmt := rfl
@[simp] theorem beginCommand_width (s : State) :
    (beginCommand s).width = s.width := rfl
@[simp] theorem beginCommand_height (s : State) :
    (beginCommand s).height = s.height := rfl
@[simp] theorem beginCommand_levels (s : State) :
    (beginCommand s).levels = s.levels := rfl
@[simp] theorem beginCommand_spos (s : State) :
    (beginCommand s).spos = s.spos := rfl
@[simp] theorem beginCommand_slen (s : State) :
    (beginCommand s).slen = s.slen := rfl
@[simp] theorem beginCommand_pallen (s : State) :
    (beginCommand s).pallen = s.pallen := rfl
@[simp] theorem beginCommand_written (s : State) :
    (beginCommand s).written = s.written := rfl
@[simp] theorem beginCommand_status (s : State) :
    (beginCommand s).status = .busy := rfl
@[simp] theorem beginCommand_err (s : State) :
    (beginCommand s).err = .none := rfl
@[simp] theorem beginCommand_ucnt (s : State) :
    (beginCommand s).ucnt = 0 := rfl
@[simp] theorem beginCommand_pal (s : State) :
    (beginCommand s).pal = s.pal := rfl
@[simp] theorem beginCommand_stream (s : State) :
    (beginCommand s).stream = s.stream := rfl
@[simp] theorem beginCommand_image (s : State) :
    (beginCommand s).image = s.image := rfl
@[simp] theorem beginCommand_running (s : State) :
    (beginCommand s).running = none := rfl
@[simp] theorem beginCommand_unread (s : State) :
    (beginCommand s).unread = s.unread := rfl
@[simp] theorem beginCommand_script (s : State) :
    (beginCommand s).script = s.script := rfl
@[simp] theorem beginCommand_port (s : State) :
    (beginCommand s).port = s.port := rfl
@[simp] theorem beginCommand_draws (s : State) :
    (beginCommand s).draws = s.draws := rfl

/-! ### finishCommand -/

@[simp] theorem finishCommand_fmt (s : State) :
    (finishCommand s).fmt = s.fmt := rfl
@[simp] theorem finishCommand_width (s : State) :
    (finishCommand s).width = s.width := rfl
@[simp] theorem finishCommand_height (s : State) :
    (finishCommand s).height = s.height := rfl
@[simp] theorem finishCommand_levels (s : State) :
    (finishCommand s).levels = s.levels := rfl
@[simp] theorem finishCommand_spos (s : State) :
    (finishCommand s).spos = s.spos := rfl
@[simp] theorem finishCommand_slen (s : State) :
    (finishCommand s).slen = s.slen := rfl
@[simp] theorem finishCommand_pallen (s : State) :
    (finishCommand s).pallen = s.pallen := rfl
@[simp] theorem finishCommand_written (s : State) :
    (finishCommand s).written = s.written := rfl
@[simp] theorem finishCommand_status (s : State) :
    (finishCommand s).status = .done := rfl
@[simp] theorem finishCommand_err (s : State) :
    (finishCommand s).err = s.err := rfl
@[simp] theorem finishCommand_ucnt (s : State) :
    (finishCommand s).ucnt = s.ucnt := rfl
@[simp] theorem finishCommand_pal (s : State) :
    (finishCommand s).pal = s.pal := rfl
@[simp] theorem finishCommand_stream (s : State) :
    (finishCommand s).stream = s.stream := rfl
@[simp] theorem finishCommand_image (s : State) :
    (finishCommand s).image = s.image := rfl
@[simp] theorem finishCommand_running (s : State) :
    (finishCommand s).running = none := rfl
@[simp] theorem finishCommand_unread (s : State) :
    (finishCommand s).unread = s.unread := rfl
@[simp] theorem finishCommand_script (s : State) :
    (finishCommand s).script = s.script := rfl
@[simp] theorem finishCommand_port (s : State) :
    (finishCommand s).port = s.port := rfl
@[simp] theorem finishCommand_draws (s : State) :
    (finishCommand s).draws = s.draws := rfl

/-! ### raiseError -/

@[simp] theorem raiseError_fmt (e : ErrCode) (s : State) :
    (raiseError e s).fmt = s.fmt := rfl
@[simp] theorem raiseError_width (e : ErrCode) (s : State) :
    (raiseError e s).width = s.width := rfl
@[simp] theorem raiseError_height (e : ErrCode) (s : State) :
    (raiseError e s).height = s.height := rfl
@[simp] theorem raiseError_levels (e : ErrCode) (s : State) :
    (raiseError e s).levels = s.levels := rfl
@[simp] theorem raiseError_spos (e : ErrCode) (s : State) :
    (raiseError e s).spos = Config.freeSpos s.draws := rfl
@[simp] theorem raiseError_slen (e : ErrCode) (s : State) :
    (raiseError e s).slen = s.slen := rfl
@[simp] theorem raiseError_pallen (e : ErrCode) (s : State) :
    (raiseError e s).pallen = s.pallen := rfl
@[simp] theorem raiseError_written (e : ErrCode) (s : State) :
    (raiseError e s).written = { s.written with spos := true } := rfl
@[simp] theorem raiseError_status (e : ErrCode) (s : State) :
    (raiseError e s).status = .error := rfl
@[simp] theorem raiseError_err (e : ErrCode) (s : State) :
    (raiseError e s).err = e := rfl
@[simp] theorem raiseError_ucnt (e : ErrCode) (s : State) :
    (raiseError e s).ucnt = s.ucnt := rfl
@[simp] theorem raiseError_pal (e : ErrCode) (s : State) :
    (raiseError e s).pal = s.pal := rfl
@[simp] theorem raiseError_stream (e : ErrCode) (s : State) :
    (raiseError e s).stream = s.stream := rfl
@[simp] theorem raiseError_image (e : ErrCode) (s : State) :
    (raiseError e s).image = s.image := rfl
@[simp] theorem raiseError_running (e : ErrCode) (s : State) :
    (raiseError e s).running = none := rfl
@[simp] theorem raiseError_unread (e : ErrCode) (s : State) :
    (raiseError e s).unread = s.unread := rfl
@[simp] theorem raiseError_script (e : ErrCode) (s : State) :
    (raiseError e s).script = s.script := rfl
@[simp] theorem raiseError_port (e : ErrCode) (s : State) :
    (raiseError e s).port = s.port := rfl
@[simp] theorem raiseError_draws (e : ErrCode) (s : State) :
    (raiseError e s).draws = s.draws + 1 := rfl

/-! ### scrambleImage -/

@[simp] theorem scrambleImage_fmt (cells : List Nat) (s : State) :
    (scrambleImage cells s).fmt = s.fmt := rfl
@[simp] theorem scrambleImage_width (cells : List Nat) (s : State) :
    (scrambleImage cells s).width = s.width := rfl
@[simp] theorem scrambleImage_height (cells : List Nat) (s : State) :
    (scrambleImage cells s).height = s.height := rfl
@[simp] theorem scrambleImage_levels (cells : List Nat) (s : State) :
    (scrambleImage cells s).levels = s.levels := rfl
@[simp] theorem scrambleImage_spos (cells : List Nat) (s : State) :
    (scrambleImage cells s).spos = s.spos := rfl
@[simp] theorem scrambleImage_slen (cells : List Nat) (s : State) :
    (scrambleImage cells s).slen = s.slen := rfl
@[simp] theorem scrambleImage_pallen (cells : List Nat) (s : State) :
    (scrambleImage cells s).pallen = s.pallen := rfl
@[simp] theorem scrambleImage_written (cells : List Nat) (s : State) :
    (scrambleImage cells s).written = s.written := rfl
@[simp] theorem scrambleImage_status (cells : List Nat) (s : State) :
    (scrambleImage cells s).status = s.status := rfl
@[simp] theorem scrambleImage_err (cells : List Nat) (s : State) :
    (scrambleImage cells s).err = s.err := rfl
@[simp] theorem scrambleImage_ucnt (cells : List Nat) (s : State) :
    (scrambleImage cells s).ucnt = s.ucnt := rfl
@[simp] theorem scrambleImage_pal (cells : List Nat) (s : State) :
    (scrambleImage cells s).pal = s.pal := rfl
@[simp] theorem scrambleImage_stream (cells : List Nat) (s : State) :
    (scrambleImage cells s).stream = s.stream := rfl
@[simp] theorem scrambleImage_image (cells : List Nat) (s : State) :
    (scrambleImage cells s).image = Memory.setMany s.image (freePixelCells s.draws cells) := rfl
@[simp] theorem scrambleImage_running (cells : List Nat) (s : State) :
    (scrambleImage cells s).running = s.running := rfl
@[simp] theorem scrambleImage_unread (cells : List Nat) (s : State) :
    (scrambleImage cells s).unread = s.unread := rfl
@[simp] theorem scrambleImage_script (cells : List Nat) (s : State) :
    (scrambleImage cells s).script = s.script := rfl
@[simp] theorem scrambleImage_port (cells : List Nat) (s : State) :
    (scrambleImage cells s).port = s.port := rfl
@[simp] theorem scrambleImage_draws (cells : List Nat) (s : State) :
    (scrambleImage cells s).draws = s.draws + cells.length := rfl

/-! ### scrambleStream -/

@[simp] theorem scrambleStream_fmt (cells : List Nat) (s : State) :
    (scrambleStream cells s).fmt = s.fmt := rfl
@[simp] theorem scrambleStream_width (cells : List Nat) (s : State) :
    (scrambleStream cells s).width = s.width := rfl
@[simp] theorem scrambleStream_height (cells : List Nat) (s : State) :
    (scrambleStream cells s).height = s.height := rfl
@[simp] theorem scrambleStream_levels (cells : List Nat) (s : State) :
    (scrambleStream cells s).levels = s.levels := rfl
@[simp] theorem scrambleStream_spos (cells : List Nat) (s : State) :
    (scrambleStream cells s).spos = s.spos := rfl
@[simp] theorem scrambleStream_slen (cells : List Nat) (s : State) :
    (scrambleStream cells s).slen = s.slen := rfl
@[simp] theorem scrambleStream_pallen (cells : List Nat) (s : State) :
    (scrambleStream cells s).pallen = s.pallen := rfl
@[simp] theorem scrambleStream_written (cells : List Nat) (s : State) :
    (scrambleStream cells s).written = s.written := rfl
@[simp] theorem scrambleStream_status (cells : List Nat) (s : State) :
    (scrambleStream cells s).status = s.status := rfl
@[simp] theorem scrambleStream_err (cells : List Nat) (s : State) :
    (scrambleStream cells s).err = s.err := rfl
@[simp] theorem scrambleStream_ucnt (cells : List Nat) (s : State) :
    (scrambleStream cells s).ucnt = s.ucnt := rfl
@[simp] theorem scrambleStream_pal (cells : List Nat) (s : State) :
    (scrambleStream cells s).pal = s.pal := rfl
@[simp] theorem scrambleStream_stream (cells : List Nat) (s : State) :
    (scrambleStream cells s).stream = Memory.setMany s.stream (freeByteCells s.draws cells) := rfl
@[simp] theorem scrambleStream_image (cells : List Nat) (s : State) :
    (scrambleStream cells s).image = s.image := rfl
@[simp] theorem scrambleStream_running (cells : List Nat) (s : State) :
    (scrambleStream cells s).running = s.running := rfl
@[simp] theorem scrambleStream_unread (cells : List Nat) (s : State) :
    (scrambleStream cells s).unread = s.unread := rfl
@[simp] theorem scrambleStream_script (cells : List Nat) (s : State) :
    (scrambleStream cells s).script = s.script := rfl
@[simp] theorem scrambleStream_port (cells : List Nat) (s : State) :
    (scrambleStream cells s).port = s.port := rfl
@[simp] theorem scrambleStream_draws (cells : List Nat) (s : State) :
    (scrambleStream cells s).draws = s.draws + cells.length := rfl

/-! ### afterGather -/

@[simp] theorem afterGather_fmt (s : State) :
    (afterGather s).fmt = s.fmt := rfl
@[simp] theorem afterGather_width (s : State) :
    (afterGather s).width = s.width := rfl
@[simp] theorem afterGather_height (s : State) :
    (afterGather s).height = s.height := rfl
@[simp] theorem afterGather_levels (s : State) :
    (afterGather s).levels = s.levels := rfl
@[simp] theorem afterGather_spos (s : State) :
    (afterGather s).spos = s.spos := rfl
@[simp] theorem afterGather_slen (s : State) :
    (afterGather s).slen = s.slen := rfl
@[simp] theorem afterGather_pallen (s : State) :
    (afterGather s).pallen = s.pallen := rfl
@[simp] theorem afterGather_written (s : State) :
    (afterGather s).written = s.written := rfl
@[simp] theorem afterGather_status (s : State) :
    (afterGather s).status = s.status := rfl
@[simp] theorem afterGather_err (s : State) :
    (afterGather s).err = s.err := rfl
@[simp] theorem afterGather_ucnt (s : State) :
    (afterGather s).ucnt = s.ucnt := rfl
@[simp] theorem afterGather_pal (s : State) :
    (afterGather s).pal = s.pal := rfl
@[simp] theorem afterGather_stream (s : State) :
    (afterGather s).stream = s.stream := rfl
@[simp] theorem afterGather_image (s : State) :
    (afterGather s).image = s.image := rfl
@[simp] theorem afterGather_running (s : State) :
    (afterGather s).running = s.running := rfl
@[simp] theorem afterGather_unread (s : State) :
    (afterGather s).unread = s.unread := rfl
@[simp] theorem afterGather_script (s : State) :
    (afterGather s).script = s.script := rfl
@[simp] theorem afterGather_port (s : State) :
    (afterGather s).port = s.port := rfl
@[simp] theorem afterGather_draws (s : State) :
    (afterGather s).draws = s.draws + 16 := rfl

end Sys2Proof.Machine
end

