-- ==== Sys2Proof/Laws/Ops.lean ====
section
/-! SUPPORT. One lemma for each shared operation that says once everything it can do: a proof about a
command or a unit cites it and unfolds nothing. -/

namespace Sys2Proof.Machine

/-! ### The advance of the unit loop -/

/-- What the advance does to each register: SPOS and UCNT move, and with no unit left STATUS is DONE
(46 R293). -/
theorem advanceUnit_eq (c : Command) (s : State) :
    advanceUnit c s =
      { s with
        spos := s.spos + BitVec.ofNat 32 (unitSize (commandFmt c)),
        ucnt := s.ucnt + 1,
        status := if (s.ucnt + 1).toNat < unitTotal s c then s.status else .done,
        running := if (s.ucnt + 1).toNat < unitTotal s c then s.running else none } := by
  have h : ∀ x y, unitTotal { s with spos := x, ucnt := y } c = unitTotal s c := fun _ _ => rfl
  simp only [advanceUnit, h]
  split <;> simp [finishCommand]

@[simp] theorem advanceUnit_fmt (c : Command) (s : State) : (advanceUnit c s).fmt = s.fmt := by
  rw [advanceUnit_eq]
@[simp] theorem advanceUnit_width (c : Command) (s : State) : (advanceUnit c s).width = s.width := by
  rw [advanceUnit_eq]
@[simp] theorem advanceUnit_height (c : Command) (s : State) : (advanceUnit c s).height = s.height := by
  rw [advanceUnit_eq]
@[simp] theorem advanceUnit_levels (c : Command) (s : State) : (advanceUnit c s).levels = s.levels := by
  rw [advanceUnit_eq]
@[simp] theorem advanceUnit_spos (c : Command) (s : State) :
    (advanceUnit c s).spos = s.spos + BitVec.ofNat 32 (unitSize (commandFmt c)) := by
  rw [advanceUnit_eq]
@[simp] theorem advanceUnit_slen (c : Command) (s : State) : (advanceUnit c s).slen = s.slen := by
  rw [advanceUnit_eq]
@[simp] theorem advanceUnit_pallen (c : Command) (s : State) : (advanceUnit c s).pallen = s.pallen := by
  rw [advanceUnit_eq]
@[simp] theorem advanceUnit_written (c : Command) (s : State) : (advanceUnit c s).written = s.written := by
  rw [advanceUnit_eq]
@[simp] theorem advanceUnit_err (c : Command) (s : State) : (advanceUnit c s).err = s.err := by
  rw [advanceUnit_eq]
@[simp] theorem advanceUnit_ucnt (c : Command) (s : State) : (advanceUnit c s).ucnt = s.ucnt + 1 := by
  rw [advanceUnit_eq]
@[simp] theorem advanceUnit_pal (c : Command) (s : State) : (advanceUnit c s).pal = s.pal := by
  rw [advanceUnit_eq]
@[simp] theorem advanceUnit_stream (c : Command) (s : State) : (advanceUnit c s).stream = s.stream := by
  rw [advanceUnit_eq]
@[simp] theorem advanceUnit_image (c : Command) (s : State) : (advanceUnit c s).image = s.image := by
  rw [advanceUnit_eq]
@[simp] theorem advanceUnit_script (c : Command) (s : State) : (advanceUnit c s).script = s.script := by
  rw [advanceUnit_eq]
@[simp] theorem advanceUnit_port (c : Command) (s : State) : (advanceUnit c s).port = s.port := by
  rw [advanceUnit_eq]
@[simp] theorem advanceUnit_draws (c : Command) (s : State) : (advanceUnit c s).draws = s.draws := by
  rw [advanceUnit_eq]
@[simp] theorem advanceUnit_unread (c : Command) (s : State) : (advanceUnit c s).unread = s.unread := by
  rw [advanceUnit_eq]
theorem advanceUnit_status (c : Command) (s : State) : (advanceUnit c s).status =
    if (s.ucnt + 1).toNat < unitTotal s c then s.status else .done := by
  rw [advanceUnit_eq]
theorem advanceUnit_running (c : Command) (s : State) : (advanceUnit c s).running =
    if (s.ucnt + 1).toNat < unitTotal s c then s.running else none := by
  rw [advanceUnit_eq]

/-! ### The unit's condition -/

/-- A unit of `c` is ready exactly when `c` is running, STATUS is BUSY and a unit is left (46 R293). -/
theorem unitReady_iff (s : State) (c : Command) :
    unitReady s c = true ↔ s.status = .busy ∧ s.running = some c ∧ s.ucnt.toNat < unitTotal s c := by
  simp [unitReady, and_assoc]

theorem fitsStream_iff (s : State) (a n : Nat) : fitsStream s a n = true ↔ a + n ≤ s.slen.toNat := by
  simp [fitsStream]

theorem lt_pow_of_half (x : Half) : x.toNat < 65536 := x.isLt

/-- A unit count fits UCNT with room to spare (10 R30). -/
theorem unitTotal_lt (s : State) (c : Command) : unitTotal s c < 2 ^ 32 := by
  have hw := lt_pow_of_half s.width
  have hh := lt_pow_of_half s.height
  have h1 : s.width.toNat * s.height.toNat ≤ 65535 * 65535 := Nat.mul_le_mul (by omega) (by omega)
  have h2 : ceil4 s.width.toNat * ceil4 s.height.toNat ≤ 16384 * 16384 :=
    Nat.mul_le_mul (by unfold ceil4; omega) (by unfold ceil4; omega)
  unfold unitTotal unitCount
  cases commandFmt c <;> simp only <;> omega

/-- UCNT + 1 does not wrap while a unit is ready (10 R30). -/
theorem ucnt_succ (s : State) (c : Command) (h : s.ucnt.toNat < unitTotal s c) :
    (s.ucnt + 1).toNat = s.ucnt.toNat + 1 := by
  have := unitTotal_lt s c
  rw [BitVec.toNat_add]
  have h1 : (1 : Word).toNat = 1 := rfl
  rw [h1, Nat.mod_eq_of_lt (by omega)]

/-- SPOS + unit size does not wrap where the unit fits below SLEN (10 R25). -/
theorem spos_add (s : State) (n : Nat) (h : s.spos.toNat + n ≤ s.slen.toNat) :
    (s.spos + BitVec.ofNat 32 n).toNat = s.spos.toNat + n := by
  have := s.slen.isLt
  rw [BitVec.toNat_add, BitVec.toNat_ofNat, Nat.mod_eq_of_lt (a := n) (by omega),
    Nat.mod_eq_of_lt (by omega)]

theorem unitSize_pos (f : Fmt) : 0 < unitSize f := by
  rcases f with (_ | _ | _) | _ | _ <;> decide

/-! ### The error entry inside a unit -/

@[simp] theorem raiseInUnit_status (c : Command) (e : ErrCode) (s : State) :
    (raiseInUnit c e s).status = .error := rfl
@[simp] theorem raiseInUnit_err (c : Command) (e : ErrCode) (s : State) :
    (raiseInUnit c e s).err = e := rfl
@[simp] theorem raiseInUnit_running (c : Command) (e : ErrCode) (s : State) :
    (raiseInUnit c e s).running = none := rfl
@[simp] theorem raiseInUnit_ucnt (c : Command) (e : ErrCode) (s : State) :
    (raiseInUnit c e s).ucnt = s.ucnt := by cases c <;> rfl
@[simp] theorem raiseInUnit_fmt (c : Command) (e : ErrCode) (s : State) :
    (raiseInUnit c e s).fmt = s.fmt := by cases c <;> rfl
@[simp] theorem raiseInUnit_width (c : Command) (e : ErrCode) (s : State) :
    (raiseInUnit c e s).width = s.width := by cases c <;> rfl
@[simp] theorem raiseInUnit_height (c : Command) (e : ErrCode) (s : State) :
    (raiseInUnit c e s).height = s.height := by cases c <;> rfl
@[simp] theorem raiseInUnit_levels (c : Command) (e : ErrCode) (s : State) :
    (raiseInUnit c e s).levels = s.levels := by cases c <;> rfl
@[simp] theorem raiseInUnit_slen (c : Command) (e : ErrCode) (s : State) :
    (raiseInUnit c e s).slen = s.slen := by cases c <;> rfl
@[simp] theorem raiseInUnit_pallen (c : Command) (e : ErrCode) (s : State) :
    (raiseInUnit c e s).pallen = s.pallen := by cases c <;> rfl
@[simp] theorem raiseInUnit_written (c : Command) (e : ErrCode) (s : State) :
    (raiseInUnit c e s).written = { s.written with spos := true } := by cases c <;> rfl
@[simp] theorem raiseInUnit_pal (c : Command) (e : ErrCode) (s : State) :
    (raiseInUnit c e s).pal = s.pal := by cases c <;> rfl
@[simp] theorem raiseInUnit_script (c : Command) (e : ErrCode) (s : State) :
    (raiseInUnit c e s).script = s.script := by cases c <;> rfl
@[simp] theorem raiseInUnit_port (c : Command) (e : ErrCode) (s : State) :
    (raiseInUnit c e s).port = s.port := by cases c <;> rfl
@[simp] theorem raiseInUnit_unread (c : Command) (e : ErrCode) (s : State) :
    (raiseInUnit c e s).unread = s.unread := by cases c <;> rfl
/-- An error of a DEC leaves the stream as it was (60 R341 (a)). -/
@[simp] theorem raiseInUnit_dec_stream (f : Fmt) (e : ErrCode) (s : State) :
    (raiseInUnit (.dec f) e s).stream = s.stream := rfl
/-- An error of an ENC leaves the image as it was (60 R341 (b)). -/
@[simp] theorem raiseInUnit_enc_image (b : BlockFmt) (e : ErrCode) (s : State) :
    (raiseInUnit (.enc b) e s).image = s.image := rfl
/-- What an error of a DEC does to the image (60 R341 (a)). -/
theorem raiseInUnit_dec_image (f : Fmt) (e : ErrCode) (s : State) :
    (raiseInUnit (.dec f) e s).image = Memory.setMany s.image (freePixelCells s.draws
      (unitCells f s.width.toNat s.height.toNat s.ucnt.toNat (unitTotal s (.dec f)))) := rfl
/-- What an error of an ENC does to the stream (60 R341 (b)). -/
theorem raiseInUnit_enc_stream (b : BlockFmt) (e : ErrCode) (s : State) :
    (raiseInUnit (.enc b) e s).stream = Memory.setMany s.stream (freeByteCells s.draws
      (unspecifiedBytes (.enc b) s.spos.toNat s)) := rfl

/-! ### What a meaning can answer -/

theorem unlessBusy_eq (s : State) (k : Result) (h : s.status ≠ .busy) : unlessBusy s k = k := by
  simp [unlessBusy, h]

theorem unlessBusy_next {s t : State} {k : Result} (h : unlessBusy s k = .next t) :
    s.status ≠ .busy ∧ k = .next t := by
  unfold unlessBusy at h
  split at h
  · cases h
  · exact ⟨‹_›, h⟩

/-- The start of the unit loop always answers: DONE at once with no unit, or BUSY with the command in progress. -/
theorem startLoop_next {c : Command} {s t : State} (h : startLoop c s = .next t) :
    (unitTotal s c = 0 ∧ t = finishCommand (beginCommand s)) ∨
    (0 < unitTotal s c ∧ t = { beginCommand s with running := some c }) := by
  unfold startLoop at h
  split at h
  · cases h; exact .inl ⟨‹_›, rfl⟩
  · cases h; exact .inr ⟨by omega, rfl⟩

theorem paletteCheck_next {s t : State} {k : Result} (h : paletteCheck s k = .next t) :
    ((s.pallen.toNat = 16 ∨ s.pallen.toNat = 256) ∧ k = .next t) ∨
    (¬(s.pallen.toNat = 16 ∨ s.pallen.toNat = 256) ∧
      t = raiseError .invalidPaletteSize (beginCommand s)) := by
  unfold paletteCheck at h
  split at h
  · exact .inl ⟨‹_›, h⟩
  · cases h; exact .inr ⟨‹_›, rfl⟩

theorem evenWidthCheck_next {s t : State} {k : Result} (h : evenWidthCheck s k = .next t) :
    s.width.toNat % 2 = 0 ∧ k = .next t := by
  unfold evenWidthCheck at h
  split at h
  · exact ⟨‹_›, h⟩
  · cases h

/-- What PAL.DEFILT can answer. -/
theorem execPalDefilt_next {fmt : Byte} {s t : State} (h : execPalDefilt fmt s = .next t) :
    s.status ≠ .busy ∧
    ((s.pallen.toNat = 256 ∧ ∃ cells, defiltCells s.pal = some cells ∧
      t = finishCommand { beginCommand s with pal := Memory.setMany s.pal cells, ucnt := 1 }) ∨
     (s.pallen.toNat ≠ 256 ∧ t = raiseError .invalidPaletteSize (beginCommand s))) := by
  obtain ⟨hb, h⟩ := unlessBusy_next h
  refine ⟨hb, ?_⟩
  split at h
  · split at h
    · cases h; exact .inl ⟨‹_›, _, ‹_›, rfl⟩
    · cases h
  · cases h; exact .inr ⟨‹_›, rfl⟩

/-- What a decoded unit can answer. -/
theorem decUnit_next {f : Fmt} {T : List Pixel} {s t : State} (h : decUnit f T s = .next t) :
    unitReady s (.dec f) = true ∧
    ((s.spos.toNat + unitSize f ≤ s.slen.toNat ∧ t = putPixels f T s) ∨
     (s.slen.toNat < s.spos.toNat + unitSize f ∧ t = raiseInUnit (.dec f) .truncatedStream s)) := by
  unfold decUnit at h
  split at h
  · refine ⟨‹_›, ?_⟩
    split at h
    · cases h; exact .inl ⟨(fitsStream_iff ..).1 ‹_›, rfl⟩
    · rename_i hf
      cases h
      refine .inr ⟨?_, rfl⟩
      rw [fitsStream_iff] at hf
      omega
  · cases h

/-- What an indexed unit can answer. -/
theorem decIndices_next {f : Fmt} {is : List Nat} {s t : State} (h : decIndices f is s = .next t) :
    unitReady s (.dec f) = true ∧
    ((s.spos.toNat + unitSize f ≤ s.slen.toNat ∧
      ((∃ T, lookupIndices s is = .pixels T ∧ t = putPixels f T s) ∨
       (lookupIndices s is = .outOfRange ∧ t = raiseInUnit (.dec f) .paletteIndexOutOfRange s))) ∨
     (s.slen.toNat < s.spos.toNat + unitSize f ∧ t = raiseInUnit (.dec f) .truncatedStream s)) := by
  unfold decIndices at h
  split at h
  · refine ⟨‹_›, ?_⟩
    split at h
    · refine .inl ⟨(fitsStream_iff ..).1 ‹_›, ?_⟩
      split at h
      · cases h; exact .inl ⟨_, ‹_›, rfl⟩
      · cases h; exact .inr ⟨‹_›, rfl⟩
      · cases h
    · rename_i hf
      cases h
      refine .inr ⟨?_, rfl⟩
      rw [fitsStream_iff] at hf
      omega
  · cases h

/-- What an encoded unit can answer. -/
theorem encUnit_next {b : BlockFmt} {e : List Pixel → List Byte} {s t : State}
    (h : encUnit b e s = .next t) :
    unitReady s (.enc b) = true ∧ ∃ T, gatherTile s s.ucnt.toNat = some T ∧
    ((s.spos.toNat + unitSize (.block b) ≤ s.slen.toNat ∧ t = putBytes b (e T) (afterGather s)) ∨
     (s.slen.toNat < s.spos.toNat + unitSize (.block b) ∧
      t = raiseInUnit (.enc b) .truncatedStream (afterGather s))) := by
  unfold encUnit at h
  split at h
  · refine ⟨‹_›, ?_⟩
    split at h
    · cases h
    · refine ⟨_, ‹_›, ?_⟩
      split at h
      · cases h; exact .inl ⟨(fitsStream_iff ..).1 ‹_›, rfl⟩
      · rename_i hf
        cases h
        refine .inr ⟨?_, rfl⟩
        rw [fitsStream_iff] at hf
        omega
  · cases h

/-! ### What the instructions can do -/

/-- The command a starting instruction starts. -/
def startedCommand : Instr → Option Command
  | .decDxt1 => some (.dec (.block .dxt1))
  | .decDxt3 => some (.dec (.block .dxt3))
  | .decDxt5 => some (.dec (.block .dxt5))
  | .decIdx4 => some (.dec .idx4)
  | .decIdx8 => some (.dec .idx8)
  | .encDxt1 => some (.enc .dxt1)
  | .encDxt3 => some (.enc .dxt3)
  | .encDxt5 => some (.enc .dxt5)
  | .palDefilt _ | .illegalDec _ | .illegalEnc _ | .reserved _ => none
  | .wireDxt1 _ | .wireDxt3 _ | .wireDxt5 _ | .wireIdx4 _ _ | .wireIdx8 _ => none

/-- Everything an instruction can do when it answers a next state: start a command (or end it at once, or
raise an error of the start checks), permute the palette, decode a unit into the image, encode a unit into
the stream, or raise an error inside a unit. -/
inductive Effect (i : Instr) (s t : State) : Prop where
  | started (c : Command) (hc : startedCommand i = some c) (idle : s.status ≠ .busy)
      (pos : 0 < unitTotal s c)
      (pal : c = .dec .idx4 ∨ c = .dec .idx8 → s.pallen.toNat = 16 ∨ s.pallen.toNat = 256)
      (even : c = .dec .idx4 → s.width.toNat % 2 = 0)
      (eq : t = { beginCommand s with running := some c })
  | ended (c : Command) (hc : startedCommand i = some c) (idle : s.status ≠ .busy)
      (zero : unitTotal s c = 0) (eq : t = finishCommand (beginCommand s))
  | rejected (e : ErrCode) (he : e = .unsupportedFormat ∨ e = .invalidPaletteSize)
      (idle : s.status ≠ .busy) (eq : t = raiseError e (beginCommand s))
  | permuted (fmt : Byte) (cells : List (Nat × Pixel)) (hi : i = .palDefilt fmt)
      (idle : s.status ≠ .busy) (hc : defiltCells s.pal = some cells)
      (eq : t = finishCommand { beginCommand s with pal := Memory.setMany s.pal cells, ucnt := 1 })
  | decoded (f : Fmt) (T : List Pixel) (ready : unitReady s (.dec f) = true)
      (fits : s.spos.toNat + unitSize f ≤ s.slen.toNat)
      (src : (∃ k, T = decodeTileDxt1 k) ∨ (∃ k, T = decodeTileDxt3 k) ∨ (∃ k, T = decodeTileDxt5 k) ∨
        ∃ is, lookupIndices s is = .pixels T)
      (eq : t = putPixels f T s)
  | encoded (b : BlockFmt) (T : List Pixel) (bytes : List Byte) (ready : unitReady s (.enc b) = true)
      (got : gatherTile s s.ucnt.toNat = some T) (len : bytes.length = unitSize (.block b))
      (fits : s.spos.toNat + unitSize (.block b) ≤ s.slen.toNat)
      (eq : t = putBytes b bytes (afterGather s))
  | failedDec (f : Fmt) (e : ErrCode) (he : e = .truncatedStream ∨ e = .paletteIndexOutOfRange)
      (ready : unitReady s (.dec f) = true) (eq : t = raiseInUnit (.dec f) e s)
  | failedEnc (b : BlockFmt) (ready : unitReady s (.enc b) = true)
      (short : s.slen.toNat < s.spos.toNat + unitSize (.block b))
      (eq : t = raiseInUnit (.enc b) .truncatedStream (afterGather s))

theorem effect_of_startLoop {i : Instr} {c : Command} {s t : State}
    (hc : startedCommand i = some c) (idle : s.status ≠ .busy)
    (pal : c = .dec .idx4 ∨ c = .dec .idx8 → s.pallen.toNat = 16 ∨ s.pallen.toNat = 256)
    (even : c = .dec .idx4 → s.width.toNat % 2 = 0)
    (h : startLoop c s = .next t) : Effect i s t := by
  obtain ⟨h0, rfl⟩ | ⟨hp, rfl⟩ := startLoop_next h
  · exact .ended c hc idle h0 rfl
  · exact .started c hc idle hp pal even rfl

theorem effect_of_decUnit {i : Instr} {f : Fmt} {T : List Pixel} {s t : State}
    (src : (∃ k, T = decodeTileDxt1 k) ∨ (∃ k, T = decodeTileDxt3 k) ∨ (∃ k, T = decodeTileDxt5 k) ∨
        ∃ is, lookupIndices s is = .pixels T)
    (h : decUnit f T s = .next t) : Effect i s t := by
  obtain ⟨hr, ⟨hf, rfl⟩ | ⟨_, rfl⟩⟩ := decUnit_next h
  · exact .decoded f T hr hf src rfl
  · exact .failedDec f _ (.inl rfl) hr rfl

theorem effect_of_decIndices {i : Instr} {f : Fmt} {is : List Nat} {s t : State}
    (h : decIndices f is s = .next t) : Effect i s t := by
  obtain ⟨hr, ⟨hf, ⟨T, hT, rfl⟩ | ⟨_, rfl⟩⟩ | ⟨_, rfl⟩⟩ := decIndices_next h
  · exact .decoded f T hr hf (.inr (.inr (.inr ⟨is, hT⟩))) rfl
  · exact .failedDec f _ (.inr rfl) hr rfl
  · exact .failedDec f _ (.inl rfl) hr rfl

theorem effect_of_encUnit {i : Instr} {b : BlockFmt} {e : List Pixel → List Byte} {s t : State}
    (len : ∀ T, (e T).length = unitSize (.block b))
    (h : encUnit b e s = .next t) : Effect i s t := by
  obtain ⟨hr, T, hT, ⟨hf, rfl⟩ | ⟨hf, rfl⟩⟩ := encUnit_next h
  · exact .encoded b T _ hr hT (len T) hf rfl
  · exact .failedEnc b hr hf rfl

/-- The inversion of `exec`: a next state comes from one of the effects. -/
theorem exec_effect {i : Instr} {s t : State} (h : exec i s = .next t) : Effect i s t := by
  cases i with
  | decDxt1 => obtain ⟨hb, h⟩ := unlessBusy_next h; exact effect_of_startLoop rfl hb (by simp) (by simp) h
  | decDxt3 => obtain ⟨hb, h⟩ := unlessBusy_next h; exact effect_of_startLoop rfl hb (by simp) (by simp) h
  | decDxt5 => obtain ⟨hb, h⟩ := unlessBusy_next h; exact effect_of_startLoop rfl hb (by simp) (by simp) h
  | decIdx4 =>
    obtain ⟨hb, h⟩ := unlessBusy_next h
    obtain ⟨hp, h⟩ | ⟨_, rfl⟩ := paletteCheck_next h
    · obtain ⟨he, h⟩ := evenWidthCheck_next h
      exact effect_of_startLoop rfl hb (fun _ => hp) (fun _ => he) h
    · exact .rejected _ (.inr rfl) hb rfl
  | decIdx8 =>
    obtain ⟨hb, h⟩ := unlessBusy_next h
    obtain ⟨hp, h⟩ | ⟨_, rfl⟩ := paletteCheck_next h
    · exact effect_of_startLoop rfl hb (fun _ => hp) (by simp) h
    · exact .rejected _ (.inr rfl) hb rfl
  | encDxt1 => obtain ⟨hb, h⟩ := unlessBusy_next h; exact effect_of_startLoop rfl hb (by simp) (by simp) h
  | encDxt3 => obtain ⟨hb, h⟩ := unlessBusy_next h; exact effect_of_startLoop rfl hb (by simp) (by simp) h
  | encDxt5 => obtain ⟨hb, h⟩ := unlessBusy_next h; exact effect_of_startLoop rfl hb (by simp) (by simp) h
  | palDefilt fmt =>
    obtain ⟨hb, ⟨_, cells, hc, rfl⟩ | ⟨_, rfl⟩⟩ := execPalDefilt_next (fmt := fmt) h
    · exact .permuted fmt cells rfl hb hc rfl
    · exact .rejected _ (.inr rfl) hb rfl
  | illegalDec fmt => obtain ⟨hb, h⟩ := unlessBusy_next h; cases h; exact .rejected _ (.inl rfl) hb rfl
  | illegalEnc fmt => obtain ⟨hb, h⟩ := unlessBusy_next h; cases h; exact .rejected _ (.inl rfl) hb rfl
  | reserved w => cases h
  | wireDxt1 u =>
    cases u with
    | read k => exact effect_of_decUnit (.inl ⟨k, rfl⟩) h
    | write => exact effect_of_encUnit (fun _ => rfl) h
  | wireDxt3 u =>
    cases u with
    | read k => exact effect_of_decUnit (.inr (.inl ⟨k, rfl⟩)) h
    | write => exact effect_of_encUnit (fun _ => rfl) h
  | wireDxt5 u =>
    cases u with
    | read k => exact effect_of_decUnit (.inr (.inr (.inl ⟨k, rfl⟩))) h
    | write => exact effect_of_encUnit (fun _ => rfl) h
  | wireIdx4 r l => exact effect_of_decIndices h
  | wireIdx8 x => exact effect_of_decIndices h

/-- No instruction touches the mark that the host has yet to read STATUS (70 R380). -/
theorem exec_unread {i : Instr} {s t : State} (h : exec i s = .next t) : t.unread = s.unread := by
  cases exec_effect h <;> subst_vars <;> simp [putPixels, putBytes]

/-- No instruction leaves the codec IDLE: only a reset does (10 R29). -/
theorem exec_not_idle {i : Instr} {s t : State} (h : exec i s = .next t) : t.status ≠ .idle := by
  have unit : ∀ {c : Command} {u : State}, u.status = .busy → (advanceUnit c u).status ≠ .idle := by
    intro c u hu
    rw [advanceUnit_status, hu]
    split <;> decide
  cases exec_effect h with
  | decoded f T ready _ _ eq =>
    subst eq; exact unit (u := { s with image := _ }) ((unitReady_iff ..).1 ready).1
  | encoded b T bytes ready _ _ _ eq =>
    subst eq; exact unit (u := { afterGather s with stream := _ }) ((unitReady_iff ..).1 ready).1
  | _ => subst_vars; simp

end Sys2Proof.Machine
end

