-- ==== Sys2Proof/Laws/PerInstr.lean ====
section
/-! SUPPORT. The statement made per instruction: an encoding has exactly the bytes its slot takes
(30_encoding.md R110: a command word is 16 bits; 46_commands.md R292: the unit sizes). -/

namespace Sys2Proof.Laws

/-- The encoding of an instruction is as long as the slot it is read in. -/
def EncodeLength.Statement (i : Instr) : Prop := (encode i).length = slotBytes (slotOf i)

theorem EncodeLength.decDxt1 : EncodeLength.Statement .decDxt1 := rfl
theorem EncodeLength.decDxt3 : EncodeLength.Statement .decDxt3 := rfl
theorem EncodeLength.decDxt5 : EncodeLength.Statement .decDxt5 := rfl
theorem EncodeLength.decIdx4 : EncodeLength.Statement .decIdx4 := rfl
theorem EncodeLength.decIdx8 : EncodeLength.Statement .decIdx8 := rfl
theorem EncodeLength.encDxt1 : EncodeLength.Statement .encDxt1 := rfl
theorem EncodeLength.encDxt3 : EncodeLength.Statement .encDxt3 := rfl
theorem EncodeLength.encDxt5 : EncodeLength.Statement .encDxt5 := rfl
theorem EncodeLength.palDefilt (fmt : Byte) : EncodeLength.Statement (.palDefilt fmt) := rfl
theorem EncodeLength.illegalDec (fmt : Byte) : EncodeLength.Statement (.illegalDec fmt) := rfl
theorem EncodeLength.illegalEnc (fmt : Byte) : EncodeLength.Statement (.illegalEnc fmt) := rfl
theorem EncodeLength.reserved (cmd16 : Half) : EncodeLength.Statement (.reserved cmd16) := rfl
theorem EncodeLength.wireDxt1 (u : Wire ColorBlock) : EncodeLength.Statement (.wireDxt1 u) := by cases u <;> rfl
theorem EncodeLength.wireDxt3 (u : Wire Dxt3Block) : EncodeLength.Statement (.wireDxt3 u) := by cases u <;> rfl
theorem EncodeLength.wireDxt5 (u : Wire Dxt5Block) : EncodeLength.Statement (.wireDxt5 u) := by cases u <;> rfl
theorem EncodeLength.wireIdx4 (r l : BitVec 4) : EncodeLength.Statement (.wireIdx4 r l) := rfl
theorem EncodeLength.wireIdx8 (i : Byte) : EncodeLength.Statement (.wireIdx8 i) := rfl

end Sys2Proof.Laws
end

