-- ==== Sys2Proof/Laws/Step.lean ====
section
/-! SUPPORT. What one step can do: the inversion of `step`, from which the invariants follow. -/

namespace Sys2Proof.Machine

/-- A state that differs from `s` only in the model's own fields (the script, the port, the draws) and in the
mark `unread`. -/
structure SameMachine (s u : State) : Prop where
  fmt : u.fmt = s.fmt
  width : u.width = s.width
  height : u.height = s.height
  levels : u.levels = s.levels
  spos : u.spos = s.spos
  slen : u.slen = s.slen
  pallen : u.pallen = s.pallen
  written : u.written = s.written
  status : u.status = s.status
  err : u.err = s.err
  ucnt : u.ucnt = s.ucnt
  pal : u.pal = s.pal
  stream : u.stream = s.stream
  image : u.image = s.image
  running : u.running = s.running

theorem SameMachine.refl (s : State) : SameMachine s s :=
  ⟨rfl, rfl, rfl, rfl, rfl, rfl, rfl, rfl, rfl, rfl, rfl, rfl, rfl, rfl, rfl⟩

/-- Everything a step can do when it answers a next state; `u` is the state the step works on, which is
`s` but for the model's own fields. -/
inductive Move (s t : State) : Prop where
  | ran (i : Instr) (u : State) (same : SameMachine s u) (ex : exec i u = .next t)
      (mark : s.status = .busy ∧ u.unread = s.unread ∨ s.status ≠ .busy ∧ u.unread = true)
  | stayed (same : SameMachine s t)
      (mark : t.unread = s.unread ∨ s.status ≠ .busy ∧ t.unread = false)
  | wroteReg (u : State) (same : SameMachine s u) (mark : u.unread = s.unread) (idle : s.status ≠ .busy)
      (w : RegWrite) (eq : t = writeReg u w)
  | wroteStream (u : State) (same : SameMachine s u) (mark : u.unread = s.unread) (a : Word) (bytes : List Byte)
      (fits : a.toNat + bytes.length ≤ 2 ^ 32)
      (eq : t = { u with stream := Memory.setMany u.stream (cellsAt a.toNat bytes) })
  | wroteImage (u : State) (same : SameMachine s u) (mark : u.unread = s.unread) (x y : Half) (p : Pixel) (ok : p.inRange = true)
      (eq : t = { u with image := Memory.set u.image (imageKey x.toNat y.toNat) p })
  | wrotePal (u : State) (same : SameMachine s u) (mark : u.unread = s.unread) (i : Byte) (p : Pixel) (ok : p.inRange = true)
      (eq : t = { u with pal := Memory.set u.pal i.toNat p })
  | truncated (u : State) (same : SameMachine s u) (mark : u.unread = s.unread) (f : Fmt) (due : UnitDue u (.dec f))
      (eq : t = raiseInUnit (.dec f) .truncatedStream u)
  | ended (u : State) (same : SameMachine s u) (mark : u.unread = s.unread) (c : Command) (run : u.running = some c)
      (busy : u.status = .busy) (none : unitTotal u c ≤ u.ucnt.toNat) (eq : t = finishCommand u)
  | wasReset (u : State) (same : SameMachine s u) (eq : t = resetTo u)

/-- The machine's move for a fetched item. -/
def runFetched (f : Fetched) : Result :=
  match f with
  | .run i t => exec i t
  | .moved t => .next t
  | .fault r => .fault r
  | .refused r => .refused r

theorem step_eq (s : State) : step s = runFetched (fetch s) := rfl

/-- While STATUS is not BUSY a step is the host's next action. -/
theorem step_idle {s : State} (h : s.status ≠ .busy) : step s = runFetched (fetchIdle s) := by
  rw [step_eq, fetch]
  split
  · exact absurd ‹_› h
  all_goals rfl

/-- While STATUS is not BUSY and the window of 70 R380 allows it, a step is the first action of the script. -/
theorem step_host {s : State} {a : HostAction} {rest : List HostAction} (h : s.status ≠ .busy)
    (hs : s.script = a :: rest) (hu : s.unread = false ∨ readsStatusOnly a = true) :
    step s = runFetched (hostAct a { s with script := rest }) := by
  rw [step_idle h, fetchIdle, hs]
  rcases hu with hu | hu <;> simp [hu]

/-- While STATUS is BUSY and the host waits a step is the next unit. -/
theorem step_waiting {s : State} (hb : s.status = .busy) (h : HostWaits s) :
    step s = runFetched (fetchUnit s) := by
  rw [step_eq, fetch, hb]
  rcases h with h | ⟨_, h⟩ <;> simp only [fetchBusy, h]

/-! ### A unit does not look at the host's script -/

theorem decUnit_script (f : Fmt) (T : List Pixel) (s : State) (as : List HostAction) :
    decUnit f T { s with script := as } = keepScript as (decUnit f T s) := by
  have ready : unitReady { s with script := as } (.dec f) = unitReady s (.dec f) := rfl
  have fits : fitsStream { s with script := as } s.spos.toNat (unitSize f) =
    fitsStream s s.spos.toNat (unitSize f) := rfl
  unfold decUnit
  rw [ready, fits]
  split
  · split
    · simp [keepScript, putPixels, advanceUnit_eq, unitTotal]
    · rfl
  · rfl

theorem lookupIndices_script (s : State) (as : List HostAction) (is : List Nat) :
    lookupIndices { s with script := as } is = lookupIndices s is := by
  induction is with
  | nil => rfl
  | cons i is ih => rw [lookupIndices, lookupIndices, ih]; rfl

theorem decIndices_script (f : Fmt) (is : List Nat) (s : State) (as : List HostAction) :
    decIndices f is { s with script := as } = keepScript as (decIndices f is s) := by
  have ready : unitReady { s with script := as } (.dec f) = unitReady s (.dec f) := rfl
  have fits : fitsStream { s with script := as } s.spos.toNat (unitSize f) =
    fitsStream s s.spos.toNat (unitSize f) := rfl
  unfold decIndices
  rw [ready, fits, lookupIndices_script]
  split
  · split
    · split
      · simp [keepScript, putPixels, advanceUnit_eq, unitTotal]
      · rfl
      · rfl
    · rfl
  · rfl

theorem gatherFrom_script (s : State) (as : List HostAction) (u : Nat) (ps : List Nat) :
    gatherFrom { s with script := as } u ps = gatherFrom s u ps := by
  induction ps with
  | nil => rfl
  | cons p ps ih => rw [gatherFrom, gatherFrom, ih]; rfl

theorem encUnit_script (b : BlockFmt) (e : List Pixel → List Byte) (s : State) (as : List HostAction) :
    encUnit b e { s with script := as } = keepScript as (encUnit b e s) := by
  have ready : unitReady { s with script := as } (.enc b) = unitReady s (.enc b) := rfl
  have fits : fitsStream { s with script := as } s.spos.toNat (unitSize (.block b)) =
    fitsStream s s.spos.toNat (unitSize (.block b)) := rfl
  have got : gatherTile { s with script := as } s.ucnt.toNat = gatherTile s s.ucnt.toNat :=
    gatherFrom_script ..
  unfold encUnit
  rw [ready, fits, got]
  split
  · split
    · rfl
    · split
      · simp [keepScript, putBytes, advanceUnit_eq, unitTotal, afterGather]
      · rfl
  · rfl

theorem startLoop_script (c : Command) (s : State) (as : List HostAction) :
    startLoop c { s with script := as } = keepScript as (startLoop c s) := by
  have total : unitTotal { s with script := as } c = unitTotal s c := rfl
  simp only [startLoop, total]
  repeat' split
  all_goals rfl

/-- The codec does not look at the host's script: an instruction's effect is the same whatever it is. -/
theorem exec_script (i : Instr) (s : State) (as : List HostAction) :
    exec i { s with script := as } = keepScript as (exec i s) := by
  cases i with
  | decDxt1 | decDxt3 | decDxt5 | encDxt1 | encDxt3 | encDxt5 =>
    simp only [exec, execDecDxt1, execDecDxt3, execDecDxt5, execEncDxt1, execEncDxt3, execEncDxt5, unlessBusy,
      startLoop_script]
    split <;> rfl
  | decIdx4 | decIdx8 =>
    simp only [exec, execDecIdx4, execDecIdx8, unlessBusy, paletteCheck, evenWidthCheck,
      startLoop_script]
    repeat' split
    all_goals rfl
  | palDefilt fmt =>
    simp only [exec, execPalDefilt, unlessBusy]
    repeat' split
    all_goals rfl
  | illegalDec fmt | illegalEnc fmt =>
    simp only [exec, execIllegalDec, execIllegalEnc, unlessBusy]
    split <;> rfl
  | reserved w => rfl
  | wireDxt1 u => cases u with
    | read k => exact decUnit_script ..
    | write => exact encUnit_script ..
  | wireDxt3 u => cases u with
    | read k => exact decUnit_script ..
    | write => exact encUnit_script ..
  | wireDxt5 u => cases u with
    | read k => exact decUnit_script ..
    | write => exact encUnit_script ..
  | wireIdx4 r l => exact decIndices_script ..
  | wireIdx8 i => exact decIndices_script ..

/-- The fetched unit and its effect are the same whatever the host's script is. -/
theorem fetchUnit_script (s : State) (as : List HostAction) :
    runFetched (fetchUnit { s with script := as }) = keepScript as (runFetched (fetchUnit s)) := by
  have total : ∀ c, unitTotal { s with script := as } c = unitTotal s c := fun _ => rfl
  have fits : ∀ n, fitsStream { s with script := as } s.spos.toNat n = fitsStream s s.spos.toNat n :=
    fun _ => rfl
  have bytes : ∀ n, readStream { s with script := as } s.spos.toNat n = readStream s s.spos.toNat n :=
    fun _ => rfl
  unfold fetchUnit
  simp only [total, fits, bytes]
  repeat' split
  all_goals first
    | rfl
    | exact exec_script ..

/-- `unitFirst` is the next unit's step with one free value taken: the pending action stays pending. -/
theorem unitFirst_eq {s : State} (h : s.status = .busy) :
    unitFirst s = runFetched (fetchUnit { s with draws := s.draws + 1 }) := by
  unfold unitFirst
  rw [step_waiting (s := { s with script := [], draws := s.draws + 1 }) h (.inl rfl),
    ← fetchUnit_script]

/-! ### The inversion of `step` -/

theorem fetchCommand_move {s u t : State} {v : Byte} (same : SameMachine s u) (idle : s.status ≠ .busy)
    (h : runFetched (fetchCommand v u) = .next t) : Move s t := by
  unfold fetchCommand at h
  split at h
  · exact .ran _ { u with unread := true }
      ⟨same.fmt, same.width, same.height, same.levels, same.spos, same.slen, same.pallen, same.written,
        same.status, same.err, same.ucnt, same.pal, same.stream, same.image, same.running⟩
      h (.inr ⟨idle, rfl⟩)
  · cases h

theorem hostAct_move {s u t : State} {a : HostAction} (same : SameMachine s u) (mark : u.unread = s.unread)
    (idle : s.status ≠ .busy) (h : runFetched (hostAct a u) = .next t) : Move s t := by
  have own : ∀ p d m, m = s.unread ∨ s.status ≠ .busy ∧ m = false →
      Move s { u with port := p, draws := d, unread := m } := fun _ _ _ hm => .stayed
    ⟨same.fmt, same.width, same.height, same.levels, same.spos, same.slen, same.pallen, same.written,
      same.status, same.err, same.ucnt, same.pal, same.stream, same.image, same.running⟩ hm
  have read : ∀ r, runFetched (hostRead r u) = .next t → Move s t := by
    intro r h
    cases h
    cases r with
    | status => exact own _ u.draws false (.inr ⟨idle, rfl⟩)
    | cmd => exact own _ (u.draws + 1) u.unread (.inl mark)
    | _ => exact own _ u.draws u.unread (.inl mark)
  cases a with
  | wr w =>
    cases w with
    | cmd v => exact fetchCommand_move same idle h
    | _ => cases h; exact .wroteReg u same mark idle (_) rfl
  | rd r => exact read r h
  | wrs a bytes =>
    simp only [hostAct] at h
    split at h
    · cases h; exact .wroteStream u same mark a bytes ‹_› rfl
    · cases h
  | wrImg x y p =>
    simp only [hostAct] at h
    split at h
    · cases h; exact .wroteImage u same mark x y p ‹_› rfl
    · cases h
  | wrPal i p =>
    simp only [hostAct] at h
    split at h
    · cases h; exact .wrotePal u same mark i p ‹_› rfl
    · cases h
  | rdStream a => simp only [hostAct] at h; split at h <;> cases h; exact own _ u.draws u.unread (.inl mark)
  | rdImg x y => simp only [hostAct] at h; split at h <;> cases h; exact own _ u.draws u.unread (.inl mark)
  | rdPal i => simp only [hostAct] at h; split at h <;> cases h; exact own _ u.draws u.unread (.inl mark)
  | wait => exact read .status h
  | reset => cases h; exact .wasReset u same rfl

theorem fetchUnit_move {s u t : State} (same : SameMachine s u) (mark : u.unread = s.unread)
    (busy : u.status = .busy) (h : runFetched (fetchUnit u) = .next t) : Move s t := by
  unfold fetchUnit at h
  split at h
  · cases h
  · rename_i c hc
    split at h
    · rename_i hlt
      cases c with
      | enc b => exact .ran _ u same h (.inl ⟨same.status ▸ busy, mark⟩)
      | dec f =>
        simp only at h
        split at h
        · split at h
          · cases h
          · split at h
            · exact .ran _ u same h (.inl ⟨same.status ▸ busy, mark⟩)
            · cases h
        · cases h; exact .truncated u same mark f ⟨busy, hc, hlt⟩ rfl
    · cases h; exact .ended u same mark c hc busy (by omega) rfl

/-- The inversion of `step`. -/
theorem step_move {s t : State} (h : step s = .next t) : Move s t := by
  have same : ∀ as p d, SameMachine s { s with script := as, port := p, draws := d } :=
    fun _ _ _ => ⟨rfl, rfl, rfl, rfl, rfl, rfl, rfl, rfl, rfl, rfl, rfl, rfl, rfl, rfl, rfl⟩
  by_cases hb : s.status = .busy
  · rw [step_eq, fetch, hb] at h
    simp only [fetchBusy] at h
    split at h
    · exact fetchUnit_move (.refl s) rfl hb h
    · exact fetchUnit_move (.refl s) rfl hb h
    · split at h
      · cases h; exact .stayed (same ..) (.inl rfl)
      · exact fetchUnit_move (same s.script s.port (s.draws + 1)) rfl hb h
    · split at h
      · cases h; exact .wasReset _ (same _ s.port (s.draws + 1)) rfl
      · exact fetchUnit_move (same s.script s.port (s.draws + 1)) rfl hb h
    · cases h
  · rw [step_idle hb, fetchIdle] at h
    split at h
    · cases h; exact .stayed (.refl s) (.inl rfl)
    · rename_i a rest _
      split at h
      · cases h
      · exact hostAct_move (same rest s.port s.draws) rfl hb h

end Sys2Proof.Machine
end

