-- ==== Sys2Proof/Laws/Units.lean ====
section
/-! SUPPORT. What the lookups of a unit give: the indexed lookup, the gathered tile, the permuted palette. -/

namespace Sys2Proof.Machine

/-! ### The indexed lookup (45 R263 to R265) -/

/-- A lookup that answers pixels found every index legal and its entry written. -/
theorem lookupIndices_cons {s : State} {i : Nat} {is : List Nat} {T : List Pixel} :
    lookupIndices s (i :: is) = .pixels T ↔
      i < s.pallen.toNat ∧ ∃ p U, T = p :: U ∧ Memory.get s.pal i = some p ∧ lookupIndices s is = .pixels U := by
  rw [lookupIndices]
  by_cases hi : indexLegal s i = true
  · have hi' : i < s.pallen.toNat := of_decide_eq_true hi
    rw [if_pos hi]
    cases hp : Memory.get s.pal i with
    | none => simp
    | some p => cases hr : lookupIndices s is <;> simp [hi', eq_comm]
  · have hi' : ¬ i < s.pallen.toNat := fun h => hi (decide_eq_true h)
    rw [if_neg hi]
    simp [hi']

/-- Every pixel of a lookup stands in the palette RAM. -/
theorem mem_of_lookupIndices {s : State} {is : List Nat} {T : List Pixel}
    (h : lookupIndices s is = .pixels T) {p : Pixel} (hp : p ∈ T) : ∃ i, (i, p) ∈ s.pal := by
  induction is generalizing T with
  | nil => cases h; cases hp
  | cons i is ih =>
    obtain ⟨_, q, U, rfl, hg, hU⟩ := lookupIndices_cons.1 h
    rcases List.mem_cons.1 hp with rfl | hp
    · exact ⟨i, Memory.mem_of_get hg⟩
    · exact ih hU hp

/-! ### The gathered tile (46 R295) -/

theorem gatherFrom_cons {s : State} {u p : Nat} {ps : List Nat} {T : List Pixel} :
    gatherFrom s u (p :: ps) = some T ↔
      ∃ v U, T = v :: U ∧ gatherPixel s u p = some v ∧ gatherFrom s u ps = some U := by
  rw [gatherFrom]
  cases gatherPixel s u p <;> cases gatherFrom s u ps <;> simp [eq_comm]

/-- Each gathered sample is that of its tile position. -/
theorem get_of_gatherFrom {s : State} {u : Nat} {ps : List Nat} {T : List Pixel}
    (h : gatherFrom s u ps = some T) :
    T.length = ps.length ∧ ∀ i (hi : i < ps.length), T[i]? = gatherPixel s u ps[i] := by
  induction ps generalizing T with
  | nil => cases h; simp
  | cons p ps ih =>
    obtain ⟨v, U, rfl, h1, h2⟩ := gatherFrom_cons.1 h
    obtain ⟨hl, hg⟩ := ih h2
    refine ⟨by simp [hl], fun i hi => ?_⟩
    cases i with
    | zero => simp [h1]
    | succ i => simpa using hg i (by simpa using hi)

/-- A tile gathers when each of its samples does. -/
theorem gatherFrom_isSome {s : State} {u : Nat} {ps : List Nat}
    (h : ∀ p ∈ ps, (gatherPixel s u p).isSome) : ∃ T, gatherFrom s u ps = some T := by
  induction ps with
  | nil => exact ⟨[], rfl⟩
  | cons p ps ih =>
    obtain ⟨U, hU⟩ := ih (fun q hq => h q (List.mem_cons_of_mem _ hq))
    obtain ⟨v, hv⟩ := Option.isSome_iff_exists.1 (h p List.mem_cons_self)
    exact ⟨v :: U, gatherFrom_cons.2 ⟨v, U, rfl, hv, hU⟩⟩

/-- The gathered tile, position by position. -/
theorem get_of_gatherTile {s : State} {u : Nat} {T : List Pixel} (h : gatherTile s u = some T) :
    T.length = 16 ∧ ∀ p, p < 16 → T[p]? = gatherPixel s u p := by
  obtain ⟨hl, hg⟩ := get_of_gatherFrom h
  rw [List.length_range] at hl
  refine ⟨hl, fun p hp => ?_⟩
  have := hg p (by rwa [List.length_range])
  rwa [List.getElem_range] at this

/-- A tile gathers when every image pixel of it is written; a position outside the image never fails. -/
theorem gatherTile_isSome {s : State} {u : Nat}
    (h : ∀ p, p < 16 → tileInside s.width.toNat s.height.toNat u p = true →
      (Memory.get s.image (imageKey (tileX s.width.toNat u p) (tileY s.width.toNat u p))).isSome) :
    ∃ T, gatherTile s u = some T := by
  refine gatherFrom_isSome fun p hp => ?_
  unfold gatherPixel
  split
  · exact h p (List.mem_range.1 hp) ‹_›
  · rfl

/-! ### The permuted palette (45 R270) -/

theorem defiltSource_lt {i : Nat} (h : i < 256) : defiltSource i < 256 := by
  unfold defiltSource
  omega

/-- Exchanging bits 3 and 4 twice gives the index back. -/
theorem defiltSource_twice {i : Nat} (h : i < 256) : defiltSource (defiltSource i) = i := by
  revert i
  decide +kernel

/-- The permuted palette, entry by entry. -/
theorem get_defilt {pal : Memory Pixel} {cells : List (Nat × Pixel)} (h : defiltCells pal = some cells)
    (i : Nat) : Memory.get (Memory.setMany pal cells) i =
      if i < 256 then Memory.get pal (defiltSource i) else Memory.get pal i := by
  simp only [defiltCells, Option.map_eq_some_iff] at h
  obtain ⟨vs, hv, rfl⟩ := h
  have hl := Memory.length_readAll hv
  rw [List.length_map, List.length_range] at hl
  split
  · rename_i hi
    have h1 := Memory.get_setMany_cellsAt pal 0 vs i (by omega)
    rw [Nat.zero_add] at h1
    have h2 := Memory.get_of_readAll hv i (by rwa [List.length_map, List.length_range])
    rw [List.getElem_map, List.getElem_range] at h2
    rw [h1, h2]
  · exact Memory.get_setMany_cellsAt_other _ _ _ _ (by omega)

/-- A palette whose 256 entries are all written can be permuted. -/
theorem defiltCells_isSome {pal : Memory Pixel} (h : ∀ i, i < 256 → (Memory.get pal i).isSome) :
    ∃ cells, defiltCells pal = some cells := by
  obtain ⟨vs, hv⟩ := Memory.readAll_isSome (m := pal) (as := (List.range 256).map defiltSource) (by
    intro a ha
    obtain ⟨i, hi, rfl⟩ := List.mem_map.1 ha
    exact h _ (defiltSource_lt (List.mem_range.1 hi)))
  exact ⟨cellsAt 0 vs, by rw [defiltCells, hv]; rfl⟩

end Sys2Proof.Machine
end

