-- ==== Sys2Proof/Tests/Slice0.lean ====
section
/-! SUPPORT. The model's own tests: ill-formed terms refused, words of the spec decoded, one step on small
states with the results of spec/95_test_vectors.md, and for each statement with hypotheses a witness that
meets them. -/

namespace Sys2Proof.Tests

open Sys2Proof.Machine

-- One test after another: side by side, each kernel evaluation would hold a thread of its own.
set_option Elab.async false

/-! ### Small states -/

/-- A codec with its descriptor written: W x H pixels, SPOS = 0, `len` bytes of stream. -/
def prepared (W H : Half) (len : Word) : State :=
  { State.reset with
    fmt := 0, width := W, height := H, levels := 1, spos := 0, slen := len, pallen := 16,
    written := ⟨true, true, true, true, true, true, true⟩ }

/-- The same with command `c` in progress at its first unit. -/
def inProgress (c : Command) (W H : Half) (len : Word) : State :=
  { prepared W H len with status := .busy, running := some c, unread := true }

/-- The palette of 95 P4: entry i is (i/15, 1 - i/15, 0, 1). -/
def palette16 : Memory Pixel := (List.range 16).map (fun i => (i, ⟨(i : Rat) / 15, 1 - (i : Rat) / 15, 0, 1⟩))

/-- The palette of 95 V52: entry j is (j/255, 0, 0, 1). -/
def palette256 : Memory Pixel := (List.range 256).map (fun j => (j, ⟨(j : Rat) / 255, 0, 0, 1⟩))

/-- The codec of 95 V52 before PAL.DEFILT. -/
def beforeDefilt : State := { prepared 0 0 0 with pallen := 256, pal := palette256 }

/-- An opaque red pixel. -/
def red : Pixel := ⟨1, 0, 0, 1⟩

/-- An image of W x H red pixels. -/
def redImage (W H : Nat) : Memory Pixel :=
  (List.range H).flatMap (fun y => (List.range W).map (fun x => (imageKey x y, red)))

/-- Whether a result is a next state that passes a check. -/
def nextWith (r : Result) (check : State → Bool) : Bool :=
  match r with
  | .next t => check t
  | _ => false

/-- Whether a result is the named refusal. -/
def refusedWith (r : Result) (why : Refusal) : Bool :=
  match r with
  | .refused w => decide (w = why)
  | _ => false

/-! ### Ill-formed terms -/

/-- 30 R112: FMT 4 has a DEC row of its own. -/
theorem test_illformed_illegalDec : (Instr.illegalDec 4#8).WellFormed = false := by decide
/-- 30 R112: FMT 2 has an ENC row of its own. -/
theorem test_illformed_illegalEnc : (Instr.illegalEnc 2#8).WellFormed = false := by decide
/-- 30 R112: CMD bytes 1, 2 and 3 are not reserved, whatever FMT is. -/
theorem test_illformed_reserved :
    (Instr.reserved 0xAA01#16).WellFormed = false ∧ (Instr.reserved 0x0002#16).WellFormed = false ∧
      (Instr.reserved 0xFF03#16).WellFormed = false := by decide
/-- 00 R8: a pixel with a sample outside [0, 1], one for each sample and side. -/
theorem test_illformed_pixel :
    (HostAction.wrImg 0 0 ⟨2, 0, 0, 1⟩).WellFormed = false ∧
    (HostAction.wrImg 0 0 ⟨-1, 0, 0, 1⟩).WellFormed = false ∧
    (HostAction.wrPal 0 ⟨0, 2, 0, 1⟩).WellFormed = false ∧
    (HostAction.wrPal 0 ⟨0, -1, 0, 1⟩).WellFormed = false ∧
    (HostAction.wrPal 0 ⟨0, 0, 2, 1⟩).WellFormed = false ∧
    (HostAction.wrPal 0 ⟨0, 0, -1, 1⟩).WellFormed = false ∧
    (HostAction.wrPal 0 ⟨0, 0, 0, 2⟩).WellFormed = false ∧
    (HostAction.wrPal 0 ⟨0, 0, 0, -1⟩).WellFormed = false := by decide +kernel

/-! ### Decoding: words written out from 30_encoding.md and 95_test_vectors.md

A command is the byte written to CMD and the FMT byte (30 R110). -/

theorem test_decode_decDxt1 : decode .command [0x01#8, 0x00#8] = .ok .decDxt1 := by decide
theorem test_decode_decDxt3 : decode .command [0x01#8, 0x01#8] = .ok .decDxt3 := by decide
theorem test_decode_decDxt5 : decode .command [0x01#8, 0x02#8] = .ok .decDxt5 := by decide
theorem test_decode_decIdx4 : decode .command [0x01#8, 0x03#8] = .ok .decIdx4 := by decide
theorem test_decode_decIdx8 : decode .command [0x01#8, 0x04#8] = .ok .decIdx8 := by decide
theorem test_decode_encDxt1 : decode .command [0x02#8, 0x00#8] = .ok .encDxt1 := by decide
theorem test_decode_encDxt3 : decode .command [0x02#8, 0x01#8] = .ok .encDxt3 := by decide
theorem test_decode_encDxt5 : decode .command [0x02#8, 0x02#8] = .ok .encDxt5 := by decide
theorem test_decode_palDefilt : decode .command [0x03#8, 0xFF#8] = .ok (.palDefilt 0xFF#8) := by decide
/-- 95 V71: FMT = 9 is no format. -/
theorem test_decode_illegalDec : decode .command [0x01#8, 0x09#8] = .ok (.illegalDec 0x09#8) := by decide
/-- 95 V71: FMT = 3 has no encoder. -/
theorem test_decode_illegalEnc : decode .command [0x02#8, 0x03#8] = .ok (.illegalEnc 0x03#8) := by decide
theorem test_decode_reserved :
    decode .command [0x00#8, 0x12#8] = .ok (.reserved 0x1200#16) ∧
    decode .command [0x04#8, 0x00#8] = .ok (.reserved 0x0004#16) := by decide
/-- The block of 95 V26, `1F F8 00 00 15 29 29 00`. -/
theorem test_decode_wireDxt1 :
    decode (.unit (.dec (.block .dxt1)))
      [0x1F#8, 0xF8#8, 0x00#8, 0x00#8, 0x15#8, 0x29#8, 0x29#8, 0x00#8] =
    .ok (.wireDxt1 (.read ⟨0xF81F#16, 0x0000#16, 0x15#8, 0x29#8, 0x29#8, 0x00#8⟩)) := by decide
/-- The block of 95 V33. -/
theorem test_decode_wireDxt3 :
    decode (.unit (.dec (.block .dxt3)))
      [0x50#8, 0xFA#8, 0x50#8, 0xFA#8, 0x50#8, 0xFA#8, 0x50#8, 0xFA#8,
        0x1F#8, 0x00#8, 0x1F#8, 0x00#8, 0x0F#8, 0x0F#8, 0x0F#8, 0x0F#8] =
    .ok (.wireDxt3 (.read ⟨⟨0x50#8, 0xFA#8, 0x50#8, 0xFA#8, 0x50#8, 0xFA#8, 0x50#8, 0xFA#8⟩,
      ⟨0x001F#16, 0x001F#16, 0x0F#8, 0x0F#8, 0x0F#8, 0x0F#8⟩⟩)) := by decide
/-- The alpha bytes of 95 V40, Q = 0x0123456789AB. -/
theorem test_decode_wireDxt5 :
    decode (.unit (.dec (.block .dxt5)))
      [0x40#8, 0xC0#8, 0x01#8, 0x23#8, 0x45#8, 0x67#8, 0x89#8, 0xAB#8,
        0x00#8, 0xF8#8, 0x1F#8, 0x00#8, 0xE4#8, 0xE4#8, 0xE4#8, 0xE4#8] =
    .ok (.wireDxt5 (.read ⟨⟨0x40#8, 0xC0#8, 0x0123456789AB#48⟩,
      ⟨0xF800#16, 0x001F#16, 0xE4#8, 0xE4#8, 0xE4#8, 0xE4#8⟩⟩)) := by decide
/-- 95 V50: 0x2F is left index 15, right index 2. -/
theorem test_decode_wireIdx4 :
    decode (.unit (.dec .idx4)) [0x2F#8] = .ok (.wireIdx4 2#4 15#4) := by decide
theorem test_decode_wireIdx8 : decode (.unit (.dec .idx8)) [0x10#8] = .ok (.wireIdx8 0x10#8) := by decide
/-- A unit an ENC command produces takes no bits of the stream (log 15). -/
theorem test_decode_encoded :
    decode (.unit (.enc .dxt1)) [] = .ok (.wireDxt1 .write) ∧
    decode (.unit (.enc .dxt3)) [] = .ok (.wireDxt3 .write) ∧
    decode (.unit (.enc .dxt5)) [] = .ok (.wireDxt5 .write) := by decide
/-- A word of the opcode table: CMD in bits 7:0, FMT in bits 15:8. -/
theorem test_decodeTableWord :
    decodeTableWord 16 0x0201 = some .decDxt5 ∧ decodeTableWord 16 0x0903 = some (.palDefilt 9#8) ∧
    decodeTableWord 8 0x2F = some (.wireIdx4 2#4 15#4) ∧
    decodeTableWord 64 0x002929150000F81F =
      some (.wireDxt1 (.read ⟨0xF81F#16, 0x0000#16, 0x15#8, 0x29#8, 0x29#8, 0x00#8⟩)) := by decide
/-- 95 section 9: `WR WIDTH, 6` = (1, 6), `START DEC` = (7, 1); STATUS is read only, 10 R20. -/
theorem test_decodePort :
    decodePort 1 6 = .ok (.width 6#16) ∧ decodePort 7 1 = .ok (.cmd 1#8) ∧
    decodePort 8 0 = .error (.readOnly 8) ∧ decodePort 11 0 = .error (.noSuchRegister 11) ∧
    decodePort 0 256 = .error (.valueTooWide 0) := by decide

/-! ### The codec units -/

/-- 95 V10: 0xABCD unpacks to (173, 121, 107)/255. -/
theorem test_unpack565 : unpack565 0xABCD#16 = ⟨173 / 255, 121 / 255, 107 / 255⟩ := by decide +kernel
/-- 95 V11: (1/3, 2/3, 1/5) packs to 0x5546; (1/62, 1/126, 1/62) ties round up to 0x0821. -/
theorem test_pack565 :
    pack565 ⟨1 / 3, 2 / 3, 1 / 5⟩ = 0x5546#16 ∧ pack565 ⟨1 / 62, 1 / 126, 1 / 62⟩ = 0x0821#16 := by
  decide +kernel
/-- 95 V40: the sixteen alpha indices by tile position. -/
theorem test_alphaIndex :
    (List.range 16).map (alphaIndex 0x0123456789AB#48) = [2, 2, 0, 0, 5, 0, 5, 1, 0, 7, 1, 3, 3, 5, 6, 4] := by
  decide
/-- 95 S3: RAMP_DXT5(64, 192). -/
theorem test_rampDxt5 : rampDxt5 64#8 192#8 =
    [64 / 255, 64 / 85, 448 / 1275, 192 / 425, 704 / 1275, 832 / 1275, 0, 1] := by decide +kernel
/-- 95 V43: 16 x 1/1000 encodes to `01 00 DB 6D B6 DB 6D B6`. -/
theorem test_alpha8Encode : encodeAlpha (alpha8Encode (List.replicate 16 (1 / 1000))) =
    [0x01#8, 0x00#8, 0xDB#8, 0x6D#8, 0xB6#8, 0xDB#8, 0x6D#8, 0xB6#8] := by decide +kernel
/-- 95 V24 under ENC_MODE = THREE: `00 00 FF FF 68 68 68 68`. -/
theorem test_encodeThree :
    encodeColor (encodeTileWith .three ((List.range 16).map (fun p =>
      ⟨((p % 4 : Nat) : Rat) / 3, ((p % 4 : Nat) : Rat) / 3, ((p % 4 : Nat) : Rat) / 3, 1⟩))) =
    [0x00#8, 0x00#8, 0xFF#8, 0xFF#8, 0x68#8, 0x68#8, 0x68#8, 0x68#8] := by decide +kernel

/-! ### One step of each instruction -/

/-- DEC.DXT1 of 95 P1 starts: BUSY, UCNT = 0, ERR = 0. -/
theorem test_decDxt1 : nextWith (exec .decDxt1 (prepared 6 2 16)) (fun t =>
    decide (t.status = .busy) && decide (t.running = some (.dec (.block .dxt1))) && decide (t.ucnt = 0)) =
    true := by decide +kernel
/-- 95 V70: DXT1 0 x 7 is DONE at once. -/
theorem test_decDxt1_empty : nextWith (exec .decDxt1 (prepared 0 7 0)) (fun t =>
    decide (t.status = .done) && decide (t.running = none)) = true := by decide +kernel
/-- DEC.DXT3 of 95 V31 starts. -/
theorem test_decDxt3 : nextWith (exec .decDxt3 (prepared 4 4 16)) (fun t =>
    decide (t.running = some (.dec (.block .dxt3)))) = true := by decide +kernel
/-- A register nothing has written is read like any other (log 2): DEC.DXT3 starts, or ends, right after reset. -/
theorem test_decDxt3_unwritten :
    ∃ t, exec .decDxt3 State.reset = .next t ∧ (t.status = .done ∨ t.status = .busy) := by
  by_cases h : unitTotal State.reset (.dec (.block .dxt3)) = 0
  · exact ⟨_, if_pos h, .inl rfl⟩
  · exact ⟨_, if_neg h, .inr rfl⟩
/-- The host reads HEIGHT right after reset and gets what the register holds (10 R41; log 1). -/
theorem test_readHeight_unwritten :
    step { State.reset with script := [.rd .height] } =
      .next { State.reset with port := .reg (Config.resetHeight.setWidth 32) } := rfl
/-- DEC.DXT5 of 95 P3 starts. -/
theorem test_decDxt5 : nextWith (exec .decDxt5 (prepared 8 4 32)) (fun t =>
    decide (t.running = some (.dec (.block .dxt5)))) = true := by decide +kernel
/-- 95 P4: `WR PALLEN, 17` ends DEC.IDX4 with ERR = 4. -/
theorem test_decIdx4_badPalette : nextWith (exec .decIdx4 { prepared 4 2 4 with pallen := 17 }) (fun t =>
    decide (t.status = .error) && decide (t.err = .invalidPaletteSize) && decide (t.ucnt = 0)) = true := by
  decide +kernel
/-- 45 R262: an odd width has no meaning. -/
theorem test_decIdx4_odd : refusedWith (exec .decIdx4 (prepared 3 2 3)) .oddIdx4Width = true := by
  decide +kernel
/-- 95 V71: FMT = 4 with PALLEN = 32 ends with ERR = 4. -/
theorem test_decIdx8_badPalette : nextWith (exec .decIdx8 { prepared 4 2 8 with pallen := 32 }) (fun t =>
    decide (t.err = .invalidPaletteSize)) = true := by decide +kernel
/-- DEC.IDX8 of 95 V72 starts. -/
theorem test_decIdx8 : nextWith (exec .decIdx8 (prepared 3 1 2)) (fun t =>
    decide (t.status = .busy) && decide (t.running = some (.dec .idx8))) = true := by decide +kernel
/-- ENC.DXT1 of 95 P2 starts. -/
theorem test_encDxt1 : nextWith (exec .encDxt1 (prepared 4 4 8)) (fun t =>
    decide (t.status = .busy) && decide (t.running = some (.enc .dxt1))) = true := by decide +kernel
/-- ENC.DXT3 of 95 P7 starts. -/
theorem test_encDxt3 : nextWith (exec .encDxt3 (prepared 2 2 16)) (fun t =>
    decide (t.running = some (.enc .dxt3))) = true := by decide +kernel
/-- ENC.DXT5 starts with a block of 16 bytes. -/
theorem test_encDxt5 : nextWith (exec .encDxt5 (prepared 1 1 16)) (fun t =>
    decide (t.running = some (.enc .dxt5))) = true := by decide +kernel
/-- 95 V52: entries 8, 15, 40 come from 16, 23, 48; STATUS = DONE, UCNT = 1. -/
theorem test_palDefilt : nextWith (exec (.palDefilt 0) beforeDefilt) (fun t =>
    decide (t.status = .done) && decide (t.ucnt = 1) &&
    decide (Memory.get t.pal 8 = some ⟨16 / 255, 0, 0, 1⟩) &&
    decide (Memory.get t.pal 15 = some ⟨23 / 255, 0, 0, 1⟩) &&
    decide (Memory.get t.pal 40 = some ⟨48 / 255, 0, 0, 1⟩)) = true := by decide +kernel
/-- 95 V52: with PALLEN = 16, ERR = 4, UCNT = 0 and the palette as it was. -/
theorem test_palDefilt_16 : nextWith (exec (.palDefilt 0) { prepared 0 0 0 with pal := palette16 }) (fun t =>
    decide (t.err = .invalidPaletteSize) && decide (t.ucnt = 0) && decide (t.pal = palette16)) = true := by
  decide +kernel
/-- 95 V71: FMT = 9, START DEC: ERR = 1, UCNT = 0. -/
theorem test_illegalDec : nextWith (exec (.illegalDec 9) State.reset) (fun t =>
    decide (t.status = .error) && decide (t.err = .unsupportedFormat) && decide (t.ucnt = 0)) = true := by
  decide +kernel
/-- 95 V71: FMT = 3, START ENC: the same. -/
theorem test_illegalEnc : nextWith (exec (.illegalEnc 3) State.reset) (fun t =>
    decide (t.status = .error) && decide (t.err = .unsupportedFormat)) = true := by decide +kernel
/-- 30 R112 (c). -/
theorem test_reserved : refusedWith (exec (.reserved 0x0004#16) State.reset) .reservedCommand = true := by
  decide +kernel
/-- 95 P1, tile 1: the block of V21 in a 6 x 2 image gives pixels x = 4, 5; SPOS = 16, UCNT = 2, DONE. -/
theorem test_wireDxt1_read :
    nextWith (exec (.wireDxt1 (.read ⟨0x07E0#16, 0x07E0#16, 0x0C#8, 0x03#8, 0xAA#8, 0x55#8⟩))
      { inProgress (.dec (.block .dxt1)) 6 2 16 with spos := 8, ucnt := 1 }) (fun t =>
    decide (t.status = .done) && decide (t.spos = 16) && decide (t.ucnt = 2) &&
    decide (t.image = [(imageKey 4 0, ⟨0, 1, 0, 1⟩), (imageKey 5 0, ⟨0, 0, 0, 0⟩),
      (imageKey 4 1, ⟨0, 0, 0, 0⟩), (imageKey 5 1, ⟨0, 1, 0, 1⟩)])) = true := by decide +kernel
/-- 95 P2 and V26: the stream bytes `1F F8 00 00 15 29 29 00`. -/
theorem test_wireDxt1_write :
    nextWith (exec (.wireDxt1 .write) { inProgress (.enc .dxt1) 4 4 8 with
      image := (List.range 4).flatMap (fun y => (List.range 4).map (fun x =>
        (imageKey x y, ⟨(x : Rat) / 3, 0, (y : Rat) / 3, 1⟩))) }) (fun t =>
    decide (t.status = .done) && decide (t.stream.map Prod.snd =
      [0x1F#8, 0xF8#8, 0x00#8, 0x00#8, 0x15#8, 0x29#8, 0x29#8, 0x00#8])) = true := by decide +kernel
/-- 95 V31: pixels (1, 0), (2, 0), (3, 0) have alphas 1, 8/15, 1/3. -/
theorem test_wireDxt3_read :
    nextWith (exec (.wireDxt3 (.read ⟨⟨0xF0#8, 0x58#8, 0#8, 0#8, 0#8, 0#8, 0#8, 0#8⟩,
        ⟨0xF800#16, 0xF800#16, 0#8, 0#8, 0#8, 0#8⟩⟩)) (inProgress (.dec (.block .dxt3)) 4 4 16)) (fun t =>
    decide (t.spos = 16) && decide (Memory.get t.image (imageKey 1 0) = some ⟨1, 0, 0, 1⟩) &&
    decide (Memory.get t.image (imageKey 2 0) = some ⟨1, 0, 0, 8 / 15⟩) &&
    decide (Memory.get t.image (imageKey 3 0) = some ⟨1, 0, 0, 1 / 3⟩)) = true := by decide +kernel
/-- 95 V33: the block `50 FA ... 1F 00 1F 00 0F 0F 0F 0F`. -/
theorem test_wireDxt3_write :
    nextWith (exec (.wireDxt3 .write) { inProgress (.enc .dxt3) 4 4 16 with
      image := (List.range 4).flatMap (fun y =>
        [(imageKey 0 y, ⟨1, 0, 0, 0⟩), (imageKey 1 y, ⟨1, 0, 0, 1 / 3⟩), (imageKey 2 y, ⟨0, 0, 1, 2 / 3⟩),
          (imageKey 3 y, ⟨0, 0, 1, 1⟩)]) }) (fun t =>
    decide (t.stream.map Prod.snd = [0x50#8, 0xFA#8, 0x50#8, 0xFA#8, 0x50#8, 0xFA#8, 0x50#8, 0xFA#8,
      0x1F#8, 0x00#8, 0x1F#8, 0x00#8, 0x0F#8, 0x0F#8, 0x0F#8, 0x0F#8])) = true := by decide +kernel
/-- 95 P3, tile 1: pixel (6, 0) is (1/2, 0, 1/2, 1/5), pixel (7, 3) is (0, 0, 0, 0). -/
theorem test_wireDxt5_read :
    nextWith (exec (.wireDxt5 (.read ⟨⟨0x00#8, 0xFF#8, 0x688FAC977053#48⟩,
        ⟨0x001F#16, 0xF800#16, 0xE4#8, 0xE4#8, 0xE4#8, 0xE4#8⟩⟩))
      { inProgress (.dec (.block .dxt5)) 8 4 32 with spos := 16, ucnt := 1 }) (fun t =>
    decide (t.status = .done) && decide (Memory.get t.image (imageKey 6 0) = some ⟨1 / 2, 0, 1 / 2, 1 / 5⟩) &&
    decide (Memory.get t.image (imageKey 7 3) = some ⟨0, 0, 0, 0⟩)) = true := by decide +kernel
/-- 95 V48: the block `55 AA E4 6E 46 E4 6E 46 ...`. -/
theorem test_wireDxt5_write :
    nextWith (exec (.wireDxt5 .write) { inProgress (.enc .dxt5) 4 4 16 with
      image := (List.range 4).flatMap (fun y =>
        [(imageKey 0 y, ⟨1, 0, 0, 0⟩), (imageKey 1 y, ⟨1, 0, 0, 1 / 3⟩), (imageKey 2 y, ⟨0, 0, 1, 2 / 3⟩),
          (imageKey 3 y, ⟨0, 0, 1, 1⟩)]) }) (fun t =>
    decide (t.stream.map Prod.snd = [0x55#8, 0xAA#8, 0xE4#8, 0x6E#8, 0x46#8, 0xE4#8, 0x6E#8, 0x46#8,
      0x1F#8, 0x00#8, 0x1F#8, 0x00#8, 0x0F#8, 0x0F#8, 0x0F#8, 0x0F#8])) = true := by decide +kernel
/-- 95 P4, unit 2: byte 0xFE gives pixels (0, 1) = PAL[14] and (1, 1) = PAL[15]. -/
theorem test_wireIdx4 :
    nextWith (exec (.wireIdx4 15#4 14#4)
      { inProgress (.dec .idx4) 4 2 4 with pal := palette16, spos := 2, ucnt := 2 }) (fun t =>
    decide (t.spos = 3) && decide (t.image = [(imageKey 0 1, ⟨14 / 15, 1 / 15, 0, 1⟩),
      (imageKey 1 1, ⟨1, 0, 0, 1⟩)])) = true := by decide +kernel
/-- 95 V72, second byte 0x20 with PALLEN = 16: ERR = 3, UCNT = 1, pixel (0, 0) as it was. -/
theorem test_wireIdx8_outOfRange :
    nextWith (exec (.wireIdx8 0x20#8)
      { inProgress (.dec .idx8) 3 1 2 with pal := palette16, image := [(0, red)], spos := 1, ucnt := 1 }) (fun t =>
    decide (t.err = .paletteIndexOutOfRange) && decide (t.ucnt = 1) &&
    decide (Memory.get t.image (imageKey 0 0) = some red)) = true := by decide +kernel
/-- 95 V51: X = 0x0F with PALLEN = 16 gives PAL[15]. -/
theorem test_wireIdx8 :
    nextWith (exec (.wireIdx8 0x0F#8) { inProgress (.dec .idx8) 3 1 2 with pal := palette16 }) (fun t =>
    decide (t.status = .busy) && decide (t.image = [(imageKey 0 0, ⟨1, 0, 0, 1⟩)])) = true := by decide +kernel
/-- 46 R293: a unit has no meaning outside the loop. -/
theorem test_wireIdx8_alone : refusedWith (exec (.wireIdx8 0x0F#8) (prepared 3 1 2)) .noUnitRunning = true := by
  decide +kernel

/-! ### One step of the machine -/

/-- 95 V72: SLEN = 2 leaves no third byte, so the third step of a 3 x 1 DEC.IDX8 raises TruncatedStream
with UCNT = 2. -/
theorem test_step_truncated :
    nextWith (step { inProgress (.dec .idx8) 3 1 2 with pal := palette16, spos := 2, ucnt := 2 }) (fun t =>
    decide (t.status = .error) && decide (t.err = .truncatedStream) && decide (t.ucnt = 2)) = true := by
  decide +kernel
/-- A write of 3 to CMD runs PAL.DEFILT (46 R308). -/
theorem test_step_command :
    nextWith (step { beforeDefilt with script := [.wr (.cmd 3#8)] }) (fun t =>
    decide (t.status = .done) && decide (t.script = [])) = true := by decide +kernel
/-- 70 R380: after PAL.DEFILT has ended the palette may be read only once STATUS has been; the WAIT of the
`DEFILT` statement (30 R115) is that read. -/
theorem test_step_window :
    refusedWith (step { beforeDefilt with status := .done, unread := true, script := [.rdPal 8#8] })
      .hostAccessBeforeStatusRead = true ∧
    nextWith (step { beforeDefilt with status := .done, unread := true, script := [.wait, .rdPal 8#8] })
      (fun t => decide (t.port = .reg 2) && decide (t.unread = false) && decide (t.script = [.rdPal 8#8])) =
      true := by decide +kernel
/-- A word placed for the fetch is the instruction the next step runs: DEC.DXT1 (46 R300) and the IDX4
byte 0x2F, whose two pixels end a 2 x 1 texture. -/
theorem test_withFetchWord :
    nextWith (step (State.reset.withFetchWord 16 0x0001)) (fun t => decide (t.status = .done)) = true ∧
    nextWith (step (State.reset.withFetchWord 8 0x2F)) (fun t =>
      decide (t.status = .done) && decide (t.ucnt = 1)) = true := by decide +kernel

/-! ### Witnesses: for each statement with hypotheses, values that meet all of them

Where the clauses of a statement have hypotheses of their own there is one witness a clause, at a boundary
value where the clause has a range. -/

/-- A codec with command `c` in progress has its first unit due when a unit is left. -/
theorem due_inProgress {c : Command} {W H : Half} {len : Word}
    (h : 0 < unitCount (commandFmt c) W.toNat H.toNat) : UnitDue (inProgress c W H len) c :=
  ⟨rfl, rfl, h⟩

theorem waits_inProgress (c : Command) (W H : Half) (len : Word) : HostWaits (inProgress c W H len) := .inl rfl

theorem witness_DecodeOfEncodeIsIdentity :
    (Instr.illegalDec 5#8).WellFormed = true ∧ (Instr.illegalEnc 3#8).WellFormed = true ∧
      (Instr.reserved 0x0004#16).WellFormed = true ∧ (Instr.wireIdx4 15#4 0#4).WellFormed = true := by decide
theorem witness_EncodeOfDecodeIsIdentity :
    decode (.unit (.dec .idx8)) [0xFF#8] = .ok (.wireIdx8 0xFF#8) := by decide
/-- Both ends of the ranges: pair 0 is column 3 of row 0, pair 15 is column 0 of row 3 (95 V21's rows). -/
theorem witness_ColorIndexLayout :
    0 < 16 ∧ 15 < 16 ∧ 3 < 4 ∧
      colorIndex (decodeColor 0xE0#8 0x07#8 0xE0#8 0x07#8 0x0C#8 0x03#8 0xAA#8 0x55#8) 1 = 3 ∧
      colorIndex (decodeColor 0xE0#8 0x07#8 0xE0#8 0x07#8 0x0C#8 0x03#8 0xAA#8 0x55#8) 12 = 1 := by decide
/-- Groups 0 and 15 of 95 V40 are positions 3 and 12. -/
theorem witness_AlphaIndexLayout : 0 < 16 ∧ 15 < 16 ∧ alphaIndex 0x0123456789AB#48 3 = 0 ∧
    alphaIndex 0x0123456789AB#48 12 = 3 := by decide
/-- Nibbles 1 and 3 of 95 V31 are 15 and 5. -/
theorem witness_AlphaPlaneLayout : 0 < 16 ∧ 15 < 16 ∧
    planeNibble ⟨0xF0#8, 0x58#8, 0#8, 0#8, 0#8, 0#8, 0#8, 0#8⟩ 1 = 15 ∧
    planeNibble ⟨0xF0#8, 0x58#8, 0#8, 0#8, 0#8, 0#8, 0#8, 0#8⟩ 3 = 5 := by decide
theorem witness_UnpackFollowsFormula : 0 < 32 ∧ 31 < 32 ∧ 0 < 64 ∧ 63 < 64 := by decide
/-- 95 S2's two orders, the equal endpoints of 95 V21, and both ends of the positions. -/
theorem witness_PaletteModesFollowEndpointOrder :
    (0x001F#16).toNat < (0xF800#16).toNat ∧ (0x001F#16).toNat ≤ (0xF800#16).toNat ∧
      (0x07E0#16).toNat ≤ (0x07E0#16).toNat ∧ 0 < 16 ∧ 15 < 16 := by decide
theorem witness_AlphaOverridesColorAlpha : 0 < 16 ∧ 15 < 16 := by decide
/-- The tile of 95 V23. -/
theorem witness_EncoderWritesHighEndpointFirst :
    TileInRange ((List.range 16).map (fun p => if p % 4 < 2 then ⟨0, 0, 0, 1⟩ else ⟨1, 1, 1, 1⟩)) := by
  unfold TileInRange
  decide +kernel
/-- One opaque grey and one white sample at A = 1/2, which is transparent: the sets of 41 R156's example, {16},
{32}, {16}. -/
theorem witness_EncoderWritesHighEndpointFirst_fit :
    let T : List Pixel := [⟨1 / 2, 1 / 2, 1 / 2, 1⟩, ⟨1, 1, 1, 1 / 2⟩]
    TileInRange T ∧
      (∀ v : Nat, v ∈ [16] ↔ ∃ p ∈ T, 1 / 2 < p.a ∧ v = rnd (31 * p.r)) ∧
      (∀ v : Nat, v ∈ [32] ↔ ∃ p ∈ T, 1 / 2 < p.a ∧ v = rnd (63 * p.g)) ∧
      (∀ v : Nat, v ∈ [16] ↔ ∃ p ∈ T, 1 / 2 < p.a ∧ v = rnd (31 * p.b)) := by
  have q5 : rnd (31 * (1 / 2)) = 16 := by decide +kernel
  have q6 : rnd (63 * (1 / 2)) = 32 := by decide +kernel
  have o : (1 / 2 : Rat) < 1 := by decide +kernel
  refine ⟨?_, fun v => ?_, fun v => ?_, fun v => ?_⟩
  · unfold TileInRange
    decide +kernel
  · simp only [List.mem_cons, List.not_mem_nil, or_false, exists_eq_or_imp, exists_eq_left, q5, o, true_and,
      lt_irrefl, false_and]
  · simp only [List.mem_cons, List.not_mem_nil, or_false, exists_eq_or_imp, exists_eq_left, q6, o, true_and,
      lt_irrefl, false_and]
  · simp only [List.mem_cons, List.not_mem_nil, or_false, exists_eq_or_imp, exists_eq_left, q5, o, true_and,
      lt_irrefl, false_and]
/-- 95 V28: position 7 has A = 1/2, position 8 has A = 51/100. -/
theorem witness_ColorIndicesAreNearest :
    ∃ (T : List Pixel) (x y : Pixel), T.length = 16 ∧ (T[7]? = some x ∧ x.a ≤ 1 / 2) ∧
      (T[8]? = some y ∧ 1 / 2 < y.a) :=
  ⟨List.replicate 8 ⟨1, 1, 1, 1 / 2⟩ ++ List.replicate 8 ⟨1, 1, 1, 51 / 100⟩, ⟨1, 1, 1, 1 / 2⟩,
    ⟨1, 1, 1, 51 / 100⟩, by decide +kernel⟩
theorem witness_PackedColorIndicesReadBack :
    ([0, 1, 2, 3, 0, 1, 2, 3, 0, 1, 2, 3, 3, 3, 3, 3] : List Nat).length = 16 ∧
      (∀ j ∈ ([0, 1, 2, 3, 0, 1, 2, 3, 0, 1, 2, 3, 3, 3, 3, 3] : List Nat), j < 4) ∧ 15 < 16 := by decide
/-- 95 V28, second line: 16 x (1, 1, 1, 1/2). -/
theorem witness_TransparentTileEncodesToDefault :
    (List.replicate 16 (⟨1, 1, 1, 1 / 2⟩ : Pixel)).length = 16 ∧
      ∀ p ∈ List.replicate 16 (⟨1, 1, 1, 1 / 2⟩ : Pixel), p.a ≤ 1 / 2 := by decide +kernel
/-- 95 S1's pixel. -/
theorem witness_SolidTileRoundTrip : red.inRange = true ∧ 1 / 2 < red.a := by decide +kernel
/-- No value, one, two, and 44 R244's {3, 4, 6, 11} with a repetition and out of order: there the spec's
m = 13/5, b = 21/10 solve the normal equations. -/
theorem witness_SelectorWorkedExamples :
    (∀ v : Nat, v ∈ ([] : List Nat) ↔ v ∈ ([] : List Nat)) ∧ ([] : List Nat).Pairwise (· < ·) ∧
    (∀ v : Nat, v ∈ [16, 16] ↔ v ∈ [16]) ∧ ([16] : List Nat).Pairwise (· < ·) ∧
    (∀ v : Nat, v ∈ [9, 3] ↔ v ∈ [3, 9]) ∧ ([3, 9] : List Nat).Pairwise (· < ·) ∧
    (∀ v : Nat, v ∈ [11, 3, 6, 4, 6] ↔ v ∈ [3, 4, 6, 11]) ∧ ([3, 4, 6, 11] : List Nat).Pairwise (· < ·) ∧
    3 ≤ [3, 4, 6, 11].length ∧
    (13 / 5 : Rat) * (∑ i ∈ Finset.range 4, (i : Rat)) + 21 / 10 * 4 =
      ∑ i ∈ Finset.range 4, (([3, 4, 6, 11] : List Nat).getD i 0 : Rat) ∧
    (13 / 5 : Rat) * (∑ i ∈ Finset.range 4, (i : Rat) ^ 2) + 21 / 10 * (∑ i ∈ Finset.range 4, (i : Rat)) =
      ∑ i ∈ Finset.range 4, (i : Rat) * ([3, 4, 6, 11] : List Nat).getD i 0 := by
  refine ⟨by simp, by decide, by simp, by decide, by simp; omega, by decide, by simp; omega, by decide, by decide,
    ?_, ?_⟩ <;> norm_num [Finset.sum_range_succ]
/-- 95 V60's {0, 16, 31}, and one value at the bound. -/
theorem witness_SelectorPairOrdered :
    (([31, 0, 16] : List Nat) ≠ [] ∧ (∀ v ∈ ([31, 0, 16] : List Nat), v ≤ 31) ∧
      ∃ v ∈ ([31, 0, 16] : List Nat), ∃ w ∈ ([31, 0, 16] : List Nat), v ≠ w) ∧
    ([31] : List Nat) ≠ [] ∧ ∀ v ∈ ([31] : List Nat), v ≤ 31 := by decide
/-- 95 S3: (255, 0); (0, 255); (128, 128). -/
theorem witness_AlphaRampModes : (0#8).toNat < (255#8).toNat ∧ (0#8).toNat ≤ (255#8).toNat ∧
    (128#8).toNat ≤ (128#8).toNat := by decide
theorem witness_PackedAlphaIndicesReadBack :
    ([0, 1, 2, 3, 4, 5, 6, 7, 7, 6, 5, 4, 3, 2, 1, 0] : List Nat).length = 16 ∧
      (∀ j ∈ ([0, 1, 2, 3, 4, 5, 6, 7, 7, 6, 5, 4, 3, 2, 1, 0] : List Nat), j < 8) ∧ 15 < 16 := by decide
/-- 42 R182's ties 1/30 and 1/2 among sixteen samples, at both ends of the positions. -/
theorem witness_AlphaPlaneRoundTrip :
    let AL : List Sample := 1 / 30 :: List.replicate 14 (1 / 2) ++ [1]
    AL.length = 16 ∧ (∀ x ∈ AL, 0 ≤ x ∧ x ≤ 1) ∧ (AL[0]? = some (1 / 30) ∧ AL[15]? = some 1) ∧
      (AL[2 * 0]? = some (1 / 30) ∧ AL[2 * 0 + 1]? = some (1 / 2)) ∧
      (AL[2 * 7]? = some (1 / 2) ∧ AL[2 * 7 + 1]? = some 1) := by decide +kernel
/-- 43 R210: exact 0 and 1 are left out, and 1/1000, which quantises to 0, is in; and 43 R217 (a). -/
theorem witness_AlphaModeFollowsExtremes_fit :
    (∀ x ∈ ([0, 1, 1 / 1000] : List Sample), 0 ≤ x ∧ x ≤ 1) ∧ (∀ x ∈ ([0, 1] : List Sample), 0 ≤ x ∧ x ≤ 1) ∧
    (∀ v : Nat, v ∈ [0] ↔ ∃ x ∈ ([0, 1, 1 / 1000] : List Sample), (x ≠ 0 ∧ x ≠ 1) ∧ v = rnd (255 * x)) ∧
      ([0, 1] : List Sample) ≠ [] ∧ ∀ x ∈ ([0, 1] : List Sample), x = 0 ∨ x = 1 := by
  have q : rnd (255 * (1 / 1000)) = 0 := by decide +kernel
  have n : (1 / 1000 : Rat) ≠ 0 ∧ (1 / 1000 : Rat) ≠ 1 := by decide +kernel
  refine ⟨by decide +kernel, by decide +kernel, fun v => ⟨fun h => ⟨1 / 1000, by simp, n, ?_⟩, fun ⟨x, hx, hn, hv⟩ => ?_⟩, by simp, by simp⟩
  · rw [q]; exact List.mem_singleton.1 h
  · obtain rfl | rfl | rfl : x = 0 ∨ x = 1 ∨ x = 1 / 1000 := by simpa using hx
    · exact absurd rfl hn.1
    · exact absurd rfl hn.2
    · exact List.mem_singleton.2 (hv.trans q)
/-- 95 V43 and V46: an extreme sample; none with two values; none with one; none with the value 0. -/
theorem witness_AlphaModeFollowsExtremes :
    ((∀ x ∈ ([0, 1] : List Sample), 0 ≤ x ∧ x ≤ 1) ∧ ∃ x ∈ ([0, 1] : List Sample), x = 0 ∨ x = 1) ∧
    ((∀ x ∈ ([1 / 4, 3 / 4] : List Sample), 0 ≤ x ∧ x ≤ 1) ∧
      (∀ x ∈ ([1 / 4, 3 / 4] : List Sample), x ≠ 0 ∧ x ≠ 1) ∧
      (alphaFit [1 / 4, 3 / 4]).1 < (alphaFit [1 / 4, 3 / 4]).2) ∧
    ((∀ x ∈ ([1 / 2] : List Sample), x ≠ 0 ∧ x ≠ 1) ∧ (alphaFit [1 / 2]).1 = (alphaFit [1 / 2]).2 ∧
      1 ≤ (alphaFit [1 / 2]).1) ∧
    ((∀ x ∈ ([1 / 1000] : List Sample), x ≠ 0 ∧ x ≠ 1) ∧
      (alphaFit [1 / 1000]).1 = (alphaFit [1 / 1000]).2 ∧ (alphaFit [1 / 1000]).1 = 0) := by decide +kernel
theorem witness_AlphaIndicesAreNearest :
    (List.replicate 16 (4 / 5 : Sample)).length = 16 ∧
      (List.replicate 16 (4 / 5 : Sample))[15]? = some (4 / 5) := by decide +kernel
theorem witness_IdleCodecStays : State.reset.status ≠ .busy ∧ State.reset.script = [] := by decide
/-- A reset of an idle codec, of a DEC and of an ENC in progress, and of a BUSY codec with no command. -/
theorem witness_ResetAction :
    (∃ s : State, s.script = [.reset] ∧ s.status ≠ .busy) ∧
    (∃ s : State, s.script = [.reset] ∧ s.status = .busy ∧ s.running = some (.dec .idx4) ∧
      s.width.toNat % 2 = 0) ∧
    (∃ s : State, s.script = [.reset] ∧ s.status = .busy ∧ s.running = some (.enc .dxt1)) ∧
    ∃ s : State, s.script = [.reset] ∧ s.status = .busy ∧ s.running = none :=
  ⟨⟨{ State.reset with script := [.reset] }, rfl, by decide⟩,
    ⟨{ inProgress (.dec .idx4) 4 2 4 with script := [.reset] }, rfl, rfl, rfl, by decide⟩,
    ⟨{ inProgress (.enc .dxt1) 4 4 8 with script := [.reset] }, rfl, rfl, rfl⟩,
    ⟨{ State.reset with status := .busy, script := [.reset] }, rfl, rfl, rfl⟩⟩
/-- A write of 1 with FMT written, and a write of 3 after reset, FMT unwritten. -/
theorem witness_StepRunsWrittenCommand :
    (∃ s : State, s.status ≠ .busy ∧ s.unread = false ∧ s.script = [.wr (.cmd 1#8)] ∧ s.written.fmt = true ∧
      decode .command [1#8, s.fmt] = .ok .decDxt1) ∧
    ∃ s : State, s.status ≠ .busy ∧ s.unread = false ∧ s.script = [.wr (.cmd 3#8)] ∧ s.written.fmt = false ∧
      decode .command [3#8, s.fmt] = .ok (.palDefilt Config.resetFmt) :=
  ⟨⟨{ prepared 4 4 8 with script := [.wr (.cmd 1#8)] }, by decide, rfl, rfl, rfl, by decide⟩,
    ⟨{ State.reset with script := [.wr (.cmd 3#8)] }, by decide, rfl, rfl, rfl, rfl⟩⟩
/-- A unit of DEC.IDX8 whose byte is the last below SLEN, and a unit of ENC.DXT5. -/
theorem witness_StepRunsDueUnit :
    (∃ s : State, HostWaits s ∧ UnitDue s (.dec .idx8) ∧ UnitFits s (.dec .idx8) ∧
      Memory.readAll s.stream (List.range' s.spos.toNat (unitSize .idx8)) = some [0x0F#8] ∧
      decode (.unit (.dec .idx8)) [0x0F#8] = .ok (.wireIdx8 0x0F#8)) ∧
    ∃ s : State, HostWaits s ∧ UnitDue s (.enc .dxt5) ∧
      decode (.unit (.enc .dxt5)) [] = .ok (.wireDxt5 .write) :=
  ⟨⟨{ inProgress (.dec .idx8) 1 1 1 with stream := [(0, 0x0F#8)] }, .inl rfl, ⟨rfl, rfl, by decide⟩,
      by unfold UnitFits; decide, by decide, by decide⟩,
    ⟨inProgress (.enc .dxt5) 1 1 16, waits_inProgress .., due_inProgress (by decide), by decide⟩⟩
/-- While BUSY an action other than the three and a poll; and a read of the palette after a PAL.DEFILT that has
ended, STATUS not yet read. -/
theorem witness_BusyHostAccess :
    (∃ s : State, s.script = [.rdPal 0#8] ∧ s.status = .busy) ∧
    (∃ s : State, s.script = [.rd .status] ∧ s.status = .busy) ∧
    ∃ s : State, s.script = [.rdPal 0#8] ∧ s.status ≠ .busy ∧ s.unread = true :=
  ⟨⟨{ inProgress (.dec .idx8) 1 1 0 with script := [.rdPal 0#8] }, rfl, rfl⟩,
    ⟨{ inProgress (.enc .dxt1) 1 1 8 with script := [.rd .status] }, rfl, rfl⟩,
    ⟨{ beforeDefilt with status := .done, ucnt := 1, unread := true, script := [.rdPal 0#8] }, rfl, by decide, rfl⟩⟩
/-- The widest value of a 32-bit, a 16-bit and the 8-bit register. -/
theorem witness_HostRegisterWriteReadsBack :
    (∃ s : State, s.status ≠ .busy ∧ s.unread = false ∧ s.script = [.wr (.slen 0xFFFFFFFF#32), .rd .slen]) ∧
    (∃ s : State, s.status ≠ .busy ∧ s.unread = false ∧ s.script = [.wr (.pallen 0xFFFF#16), .rd .pallen]) ∧
    ∃ s : State, s.status ≠ .busy ∧ s.unread = false ∧ s.script = [.wr (.fmt 0xFF#8), .rd .fmt] :=
  ⟨⟨{ State.reset with script := [.wr (.slen 0xFFFFFFFF#32), .rd .slen] }, by decide, rfl, rfl⟩,
    ⟨{ State.reset with script := [.wr (.pallen 0xFFFF#16), .rd .pallen] }, by decide, rfl, rfl⟩,
    ⟨{ State.reset with script := [.wr (.fmt 0xFF#8), .rd .fmt] }, by decide, rfl, rfl⟩⟩
/-- A read of each kind of register right after reset, nothing being written. -/
theorem witness_HostRegisterWriteReadsBack_unwritten :
    ∀ r : Reg, r = .fmt ∨ r = .width ∨ r = .spos → ∃ s : State, s.status ≠ .busy ∧ s.unread = false ∧
      s.script = [.rd r] ∧ s.written = ⟨false, false, false, false, false, false, false⟩ :=
  fun r _ => ⟨{ State.reset with script := [.rd r] }, show Status.idle ≠ .busy by decide, rfl, rfl, rfl⟩
/-- A read of each of the three registers and a WAIT, STATUS being IDLE, DONE and ERROR. -/
theorem witness_HostReadsStatusErrUcnt :
    (∃ s : State, s.status = .idle ∧ s.script = [.rd .status]) ∧
    (∃ s : State, s.status = .done ∧ s.unread = true ∧ s.script = [.wait]) ∧
    (∃ s : State, s.status = .error ∧ s.unread = false ∧ s.err = .invalidPaletteSize ∧ s.script = [.rd .err]) ∧
    ∃ s : State, s.status = .done ∧ s.unread = false ∧ s.script = [.rd .ucnt] :=
  ⟨⟨{ State.reset with script := [.rd .status] }, rfl, rfl⟩,
    ⟨{ State.reset with status := .done, unread := true, script := [.wait] }, rfl, rfl, rfl⟩,
    ⟨{ State.reset with status := .error, err := .invalidPaletteSize, script := [.rd .err] }, rfl, rfl, rfl, rfl⟩,
    ⟨{ State.reset with status := .done, script := [.rd .ucnt] }, rfl, rfl, rfl⟩⟩
/-- Writes and reads of the last stream offset, the last pixel, the last palette entry. -/
theorem witness_HostMemoryWritesReadBack :
    (∃ s : State, s.status ≠ .busy ∧ s.unread = false ∧ s.script = [.wrs 0xFFFFFFFF#32 [0x55#8]] ∧
      (0xFFFFFFFF#32).toNat + [0x55#8].length ≤ 2 ^ 32) ∧
    (∃ s : State, s.status ≠ .busy ∧ s.unread = false ∧ s.script = [.wrImg 0xFFFF#16 0xFFFF#16 red] ∧
      red.inRange = true) ∧
    (∃ s : State, s.status ≠ .busy ∧ s.unread = false ∧ s.script = [.wrPal 0xFF#8 red] ∧ red.inRange = true) ∧
    (∃ s : State, s.status ≠ .busy ∧ s.unread = false ∧ s.script = [.rdStream 0xFFFFFFFF#32] ∧
      Memory.get s.stream (0xFFFFFFFF#32).toNat = some 0x55#8) ∧
    (∃ s : State, s.status ≠ .busy ∧ s.unread = false ∧ s.script = [.rdImg 0xFFFF#16 0xFFFF#16] ∧
      Memory.get s.image (imageKey (0xFFFF#16).toNat (0xFFFF#16).toNat) = some red) ∧
    ∃ s : State, s.status ≠ .busy ∧ s.unread = false ∧ s.script = [.rdPal 0xFF#8] ∧
      Memory.get s.pal (0xFF#8).toNat = some red :=
  ⟨⟨{ State.reset with script := [.wrs 0xFFFFFFFF#32 [0x55#8]] }, by decide, rfl, rfl, by decide⟩,
    ⟨{ State.reset with script := [.wrImg 0xFFFF#16 0xFFFF#16 red] }, by decide, rfl, rfl, by decide +kernel⟩,
    ⟨{ State.reset with script := [.wrPal 0xFF#8 red] }, by decide, rfl, rfl, by decide +kernel⟩,
    ⟨{ State.reset with script := [.rdStream 0xFFFFFFFF#32], stream := [(0xFFFFFFFF, 0x55#8)] },
      by decide, rfl, rfl, by decide⟩,
    ⟨{ State.reset with script := [.rdImg 0xFFFF#16 0xFFFF#16], image := [(imageKey 0xFFFF 0xFFFF, red)] },
      by decide, rfl, rfl, by decide⟩,
    ⟨{ State.reset with script := [.rdPal 0xFF#8], pal := [(0xFF, red)] }, by decide, rfl, rfl, by decide⟩⟩
/-- 95 V70: a 1 x 1 image and the 0 x 7 image. -/
theorem witness_BlockCommandsStart :
    ((prepared 1 1 16).status ≠ .busy ∧ 0 < (prepared 1 1 16).width.toNat ∧ 0 < (prepared 1 1 16).height.toNat) ∧
    (prepared 0 7 0).status ≠ .busy ∧ (prepared 0 7 0).width.toNat = 0 :=
  ⟨⟨by decide, by decide, by decide⟩, by decide, by decide⟩
/-- 95 V70's IDX4 6 x 3, an odd width for IDX8, and an empty image. -/
theorem witness_IndexedCommandsStart :
    ((prepared 6 3 9).status ≠ .busy ∧ PaletteLengthLegal (prepared 6 3 9) ∧
      (prepared 6 3 9).width.toNat % 2 = 0 ∧ 0 < (prepared 6 3 9).width.toNat * (prepared 6 3 9).height.toNat) ∧
    (PaletteLengthLegal (prepared 3 1 3) ∧
      0 < (prepared 3 1 3).width.toNat * (prepared 3 1 3).height.toNat) ∧
    PaletteLengthLegal (prepared 2 0 0) ∧
      (prepared 2 0 0).width.toNat % 2 = 0 ∧ (prepared 2 0 0).width.toNat * (prepared 2 0 0).height.toNat = 0 :=
  ⟨⟨by decide, .inl rfl, by decide, by decide⟩,
    ⟨.inl rfl, by decide⟩,
    .inl rfl, by decide, by decide⟩
theorem witness_UnsupportedFormatEndsCommand :
    4 < (5#8).toNat ∧ 4 < (255#8).toNat ∧ 2 < (3#8).toNat ∧ 2 < (255#8).toNat ∧ State.reset.status ≠ .busy := by
  decide
/-- 95 P4's 17 and 95 V71's 32 for DEC, 16 for PAL.DEFILT. -/
theorem witness_InvalidPaletteSizeEndsCommand :
    (∃ s : State, s.status ≠ .busy ∧ s.pallen.toNat = 17) ∧
    (∃ s : State, s.status ≠ .busy ∧ s.pallen.toNat = 255) ∧
    ∃ s : State, s.status ≠ .busy ∧ s.pallen.toNat ≠ 256 :=
  ⟨⟨{ prepared 4 2 4 with pallen := 17 }, by decide, by decide⟩,
    ⟨{ prepared 4 2 4 with pallen := 255 }, by decide, by decide⟩,
    ⟨prepared 4 2 4, by decide, by decide⟩⟩
/-- RESERVED's neighbour; an odd width; and, of the completing commands, one right after reset (nothing written), a
DEC.IDX4 of an even width, one of an odd width whose PALLEN ends it first, a PAL.DEFILT of a loaded palette and one
whose PALLEN ends it. -/
theorem witness_CommandsWithoutMeaningRefused :
    ((prepared 3 2 3).status ≠ .busy ∧ PaletteLengthLegal (prepared 3 2 3) ∧ (prepared 3 2 3).width.toNat % 2 = 1) ∧
    (slotOf .encDxt5 = .command ∧ State.reset.status ≠ .busy) ∧
    (slotOf .decIdx4 = .command ∧ PaletteLengthLegal (prepared 2 1 1) ∧ (prepared 2 1 1).width.toNat % 2 = 0) ∧
    ¬ PaletteLengthLegal { prepared 3 1 3 with pallen := 17 } ∧
    (slotOf (.palDefilt 0#8) = .command ∧ beforeDefilt.pallen.toNat = 256 ∧
      ∀ j : Nat, j < 256 → (Memory.get beforeDefilt.pal j).isSome) ∧
    (prepared 3 2 3).pallen.toNat ≠ 256 :=
  ⟨⟨by decide, .inl rfl, by decide⟩, by decide, ⟨rfl, .inl rfl, by decide⟩, by unfold PaletteLengthLegal; decide,
    ⟨rfl, by decide, by decide +kernel⟩, by decide⟩
/-- An instruction answers a next state in a state with nothing written. -/
theorem witness_CommandsWithoutMeaningRefused_marks : ∃ t, exec (.illegalEnc 3#8) State.reset = .next t := ⟨_, rfl⟩
/-- The last byte of a DXT1 block, a pixel of a 1 x 1 image, and palette entries, none of them written. -/
theorem witness_UnwrittenItemsRefused :
    (∃ s : State, UnitDue s (.dec (.block .dxt1)) ∧ HostWaits s ∧ UnitFits s (.dec (.block .dxt1)) ∧
      s.spos.toNat ≤ 7 ∧ 7 < s.spos.toNat + unitSize (.block .dxt1) ∧ Memory.get s.stream 7 = none) ∧
    (∃ s : State, UnitDue s (.enc .dxt1) ∧ tileInside s.width.toNat s.height.toNat s.ucnt.toNat 0 = true ∧
      Memory.get s.image (imageKey (tileX s.width.toNat s.ucnt.toNat 0)
        (tileY s.width.toNat s.ucnt.toNat 0)) = none) ∧
    (∃ s : State, UnitDue s (.dec .idx4) ∧ UnitFits s (.dec .idx4) ∧ PaletteLengthLegal s ∧
      Memory.get s.pal (15#4).toNat = none) ∧
    (∃ s : State, UnitDue s (.dec .idx8) ∧ UnitFits s (.dec .idx8) ∧ (15#8).toNat < s.pallen.toNat ∧
      Memory.get s.pal (15#8).toNat = none) ∧
    (∃ s : State, s.status ≠ .busy ∧ s.pallen.toNat = 256 ∧
      Memory.get s.pal 255 = none) :=
  ⟨⟨{ inProgress (.dec (.block .dxt1)) 4 4 8 with stream := cellsAt 0 (List.replicate 7 0#8) },
      ⟨rfl, rfl, by decide⟩, .inl rfl, by unfold UnitFits; decide, by decide, by decide, by decide⟩,
    ⟨inProgress (.enc .dxt1) 1 1 8, due_inProgress (by decide), by decide, rfl⟩,
    ⟨inProgress (.dec .idx4) 2 1 1, due_inProgress (by decide), by unfold UnitFits; decide, .inl rfl, rfl⟩,
    ⟨inProgress (.dec .idx8) 1 1 1, due_inProgress (by decide), by unfold UnitFits; decide, by decide, rfl⟩,
    ⟨{ prepared 0 0 0 with pallen := 256 }, by decide, by decide, rfl⟩⟩
/-- After reset every memory is unwritten, and the host reads a cell of each. -/
theorem witness_UnwrittenItemsRefused_reads :
    ∀ a : HostAction, a = .rdStream 0 ∨ a = .rdImg 0 0 ∨ a = .rdPal 0 →
      ∃ s : State, s.status ≠ .busy ∧ s.unread = false ∧ s.script = [a] ∧
        Memory.get s.stream (0#32).toNat = none ∧ Memory.get s.pal (0#8).toNat = none ∧
        Memory.get s.image (imageKey (0#16).toNat (0#16).toNat) = none :=
  fun a _ => ⟨{ State.reset with script := [a] }, show Status.idle ≠ .busy by decide, rfl, rfl, rfl, rfl, rfl⟩
theorem witness_DefilterPermutesPalette :
    beforeDefilt.status ≠ .busy ∧ beforeDefilt.pallen.toNat = 256 ∧
      ∀ i : Nat, i < 256 → (Memory.get beforeDefilt.pal i).isSome :=
  ⟨by decide, by decide, by decide +kernel⟩
theorem witness_DefilterPermutesPalette_otherLength :
    (prepared 0 0 0).status ≠ .busy ∧ (prepared 0 0 0).pallen.toNat ≠ 256 := ⟨by decide, by decide⟩
theorem witness_DefilterTwiceRestoresPalette :
    beforeDefilt.status ≠ .busy ∧ beforeDefilt.pallen.toNat = 256 ∧
      ∀ i : Nat, i < 256 → (Memory.get beforeDefilt.pal i).isSome := witness_DefilterPermutesPalette
/-- The first unit of a texture that fits exactly, for the three formats. -/
theorem witness_DecodedBlockUnit :
    (UnitDue (inProgress (.dec (.block .dxt1)) 6 2 8) (.dec (.block .dxt1)) ∧
      UnitFits (inProgress (.dec (.block .dxt1)) 6 2 8) (.dec (.block .dxt1))) ∧
    (UnitDue (inProgress (.dec (.block .dxt3)) 4 4 16) (.dec (.block .dxt3)) ∧
      UnitFits (inProgress (.dec (.block .dxt3)) 4 4 16) (.dec (.block .dxt3))) ∧
    UnitDue (inProgress (.dec (.block .dxt5)) 8 4 32) (.dec (.block .dxt5)) ∧
      UnitFits (inProgress (.dec (.block .dxt5)) 8 4 32) (.dec (.block .dxt5)) := by
  unfold UnitFits
  exact ⟨⟨due_inProgress (by decide), by decide⟩, ⟨due_inProgress (by decide), by decide⟩,
    due_inProgress (by decide), by decide⟩
theorem witness_DecodedIdx4Unit :
    ∃ (s : State) (pl ph : Pixel), UnitDue s (.dec .idx4) ∧ UnitFits s (.dec .idx4) ∧ PaletteLengthLegal s ∧
      Memory.get s.pal (15#4).toNat = some pl ∧ Memory.get s.pal (2#4).toNat = some ph :=
  ⟨{ inProgress (.dec .idx4) 2 1 1 with pal := palette16 }, ⟨1, 0, 0, 1⟩, ⟨2 / 15, 13 / 15, 0, 1⟩,
    ⟨rfl, rfl, by decide⟩, by unfold UnitFits; decide, .inl rfl, by decide +kernel, by decide +kernel⟩
theorem witness_DecodedIdx8Unit :
    ∃ (s : State) (p : Pixel), UnitDue s (.dec .idx8) ∧ UnitFits s (.dec .idx8) ∧
      (15#8).toNat < s.pallen.toNat ∧ Memory.get s.pal (15#8).toNat = some p :=
  ⟨{ inProgress (.dec .idx8) 3 1 3 with pal := palette16 }, ⟨1, 0, 0, 1⟩,
    ⟨rfl, rfl, by decide⟩, by unfold UnitFits; decide, by decide, by decide +kernel⟩
/-- 95 P7's shape: a 2 x 2 image, twelve of the sixteen samples outside it, and the block just fits. -/
theorem witness_EncodedBlockUnit :
    ∃ s : State, UnitDue s (.enc .dxt3) ∧ UnitFits s (.enc .dxt3) ∧
      ∀ p : Nat, p < 16 → tileInside s.width.toNat s.height.toNat s.ucnt.toNat p = true →
        (Memory.get s.image (imageKey (tileX s.width.toNat s.ucnt.toNat p)
          (tileY s.width.toNat s.ucnt.toNat p))).isSome :=
  ⟨{ inProgress (.enc .dxt3) 2 2 16 with image := redImage 2 2 }, ⟨rfl, rfl, by decide⟩,
    by unfold UnitFits; decide, by decide +kernel⟩
/-- 95 P6: unit 1 of an 8 x 4 DXT1 texture, one byte short; 95 S4: an IDX4 unit with nothing left. -/
theorem witness_TruncatedDecode :
    (∃ s : State, UnitDue s (.dec (.block .dxt1)) ∧ HostWaits s ∧ ¬ UnitFits s (.dec (.block .dxt1))) ∧
    ∃ s : State, UnitDue s (.dec .idx4) ∧ HostWaits s ∧ ¬ UnitFits s (.dec .idx4) ∧ s.width.toNat % 2 = 0 :=
  ⟨⟨{ inProgress (.dec (.block .dxt1)) 8 4 15 with spos := 8, ucnt := 1 }, ⟨rfl, rfl, by decide⟩, .inl rfl,
      by unfold UnitFits; decide⟩,
    ⟨{ inProgress (.dec .idx4) 4 2 3 with spos := 3, ucnt := 3 }, ⟨rfl, rfl, by decide⟩, .inl rfl,
      by unfold UnitFits; decide, by decide⟩⟩
theorem witness_TruncatedEncode :
    ∃ s : State, UnitDue s (.enc .dxt1) ∧ ¬ UnitFits s (.enc .dxt1) ∧
      ∀ p : Nat, p < 16 → tileInside s.width.toNat s.height.toNat s.ucnt.toNat p = true →
        (Memory.get s.image (imageKey (tileX s.width.toNat s.ucnt.toNat p)
          (tileY s.width.toNat s.ucnt.toNat p))).isSome :=
  ⟨{ inProgress (.enc .dxt1) 1 1 7 with image := redImage 1 1 }, ⟨rfl, rfl, by decide⟩,
    by unfold UnitFits; decide, by decide +kernel⟩
/-- 95 V51: index 0x10 with PALLEN = 16; and an IDX4 unit that answers a next state. -/
theorem witness_IndexOutOfRangeEndsDecode :
    (∃ s : State, UnitDue s (.dec .idx8) ∧ UnitFits s (.dec .idx8) ∧ s.pallen.toNat ≤ (0x10#8).toNat) ∧
    ∃ (s t : State), UnitFits s (.dec .idx4) ∧ PaletteLengthLegal s ∧ exec (.wireIdx4 2#4 15#4) s = .next t :=
  ⟨⟨inProgress (.dec .idx8) 3 1 2, due_inProgress (by decide), by unfold UnitFits; decide, by decide⟩,
    ⟨{ inProgress (.dec .idx4) 2 1 1 with pal := palette16 }, _, by unfold UnitFits; decide, .inl rfl, rfl⟩⟩
theorem witness_EveryPixelInOneUnit :
    (0 < 1 ∧ 0 < 1 ∧ 1 ≤ 65535) ∧ (65534 < 65535 ∧ 65535 ≤ 65535) ∧ 5 < 6 ∧ 2 < 3 ∧ 6 % 2 = 0 := by decide
theorem witness_DescriptorsNeverWrittenByCodec : ∃ s t : State, exec (.illegalDec 9#8) s = .next t :=
  ⟨State.reset, _, rfl⟩
theorem witness_MemoriesWrittenByTheirCommandsOnly : ∃ s t : State, exec .decDxt1 s = .next t :=
  ⟨prepared 6 2 16, _, rfl⟩
theorem reset_memoriesCanonical : MemoriesCanonical State.reset :=
  ⟨.nil, .nil, .nil, by decide, by decide, by decide⟩
theorem reset_samplesInRange : SamplesInRange State.reset := ⟨by decide, by decide⟩
theorem reset_registersLegal : RegistersLegal State.reset :=
  ⟨by decide, by decide, by simp [State.reset], by decide, by decide⟩
/-- A step from a state that meets the three invariants: a DEC.IDX8 unit of 95 V72. -/
def idx8Running : State :=
  { inProgress (.dec .idx8) 3 1 3 with pal := palette16, stream := [(0, 0x00#8), (1, 0x01#8), (2, 0x02#8)] }
theorem witness_StepKeepsMemoriesCanonical : MemoriesCanonical idx8Running ∧ ∃ t, step idx8Running = .next t :=
  ⟨⟨by unfold Memory.wf; decide +kernel, by unfold Memory.wf; decide +kernel, by unfold Memory.wf; decide +kernel,
    by decide +kernel, by decide +kernel, by decide +kernel⟩, _, rfl⟩
theorem witness_StepKeepsSamplesInRange : SamplesInRange idx8Running ∧ ∃ t, step idx8Running = .next t :=
  ⟨⟨by decide +kernel, by decide +kernel⟩, _, rfl⟩
theorem idx8Running_legal : RegistersLegal idx8Running := by
  refine ⟨by decide, by decide, fun c hc => ?_, by decide, by decide⟩
  obtain rfl : Command.dec .idx8 = c := Option.some.inj hc
  exact ⟨by decide, fun _ => .inl rfl, by decide, by decide, .inl rfl⟩
theorem witness_StepKeepsRegistersLegal : RegistersLegal idx8Running ∧ ∃ t, step idx8Running = .next t :=
  ⟨idx8Running_legal, _, rfl⟩
theorem witness_EveryCommandEnds :
    RegistersLegal idx8Running ∧ idx8Running.running = some (.dec .idx8) ∧ HostWaits idx8Running :=
  ⟨idx8Running_legal, rfl, .inl rfl⟩
/-- The spec's programs write START, then WAIT (30 R115): the same command with a WAIT pending. -/
theorem witness_EveryCommandEnds_wait :
    ∃ s : State, RegistersLegal s ∧ s.running = some (.dec .idx8) ∧ s.script = [.wait] ∧ HostWaits s := by
  refine ⟨{ idx8Running with script := [.wait] }, ⟨by decide, by decide, fun c hc => ?_, by decide, by decide⟩,
    rfl, rfl, .inr ⟨[], rfl⟩⟩
  obtain rfl : Command.dec .idx8 = c := Option.some.inj hc
  exact ⟨by decide, fun _ => .inl rfl, by decide, by decide, .inl rfl⟩
/-- 95 P1: the two blocks of a 6 x 2 texture. -/
theorem witness_WholeBlockDecode :
    ∃ s : State, s.status ≠ .busy ∧ HostWaits s ∧
      s.spos.toNat + unitTotal s (.dec (.block .dxt1)) * unitSize (.block .dxt1) ≤ s.slen.toNat ∧
      ∀ a : Nat, s.spos.toNat ≤ a →
        a < s.spos.toNat + unitTotal s (.dec (.block .dxt1)) * unitSize (.block .dxt1) →
        (Memory.get s.stream a).isSome := by
  refine ⟨{ prepared 6 2 16 with
      script := [.wait], stream := cellsAt 0 ([0x00#8, 0xF8#8, 0x1F#8, 0x00#8, 0x1B#8, 0xE4#8, 0xFF#8, 0x00#8,
        0xE0#8, 0x07#8, 0xE0#8, 0x07#8, 0x0C#8, 0x03#8, 0xAA#8, 0x55#8]) },
    by decide, .inr ⟨[], rfl⟩, by decide, fun a _ h => ?_⟩
  have h' : a < 16 := h
  revert a
  decide +kernel
/-- A 5 x 4 red image: one full-width tile and one partial. -/
theorem witness_WholeBlockEncode :
    ∃ s : State, s.status ≠ .busy ∧ HostWaits s ∧
      s.spos.toNat + unitTotal s (.enc .dxt1) * unitSize (.block .dxt1) ≤ s.slen.toNat ∧
      ∀ x y : Nat, x < s.width.toNat → y < s.height.toNat → (Memory.get s.image (imageKey x y)).isSome := by
  refine ⟨{ prepared 5 4 16 with image := redImage 5 4 }, by decide, .inl rfl, by decide,
    fun x y hx hy => ?_⟩
  have hx' : x < 5 := hx
  have hy' : y < 4 := hy
  interval_cases x <;> interval_cases y <;> decide +kernel
/-- A tile of that image lies wholly inside it. -/
theorem witness_WholeBlockEncode_tile :
    0 < unitTotal { prepared 5 4 16 with image := redImage 5 4 } (.enc .dxt1) ∧
      ∀ p : Nat, p < 16 → tileInside 5 4 0 p = true := by decide +kernel
/-- A 2 x 1 texture of each indexed format. -/
theorem witness_WholeIndexedDecode :
    (∃ s : State, s.status ≠ .busy ∧ HostWaits s ∧ PaletteLengthLegal s ∧
      s.width.toNat % 2 = 0 ∧ s.spos.toNat + unitTotal s (.dec .idx4) ≤ s.slen.toNat ∧
      ∀ q : Nat, q < s.width.toNat * s.height.toNat → ∃ x, Memory.get s.stream (s.spos.toNat + q / 2) = some x ∧
        (if q % 2 = 0 then x.toNat % 16 else x.toNat / 16) < s.pallen.toNat ∧
        (Memory.get s.pal (if q % 2 = 0 then x.toNat % 16 else x.toNat / 16)).isSome) ∧
    ∃ s : State, s.status ≠ .busy ∧ HostWaits s ∧ PaletteLengthLegal s ∧
      s.spos.toNat + unitTotal s (.dec .idx8) ≤ s.slen.toNat ∧
      ∀ q : Nat, q < s.width.toNat * s.height.toNat → ∃ x, Memory.get s.stream (s.spos.toNat + q) = some x ∧
        x.toNat < s.pallen.toNat ∧ (Memory.get s.pal x.toNat).isSome := by
  constructor
  · refine ⟨{ prepared 2 1 1 with pal := palette16, stream := [(0, 0x2F#8)] }, by decide, .inl rfl,
      .inl rfl, by decide, by decide, fun q hq => ⟨0x2F#8, ?_⟩⟩
    have hq' : q < 2 := hq
    interval_cases q <;> decide +kernel
  · refine ⟨{ prepared 2 1 2 with pal := palette16, stream := [(0, 0x00#8), (1, 0x0F#8)], script := [.wait] },
      by decide, .inr ⟨[], rfl⟩,
      .inl rfl, by decide, fun q hq => ?_⟩
    have hq' : q < 2 := hq
    interval_cases q
    · exact ⟨0x00#8, by decide +kernel⟩
    · exact ⟨0x0F#8, by decide +kernel⟩

end Sys2Proof.Tests
end

section
/-! SUPPORT. Samples stay in [0, 1] (00_scope.md R8): the fields of a packed colour, interpolation and the
palettes of the block formats give samples in range (O12), and so does every write of a step to the palette
RAM and to the image (O53). -/

namespace Sys2Proof.Machine

/-! ### Samples and colours -/

/-- A field over its maximum is a sample. -/
theorem natCast_div_inRange {n m : Nat} (h : n ≤ m) : 0 ≤ (n : Rat) / m ∧ (n : Rat) / m ≤ 1 :=
  ⟨by positivity, div_le_one_of_le₀ (by exact_mod_cast h) (by positivity)⟩

/-- The three samples of a colour lie in [0, 1] (00 R8). -/
def ColorInRange (k : Color) : Prop :=
  (0 ≤ k.r ∧ k.r ≤ 1) ∧ (0 ≤ k.g ∧ k.g ≤ 1) ∧ (0 ≤ k.b ∧ k.b ≤ 1)

theorem withAlpha_inRange {k : Color} {a : Sample} (hk : ColorInRange k) (ha : 0 ≤ a ∧ a ≤ 1) :
    (withAlpha k a).inRange = true :=
  (inRange_iff _).2 ⟨hk.1, hk.2.1, hk.2.2, ha⟩

theorem colorOf_inRange {p : Pixel} (h : p.inRange = true) : ColorInRange (colorOf p) :=
  have ⟨hr, hg, hb, _⟩ := (inRange_iff p).1 h
  ⟨hr, hg, hb⟩

theorem clearPixel_inRange : clearPixel.inRange = true := by decide +kernel

/-- UNPACK565's 5-bit expansion is a byte (40 R121). -/
theorem expand5_le {f : Nat} (h : f < 32) : expand5 f ≤ 255 := by
  rw [expand5, Nat.shiftRight_eq_div_pow]
  omega

/-- UNPACK565's 6-bit expansion is a byte (40 R121). -/
theorem expand6_le {f : Nat} (h : f < 64) : expand6 f ≤ 255 := by
  rw [expand6, Nat.shiftRight_eq_div_pow]
  omega

theorem unpack565_inRange (v : Half) : ColorInRange (unpack565 v) :=
  ⟨natCast_div_inRange (expand5_le (v.extractLsb' 11 5).isLt),
    natCast_div_inRange (expand6_le (v.extractLsb' 5 6).isLt),
    natCast_div_inRange (expand5_le (v.extractLsb' 0 5).isLt)⟩

theorem lerp3_inRange {x y : Color} {t : Rat} (hx : ColorInRange x) (hy : ColorInRange y)
    (ht : 0 ≤ t ∧ t ≤ 1) : ColorInRange (lerp3 x y t) :=
  ⟨lerp_inRange hx.1 hy.1 ht, lerp_inRange hx.2.1 hy.2.1 ht, lerp_inRange hx.2.2 hy.2.2 ht⟩

/-! ### Palettes, ramps and decoded tiles -/

/-- What holds of every entry of a list and of the default holds of a lookup. -/
theorem getD_of_forall_mem {α : Type} (P : α → Prop) {xs : List α} {d : α} (h : ∀ x ∈ xs, P x)
    (hd : P d) (i : Nat) : P (xs.getD i d) := by
  rw [List.getD_eq_getElem?_getD]
  cases hx : xs[i]? with
  | none => exact hd
  | some x => exact h x (List.mem_of_getElem? hx)

theorem paletteDxt1_inRange (c0 c1 : Half) : TileInRange (paletteDxt1 c0 c1) := by
  have solid {k : Color} (hk : ColorInRange k) : (withAlpha k 1).inRange = true :=
    withAlpha_inRange hk (by norm_num)
  have h0 := unpack565_inRange c0
  have h1 := unpack565_inRange c1
  unfold paletteDxt1 TileInRange
  split
  · simp only [List.forall_mem_cons]
    exact ⟨solid h0, solid h1, solid (lerp3_inRange h0 h1 (by norm_num)),
      solid (lerp3_inRange h0 h1 (by norm_num)), nofun⟩
  · simp only [List.forall_mem_cons]
    exact ⟨solid h0, solid h1, solid (lerp3_inRange h0 h1 (by norm_num)),
      clearPixel_inRange, nofun⟩

theorem colorPixel_inRange (k : ColorBlock) (p : Nat) : (colorPixel k p).inRange = true :=
  getD_of_forall_mem (fun q : Pixel => q.inRange = true) (paletteDxt1_inRange k.c0 k.c1)
    clearPixel_inRange _

theorem planeNibble_le (k : AlphaPlane) (n : Nat) : planeNibble k n ≤ 15 := by
  have := (planeByte k (n / 2)).isLt
  unfold planeNibble
  split <;> omega

theorem alpha4At_inRange (k : AlphaPlane) (n : Nat) : 0 ≤ alpha4At k n ∧ alpha4At k n ≤ 1 :=
  natCast_div_inRange (planeNibble_le k n)

theorem rampDxt5_inRange (a0 a1 : Byte) : ∀ x ∈ rampDxt5 a0 a1, 0 ≤ x ∧ x ≤ 1 := by
  have byte_inRange : ∀ a : Byte, 0 ≤ (a.toNat : Rat) / 255 ∧ (a.toNat : Rat) / 255 ≤ 1 :=
    fun a => natCast_div_inRange (Nat.le_of_lt_succ a.isLt)
  have entry {t : Rat} (ht : 0 ≤ t ∧ t ≤ 1) := lerp_inRange (byte_inRange a0) (byte_inRange a1) ht
  unfold rampDxt5
  split
  · simp only [List.forall_mem_cons]
    exact ⟨byte_inRange a0, byte_inRange a1, entry (by norm_num), entry (by norm_num),
      entry (by norm_num), entry (by norm_num), entry (by norm_num), entry (by norm_num), nofun⟩
  · simp only [List.forall_mem_cons]
    exact ⟨byte_inRange a0, byte_inRange a1, entry (by norm_num), entry (by norm_num),
      entry (by norm_num), entry (by norm_num), by norm_num, by norm_num, nofun⟩

theorem alpha8At_inRange (k : AlphaBlock) (p : Nat) : 0 ≤ alpha8At k p ∧ alpha8At k p ≤ 1 :=
  getD_of_forall_mem (fun x => 0 ≤ x ∧ x ≤ 1) (rampDxt5_inRange k.a0 k.a1) (by norm_num) _

/-- A tile made position by position from pixels in range is in range. -/
theorem tileInRange_map {f : Nat → Pixel} (h : ∀ p, (f p).inRange = true) (ps : List Nat) :
    TileInRange (ps.map f) := by
  intro q hq
  obtain ⟨p, _, rfl⟩ := List.mem_map.1 hq
  exact h p

theorem decodeTileDxt1_inRange (k : ColorBlock) : TileInRange (decodeTileDxt1 k) :=
  tileInRange_map (colorPixel_inRange k) _

theorem decodeTileDxt3_inRange (k : Dxt3Block) : TileInRange (decodeTileDxt3 k) :=
  tileInRange_map (fun p => withAlpha_inRange (colorOf_inRange (colorPixel_inRange k.color p))
    (alpha4At_inRange k.alpha p)) _

theorem decodeTileDxt5_inRange (k : Dxt5Block) : TileInRange (decodeTileDxt5 k) :=
  tileInRange_map (fun p => withAlpha_inRange (colorOf_inRange (colorPixel_inRange k.color p))
    (alpha8At_inRange k.alpha p)) _

/-- Settles O12: each decoded tile is a map over the sixteen positions, of palette and ramp entries that are
unpacked fields over their maximum, interpolations between two of them, or the constants 0 and 1. -/
theorem decodedTilesInRange : Obligations.DecodedTilesInRange :=
  ⟨fun k => ⟨rfl, decodeTileDxt1_inRange k⟩, fun k => ⟨rfl, decodeTileDxt3_inRange k⟩,
    fun k => ⟨rfl, decodeTileDxt5_inRange k⟩⟩

/-! ### The writes of pixels -/

/-- Every pixel of a memory, or of a list of writes, has its samples in [0, 1] (00 R8). -/
abbrev PixelsInRange (m : List (Nat × Pixel)) : Prop := ∀ c ∈ m, c.2.inRange = true

theorem PixelsInRange.set {m : Memory Pixel} (hm : PixelsInRange m) (a : Nat) {p : Pixel}
    (hp : p.inRange = true) : PixelsInRange (Memory.set m a p) := by
  intro c hc
  obtain rfl | hc := Memory.mem_set hc
  · exact hp
  · exact hm c hc

theorem PixelsInRange.setMany {m : Memory Pixel} {ws : List (Nat × Pixel)} (hm : PixelsInRange m)
    (hws : PixelsInRange ws) : PixelsInRange (Memory.setMany m ws) :=
  fun c hc => (Memory.mem_setMany hc).elim (hws c) (hm c)

/-- The pixels an error or a reset leaves unspecified are still pixels (60 R341 (a), 70 R371). -/
theorem freePixelCells_inRange (k : Nat) (cells : List Nat) : PixelsInRange (freePixelCells k cells) := by
  intro c hc
  obtain ⟨_, j, hj⟩ := mem_freePixelCells hc
  rw [hj]
  exact freePixel_inRange j

theorem scatterCells_inRange (slots : List (Nat × Nat)) {T : List Pixel} (hT : TileInRange T) :
    PixelsInRange (scatterCells slots T) := by
  intro c hc
  obtain ⟨q, _, rfl⟩ := List.mem_map.1 hc
  exact getD_of_forall_mem (fun p : Pixel => p.inRange = true) hT clearPixel_inRange q.2

/-- PAL.DEFILT writes only pixels that stand in the palette (45 R270). -/
theorem defiltCells_inRange {pal : Memory Pixel} {cells : List (Nat × Pixel)} (hpal : PixelsInRange pal)
    (h : defiltCells pal = some cells) : PixelsInRange cells := by
  simp only [defiltCells, Option.map_eq_some_iff] at h
  obtain ⟨vs, hvs, rfl⟩ := h
  intro c hc
  obtain ⟨i, hi, _⟩ := mem_cellsAt.1 hc
  obtain ⟨a, ha⟩ := Memory.mem_of_readAll hvs (List.mem_of_getElem? hi)
  exact hpal (a, c.2) ha

/-! ### What a step keeps -/

@[simp] theorem writeReg_pal (s : State) (w : RegWrite) : (writeReg s w).pal = s.pal := by cases w <;> rfl
@[simp] theorem writeReg_image (s : State) (w : RegWrite) : (writeReg s w).image = s.image := by
  cases w <;> rfl

/-- The invariant speaks of the palette and the image alone. -/
theorem SamplesInRange.of_eq {s t : State} (h : SamplesInRange s) (pal : t.pal = s.pal)
    (image : t.image = s.image) : SamplesInRange t :=
  ⟨pal ▸ h.pal, image ▸ h.image⟩

theorem SamplesInRange.of_image_setMany {s t : State} {ws : List (Nat × Pixel)} (h : SamplesInRange s)
    (hws : PixelsInRange ws) (pal : t.pal = s.pal) (image : t.image = Memory.setMany s.image ws) :
    SamplesInRange t :=
  ⟨pal ▸ h.pal, image ▸ PixelsInRange.setMany h.image hws⟩

theorem putPixels_samplesInRange {f : Fmt} {T : List Pixel} {s : State} (h : SamplesInRange s)
    (hT : TileInRange T) : SamplesInRange (putPixels f T s) :=
  h.of_image_setMany (scatterCells_inRange (unitSlots f s.width.toNat s.height.toNat s.ucnt.toNat) hT)
    (by simp [putPixels]) (by simp [putPixels])

theorem raiseInUnit_samplesInRange {c : Command} {e : ErrCode} {s : State} (h : SamplesInRange s) :
    SamplesInRange (raiseInUnit c e s) := by
  cases c with
  | dec f => exact h.of_image_setMany (freePixelCells_inRange _ _) (by simp) (raiseInUnit_dec_image f e s)
  | enc b => exact h.of_eq (by simp) (by simp)

/-- A reset leaves the palette and the image empty but for free pixels (70 R370, R371). -/
theorem resetTo_samplesInRange (s : State) : SamplesInRange (resetTo s) := by
  have empty : SamplesInRange State.reset := ⟨nofun, nofun⟩
  unfold resetTo
  split
  · exact empty.of_image_setMany (freePixelCells_inRange _ _) rfl rfl
  · exact empty.of_eq rfl rfl
  · exact empty.of_eq rfl rfl

/-- The pixels of a lookup stand in the palette RAM (45 R264, R265). -/
theorem lookupIndices_inRange {s : State} {is : List Nat} {T : List Pixel} (h : SamplesInRange s)
    (hT : lookupIndices s is = .pixels T) : TileInRange T := by
  intro p hp
  obtain ⟨i, hi⟩ := mem_of_lookupIndices hT hp
  exact h.pal (i, p) hi

/-- Every instruction keeps the samples in [0, 1]: only PAL.DEFILT and the units of DEC write pixels. -/
theorem exec_samplesInRange {i : Instr} {s t : State} (h : SamplesInRange s) (hx : exec i s = .next t) :
    SamplesInRange t := by
  cases exec_effect hx with
  | permuted fmt cells _ _ hc eq =>
    subst eq
    exact ⟨PixelsInRange.setMany h.pal (defiltCells_inRange h.pal hc), h.image⟩
  | decoded f T _ _ src eq =>
    subst eq
    refine putPixels_samplesInRange h ?_
    obtain ⟨k, rfl⟩ | ⟨k, rfl⟩ | ⟨k, rfl⟩ | ⟨is, hT⟩ := src
    · exact decodeTileDxt1_inRange k
    · exact decodeTileDxt3_inRange k
    · exact decodeTileDxt5_inRange k
    · exact lookupIndices_inRange h hT
  | failedDec f e _ _ eq => subst eq; exact raiseInUnit_samplesInRange h
  | failedEnc b _ _ eq => subst eq; exact raiseInUnit_samplesInRange (h.of_eq (by simp) (by simp))
  | encoded b T bytes _ _ _ _ eq => subst eq; exact h.of_eq (by simp [putBytes]) (by simp [putBytes])
  | started c _ _ _ _ _ eq => subst eq; exact h.of_eq rfl rfl
  | ended c _ _ _ eq => subst eq; exact h.of_eq rfl rfl
  | rejected e _ _ eq => subst eq; exact h.of_eq rfl rfl

theorem SameMachine.samplesInRange {s u : State} (same : SameMachine s u) (h : SamplesInRange s) :
    SamplesInRange u :=
  h.of_eq same.pal same.image

/-- Settles O53, by cases on what a step can do: an instruction, a host write of a pixel in range, free pixels
after an error or a reset, or a move that touches neither the palette nor the image. -/
theorem stepKeepsSamplesInRange : Obligations.StepKeepsSamplesInRange := by
  intro s t h hstep
  cases step_move hstep with
  | ran i u same ex _ => exact exec_samplesInRange (same.samplesInRange h) ex
  | stayed same _ => exact same.samplesInRange h
  | wroteReg u same _ _ w eq =>
    subst eq; exact (same.samplesInRange h).of_eq (writeReg_pal u w) (writeReg_image u w)
  | wroteStream u same _ _ _ _ eq => subst eq; exact (same.samplesInRange h).of_eq rfl rfl
  | wroteImage u same _ x y p ok eq =>
    have hu := same.samplesInRange h
    subst eq; exact ⟨hu.pal, PixelsInRange.set hu.image _ ok⟩
  | wrotePal u same _ i p ok eq =>
    have hu := same.samplesInRange h
    subst eq; exact ⟨PixelsInRange.set hu.pal _ ok, hu.image⟩
  | truncated u same _ f _ eq => subst eq; exact raiseInUnit_samplesInRange (same.samplesInRange h)
  | ended u same _ c _ _ _ eq => subst eq; exact (same.samplesInRange h).of_eq rfl rfl
  | wasReset u _ eq => subst eq; exact resetTo_samplesInRange u

end Sys2Proof.Machine
end

section
/-! SUPPORT. The palette RAM, the stream and the image stay in canonical form and inside their address spaces
(10_state.md R33 to R35): every write of a step names addresses that exist (O52). -/

namespace Sys2Proof.Machine

/-! ### Canonical memories -/

/-- A memory in canonical form that lists only addresses below `n`. -/
structure Memory.CanonicalBelow {α : Type} (n : Nat) (m : Memory α) : Prop where
  wf : Memory.wf m
  keys : ∀ c ∈ m, c.1 < n

namespace Memory.CanonicalBelow

variable {α : Type} {n : Nat} {m : Memory α}

theorem nil : CanonicalBelow n ([] : Memory α) := ⟨.nil, nofun⟩

theorem set (h : CanonicalBelow n m) {a : Nat} (ha : a < n) (x : α) : CanonicalBelow n (Memory.set m a x) where
  wf := Memory.wf_set h.wf a x
  keys := by
    intro c hc
    obtain rfl | hc := Memory.mem_set hc
    · exact ha
    · exact h.keys c hc

theorem setMany (h : CanonicalBelow n m) {ws : List (Nat × α)} (hws : ∀ a ∈ ws.map Prod.fst, a < n) :
    CanonicalBelow n (Memory.setMany m ws) where
  wf := Memory.wf_setMany h.wf
  keys := fun c hc => (Memory.mem_setMany hc).elim (fun hc => hws c.1 (List.mem_map_of_mem hc)) (h.keys c)

/-- A block of values that ends inside the address space. -/
theorem setMany_cellsAt (h : CanonicalBelow n m) {a : Nat} {xs : List α} (fits : a + xs.length ≤ n) :
    CanonicalBelow n (Memory.setMany m (cellsAt a xs)) := by
  refine h.setMany fun b hb => ?_
  rw [map_fst_cellsAt, List.mem_range'_1] at hb
  omega

end Memory.CanonicalBelow

theorem memoriesCanonical_iff (s : State) : MemoriesCanonical s ↔
    Memory.CanonicalBelow 256 s.pal ∧ Memory.CanonicalBelow (2 ^ 32) s.stream ∧
      Memory.CanonicalBelow (2 ^ 32) s.image :=
  ⟨fun h => ⟨⟨h.pal_wf, h.pal_keys⟩, ⟨h.stream_wf, h.stream_keys⟩, ⟨h.image_wf, h.image_keys⟩⟩,
    fun ⟨p, st, im⟩ => ⟨p.wf, st.wf, im.wf, p.keys, st.keys, im.keys⟩⟩

namespace MemoriesCanonical

variable {s t : State}

/-- The invariant speaks of the three memories alone. -/
theorem of_eq (h : MemoriesCanonical s) (pal : t.pal = s.pal) (stream : t.stream = s.stream)
    (image : t.image = s.image) : MemoriesCanonical t := by
  rw [memoriesCanonical_iff, pal, stream, image]
  exact (memoriesCanonical_iff s).1 h

/-- Only the palette has changed. -/
theorem of_pal (h : MemoriesCanonical s) (pal : s.pal.CanonicalBelow 256 → t.pal.CanonicalBelow 256)
    (stream : t.stream = s.stream) (image : t.image = s.image) : MemoriesCanonical t := by
  obtain ⟨hp, hs, hi⟩ := (memoriesCanonical_iff s).1 h
  exact (memoriesCanonical_iff t).2 ⟨pal hp, stream ▸ hs, image ▸ hi⟩

/-- Only the stream has changed. -/
theorem of_stream (h : MemoriesCanonical s) (pal : t.pal = s.pal)
    (stream : Memory.CanonicalBelow (2 ^ 32) s.stream → Memory.CanonicalBelow (2 ^ 32) t.stream)
    (image : t.image = s.image) : MemoriesCanonical t := by
  obtain ⟨hp, hs, hi⟩ := (memoriesCanonical_iff s).1 h
  exact (memoriesCanonical_iff t).2 ⟨pal ▸ hp, stream hs, image ▸ hi⟩

/-- Only the image has changed. -/
theorem of_image (h : MemoriesCanonical s) (pal : t.pal = s.pal) (stream : t.stream = s.stream)
    (image : s.image.CanonicalBelow (2 ^ 32) → t.image.CanonicalBelow (2 ^ 32)) : MemoriesCanonical t := by
  obtain ⟨hp, hs, hi⟩ := (memoriesCanonical_iff s).1 h
  exact (memoriesCanonical_iff t).2 ⟨pal ▸ hp, stream ▸ hs, image hi⟩

end MemoriesCanonical

/-! ### The addresses a command writes -/

/-- A unit of a command writes only pixels that exist (46 R294). -/
theorem unitSlots_lt_of_unitTotal {s : State} {f : Fmt} {u : Nat} (hu : u < unitTotal s (.dec f)) :
    ∀ a ∈ (unitSlots f s.width.toNat s.height.toNat u).map Prod.fst, a < 2 ^ 32 := by
  intro a ha
  obtain ⟨⟨_, k⟩, hk, rfl⟩ := List.mem_map.1 ha
  exact unitSlots_lt (Nat.le_of_lt_succ s.width.isLt) (Nat.le_of_lt_succ s.height.isLt) hu hk

/-- The pixels that an error or a reset of a DEC leaves unspecified exist (60 R341 (a)). -/
theorem unitCells_lt (s : State) (f : Fmt) (f0 : Nat) :
    ∀ a ∈ unitCells f s.width.toNat s.height.toNat f0 (unitTotal s (.dec f)), a < 2 ^ 32 := by
  intro a ha
  obtain ⟨u, _, hu, k, hk⟩ := mem_unitCells.1 ha
  exact unitSlots_lt_of_unitTotal hu a (List.mem_map_of_mem (f := Prod.fst) hk)

/-- The bytes that an error or a reset of an ENC leaves unspecified lie below SLEN (60 R341 (b)). -/
theorem unspecifiedBytes_lt (c : Command) (a : Nat) (s : State) : ∀ b ∈ unspecifiedBytes c a s, b < 2 ^ 32 := by
  intro b hb
  have := s.slen.isLt
  rw [unspecifiedBytes, List.mem_range'_1] at hb
  omega

theorem scrambleImage_memoriesCanonical {s : State} {cells : List Nat} (h : MemoriesCanonical s)
    (hc : ∀ a ∈ cells, a < 2 ^ 32) : MemoriesCanonical (scrambleImage cells s) :=
  h.of_image rfl rfl fun hi => hi.setMany (by simpa using hc)

theorem scrambleStream_memoriesCanonical {s : State} {cells : List Nat} (h : MemoriesCanonical s)
    (hc : ∀ a ∈ cells, a < 2 ^ 32) : MemoriesCanonical (scrambleStream cells s) :=
  h.of_stream rfl (fun hs => hs.setMany (by simpa using hc)) rfl

/-! ### What a step keeps -/

/-- An error inside a unit leaves free values only in cells the command could have written (60 R341). -/
theorem raiseInUnit_memoriesCanonical {c : Command} {e : ErrCode} {s : State} (h : MemoriesCanonical s) :
    MemoriesCanonical (raiseInUnit c e s) := by
  have raised : ∀ {u : State}, MemoriesCanonical u → MemoriesCanonical (raiseError e u) :=
    fun hu => hu.of_eq rfl rfl rfl
  cases c with
  | dec f => exact raised (scrambleImage_memoriesCanonical h (unitCells_lt s f _))
  | enc b => exact raised (scrambleStream_memoriesCanonical h (unspecifiedBytes_lt (.enc b) _ s))

theorem reset_memoriesCanonical : MemoriesCanonical State.reset :=
  (memoriesCanonical_iff _).2 ⟨.nil, .nil, .nil⟩

/-- A reset leaves the memories empty but for free values in the command's range (70 R370, R371). -/
theorem resetTo_memoriesCanonical (s : State) : MemoriesCanonical (resetTo s) := by
  have base : ∀ as d, MemoriesCanonical { State.reset with script := as, draws := d } :=
    fun _ _ => reset_memoriesCanonical.of_eq rfl rfl rfl
  unfold resetTo
  split
  · exact scrambleImage_memoriesCanonical (base ..) (unitCells_lt s _ 0)
  · exact scrambleStream_memoriesCanonical (base ..) (unspecifiedBytes_lt _ _ s)
  · exact base ..

/-- PAL.DEFILT writes the 256 entries there are (45 R270). -/
theorem defiltCells_lt {pal : Memory Pixel} {cells : List (Nat × Pixel)} (h : defiltCells pal = some cells) :
    ∀ a ∈ cells.map Prod.fst, a < 256 := by
  simp only [defiltCells, Option.map_eq_some_iff] at h
  obtain ⟨vs, hvs, rfl⟩ := h
  have hl := Memory.length_readAll hvs
  rw [List.length_map, List.length_range] at hl
  intro a ha
  rw [map_fst_cellsAt, List.mem_range'_1] at ha
  omega

/-- Every instruction keeps the memories canonical: a unit is written inside the image or below SLEN. -/
theorem exec_memoriesCanonical {i : Instr} {s t : State} (h : MemoriesCanonical s) (hx : exec i s = .next t) :
    MemoriesCanonical t := by
  cases exec_effect hx with
  | permuted fmt cells _ _ hc eq =>
    subst eq
    exact h.of_pal (fun hp => hp.setMany (defiltCells_lt hc)) rfl rfl
  | decoded f T ready _ _ eq =>
    obtain ⟨_, _, left⟩ := (unitReady_iff ..).1 ready
    subst eq
    refine h.of_image (by simp [putPixels]) (by simp [putPixels]) fun hi => ?_
    simp only [putPixels, advanceUnit_image]
    exact hi.setMany (by simpa using unitSlots_lt_of_unitTotal left)
  | encoded b T bytes _ _ len fits eq =>
    have := s.slen.isLt
    subst eq
    refine h.of_stream (by simp [putBytes]) (fun hs => ?_) (by simp [putBytes])
    simp only [putBytes, advanceUnit_stream]
    exact hs.setMany_cellsAt (by simp only [afterGather_spos]; omega)
  | failedDec f e _ _ eq => subst eq; exact raiseInUnit_memoriesCanonical h
  | failedEnc b _ _ eq => subst eq; exact raiseInUnit_memoriesCanonical (h.of_eq rfl rfl rfl)
  | started c _ _ _ _ _ eq => subst eq; exact h.of_eq rfl rfl rfl
  | ended c _ _ _ eq => subst eq; exact h.of_eq rfl rfl rfl
  | rejected e _ _ eq => subst eq; exact h.of_eq rfl rfl rfl

@[simp] theorem writeReg_stream (s : State) (w : RegWrite) : (writeReg s w).stream = s.stream := by
  cases w <;> rfl

theorem SameMachine.memoriesCanonical {s u : State} (same : SameMachine s u) (h : MemoriesCanonical s) :
    MemoriesCanonical u :=
  h.of_eq same.pal same.stream same.image

/-- Settles O52, by cases on what a step can do: an instruction, a host write at an address that exists, free
values in a command's range after an error or a reset, or a move that touches no memory. -/
theorem stepKeepsMemoriesCanonical : Obligations.StepKeepsMemoriesCanonical := by
  intro s t h hstep
  cases step_move hstep with
  | ran i u same ex _ => exact exec_memoriesCanonical (same.memoriesCanonical h) ex
  | stayed same _ => exact same.memoriesCanonical h
  | wroteReg u same _ _ w eq =>
    subst eq; exact (same.memoriesCanonical h).of_eq (by simp) (by simp) (by simp)
  | wroteStream u same _ a bytes fits eq =>
    subst eq
    exact (same.memoriesCanonical h).of_stream rfl (fun hs => hs.setMany_cellsAt fits) rfl
  | wroteImage u same _ x y p _ eq =>
    subst eq
    exact (same.memoriesCanonical h).of_image rfl rfl fun hi => hi.set (imageKey_lt x.isLt y.isLt) p
  | wrotePal u same _ i p _ eq =>
    subst eq; exact (same.memoriesCanonical h).of_pal (fun hp => hp.set i.isLt p) rfl rfl
  | truncated u same _ f _ eq => subst eq; exact raiseInUnit_memoriesCanonical (same.memoriesCanonical h)
  | ended u same _ c _ _ _ eq => subst eq; exact (same.memoriesCanonical h).of_eq rfl rfl rfl
  | wasReset u _ eq => subst eq; exact resetTo_memoriesCanonical u

end Sys2Proof.Machine
end

section
/-! SUPPORT. STATUS, ERR, UCNT, SPOS and the command in progress stay in agreement (10_state.md R29 to R31;
46_commands.md R291, R293; 70_reset_and_hazards.md R380): O54. -/

namespace Sys2Proof.Machine

/-! ### Legal registers -/

/-- With no command in progress there is no more to say than how STATUS, ERR and the window agree. -/
theorem registersLegal_of_not_running {s : State} (running : s.running = none) (busy : s.status ≠ .busy)
    (error_iff : s.status = .error ↔ s.err ≠ .none) (idle : s.unread = true → s.status ≠ .idle) :
    RegistersLegal s where
  busy_iff := by simp [running, busy]
  error_iff := error_iff
  running_legal := by simp [running]
  busy_unread := fun h => absurd h busy
  unread_not_idle := idle

theorem registersLegal_of_done {s : State} (status : s.status = .done) (err : s.err = .none)
    (running : s.running = none) : RegistersLegal s :=
  registersLegal_of_not_running running (by simp [status]) (by simp [status, err]) (by simp [status])

theorem registersLegal_of_error {s : State} (status : s.status = .error) (err : s.err ≠ .none)
    (running : s.running = none) : RegistersLegal s :=
  registersLegal_of_not_running running (by simp [status]) (by simp [status, err]) (by simp [status])

theorem registersLegal_of_idle {s : State} (status : s.status = .idle) (err : s.err = .none)
    (running : s.running = none) (unread : s.unread = false) : RegistersLegal s :=
  registersLegal_of_not_running running (by simp [status]) (by simp [status, err]) (by simp [unread])

/-- While a command runs, what is to show is that it is legal. -/
theorem registersLegal_of_busy {s : State} {c : Command} (status : s.status = .busy) (err : s.err = .none)
    (running : s.running = some c) (unread : s.unread = true) (legal : CommandLegal c s) : RegistersLegal s where
  busy_iff := by simp [status, running]
  error_iff := by simp [status, err]
  running_legal := by simp [running, legal]
  busy_unread := fun _ => unread
  unread_not_idle := by simp [status]

namespace RegistersLegal

variable {s t : State}

theorem err_of_busy (h : RegistersLegal s) (busy : s.status = .busy) : s.err = .none := by
  by_contra he
  have error := h.error_iff.2 he
  rw [busy] at error
  cases error

theorem running_of_not_busy (h : RegistersLegal s) (idle : s.status ≠ .busy) : s.running = none := by
  by_contra hr
  exact idle (h.busy_iff.2 hr)

/-- The invariant speaks of the registers alone, and the window of 70 R380 may close while STATUS is not BUSY. -/
theorem of_sameRegisters (h : RegistersLegal s) (width : t.width = s.width) (height : t.height = s.height)
    (spos : t.spos = s.spos) (slen : t.slen = s.slen) (pallen : t.pallen = s.pallen)
    (status : t.status = s.status) (err : t.err = s.err) (ucnt : t.ucnt = s.ucnt)
    (running : t.running = s.running) (mark : t.unread = s.unread ∨ s.status ≠ .busy ∧ t.unread = false) :
    RegistersLegal t where
  busy_iff := by rw [status, running]; exact h.busy_iff
  error_iff := by rw [status, err]; exact h.error_iff
  running_legal := by
    intro c hc
    obtain ⟨left, pal, even, confirmed, inside⟩ := h.running_legal c (running ▸ hc)
    constructor <;> simpa only [unitTotal, width, height, spos, slen, pallen, ucnt]
  busy_unread := by
    intro hb
    rw [status] at hb
    obtain mark | ⟨idle, _⟩ := mark
    · rw [mark]; exact h.busy_unread hb
    · exact absurd hb idle
  unread_not_idle := by
    intro hu
    obtain mark | ⟨_, clear⟩ := mark
    · rw [status]; exact h.unread_not_idle (mark ▸ hu)
    · simp [clear] at hu

/-- What the memories hold, and how many free values have been taken, is of no concern to the registers. -/
theorem with_memories (h : RegistersLegal s) (pal : Memory Pixel) (stream : Memory Byte) (image : Memory Pixel)
    (draws : Nat) : RegistersLegal { s with pal := pal, stream := stream, image := image, draws := draws } :=
  h.of_sameRegisters rfl rfl rfl rfl rfl rfl rfl rfl rfl (.inl rfl)

end RegistersLegal

theorem SameMachine.registersLegal {s u : State} (same : SameMachine s u) (h : RegistersLegal s)
    (mark : u.unread = s.unread ∨ s.status ≠ .busy ∧ u.unread = false) : RegistersLegal u :=
  h.of_sameRegisters same.width same.height same.spos same.slen same.pallen same.status same.err same.ucnt
    same.running mark

/-! ### What a step keeps -/

/-- A unit that fits leaves its command legal, or DONE: UCNT and SPOS move on together, without wrapping
(46 R293). -/
theorem advanceUnit_registersLegal {c : Command} {s : State} (h : RegistersLegal s)
    (ready : unitReady s c = true) (fits : s.spos.toNat + unitSize (commandFmt c) ≤ s.slen.toNat) :
    RegistersLegal (advanceUnit c s) := by
  obtain ⟨busy, run, left⟩ := (unitReady_iff s c).1 ready
  obtain ⟨-, pal, even, confirmed, -⟩ := h.running_legal c run
  have err : (advanceUnit c s).err = .none := by simpa using h.err_of_busy busy
  have total : unitTotal (advanceUnit c s) c = unitTotal s c := by simp [unitTotal]
  by_cases more : (s.ucnt + 1).toNat < unitTotal s c
  · refine registersLegal_of_busy (c := c) ?_ err ?_ ?_ ⟨?_, ?_, ?_, ?_, ?_⟩
    · rw [advanceUnit_status, if_pos more, busy]
    · rw [advanceUnit_running, if_pos more, run]
    · simpa using h.busy_unread busy
    · simpa [total] using more
    · simpa using pal
    · simpa using even
    · rw [advanceUnit_ucnt, advanceUnit_spos, ucnt_succ s c left, spos_add s _ fits, Nat.add_one_mul]
      omega
    · rw [advanceUnit_spos, advanceUnit_slen, spos_add s _ fits]
      exact .inr fits
  · refine registersLegal_of_done ?_ err ?_
    · rw [advanceUnit_status, if_neg more]
    · rw [advanceUnit_running, if_neg more]

/-- An instruction leaves the registers legal. A unit needs them legal before, a command's start only that the
write to CMD has opened the window of 70 R380. -/
theorem exec_registersLegal {i : Instr} {s t : State} (unread : s.unread = true)
    (legal : s.status = .busy → RegistersLegal s) (hx : exec i s = .next t) : RegistersLegal t := by
  have legal_of_ready : ∀ {c}, unitReady s c = true → RegistersLegal s :=
    fun ready => legal ((unitReady_iff ..).1 ready).1
  cases exec_effect hx with
  | started c _ _ pos pal even eq =>
    subst eq
    exact registersLegal_of_busy (c := c) rfl rfl rfl unread
      ⟨pos, pal, even, by simp, .inl rfl⟩
  | ended c _ _ _ eq => subst eq; exact registersLegal_of_done rfl rfl rfl
  | rejected e he _ eq =>
    subst eq
    exact registersLegal_of_error rfl (by rcases he with rfl | rfl <;> simp) rfl
  | permuted fmt cells _ _ _ eq => subst eq; exact registersLegal_of_done rfl rfl rfl
  | decoded f T ready fits _ eq =>
    subst eq
    exact advanceUnit_registersLegal ((legal_of_ready ready).with_memories ..) ready fits
  | encoded b T bytes ready _ _ fits eq =>
    subst eq
    exact advanceUnit_registersLegal ((legal_of_ready ready).with_memories ..) ready fits
  | failedDec f e he _ eq =>
    subst eq
    exact registersLegal_of_error rfl (by rcases he with rfl | rfl <;> simp) rfl
  | failedEnc b _ _ eq => subst eq; exact registersLegal_of_error rfl (by simp) rfl

@[simp] theorem writeReg_status (s : State) (w : RegWrite) : (writeReg s w).status = s.status := by
  cases w <;> rfl
@[simp] theorem writeReg_err (s : State) (w : RegWrite) : (writeReg s w).err = s.err := by cases w <;> rfl
@[simp] theorem writeReg_running (s : State) (w : RegWrite) : (writeReg s w).running = s.running := by
  cases w <;> rfl
@[simp] theorem writeReg_unread (s : State) (w : RegWrite) : (writeReg s w).unread = s.unread := by
  cases w <;> rfl

/-- A host write of a register finds no command in progress whose registers it could change (10 R41). -/
theorem writeReg_registersLegal {s : State} (h : RegistersLegal s) (idle : s.status ≠ .busy) (w : RegWrite) :
    RegistersLegal (writeReg s w) :=
  registersLegal_of_not_running (by simpa using h.running_of_not_busy idle) (by simpa using idle)
    (by simpa using h.error_iff) (by simpa using h.unread_not_idle)

/-- A reset leaves the codec IDLE, whatever it was (70 R370, R371). -/
theorem resetTo_registersLegal (s : State) : RegistersLegal (resetTo s) := by
  unfold resetTo
  split
  all_goals exact registersLegal_of_idle rfl rfl rfl rfl

/-- Settles O54, by cases on what a step can do. An instruction is run with the window of 70 R380 open: a write
to CMD opens it, and while BUSY it is open. -/
theorem stepKeepsRegistersLegal : Obligations.StepKeepsRegistersLegal := by
  intro s t h hstep
  cases step_move hstep with
  | ran i u same ex mark =>
    obtain ⟨busy, mark⟩ | ⟨idle, unread⟩ := mark
    · exact exec_registersLegal (mark ▸ h.busy_unread busy) (fun _ => same.registersLegal h (.inl mark)) ex
    · exact exec_registersLegal unread (fun busy => absurd (same.status ▸ busy) idle) ex
  | stayed same mark => exact same.registersLegal h mark
  | wroteReg u same mark idle w eq =>
    subst eq
    exact writeReg_registersLegal (same.registersLegal h (.inl mark)) (same.status ▸ idle) w
  | wroteStream u same mark _ _ _ eq => subst eq; exact (same.registersLegal h (.inl mark)).with_memories ..
  | wroteImage u same mark _ _ _ _ eq => subst eq; exact (same.registersLegal h (.inl mark)).with_memories ..
  | wrotePal u same mark _ _ _ eq => subst eq; exact (same.registersLegal h (.inl mark)).with_memories ..
  | truncated u _ _ f _ eq => subst eq; exact registersLegal_of_error rfl (by simp) rfl
  | ended u same mark c _ busy _ eq =>
    subst eq
    exact registersLegal_of_done rfl ((same.registersLegal h (.inl mark)).err_of_busy busy) rfl
  | wasReset u _ eq => subst eq; exact resetTo_registersLegal u

end Sys2Proof.Machine
end

section
/-! SUPPORT. The host's access to the codec (10_state.md R28 to R41, 70_reset_and_hazards.md R380), one lemma for
each of its actions, and the state after reset (10_state.md R40): O26, O29, O31 to O34, O55. -/

namespace Sys2Proof.Machine

/-! ### While STATUS is BUSY, and until it has been read -/

section
variable {s : State} {a : HostAction} {rest : List HostAction}

theorem step_busy (busy : s.status = .busy) : step s = runFetched (fetchBusy s) := by
  rw [step_eq, fetch, busy]

/-- Only a wait, a reset and a read of STATUS have a meaning while STATUS is BUSY. -/
theorem fetchBusy_refused (hs : s.script = a :: rest) (wait : a ≠ .wait) (reset : a ≠ .reset)
    (poll : a ≠ .rd .status) : fetchBusy s = .refused .hostAccessWhileBusy := by
  rw [fetchBusy, hs]
  cases a with
  | wait => exact absurd rfl wait
  | reset => exact absurd rfl reset
  | rd r =>
    cases r with
    | status => exact absurd rfl poll
    | _ => rfl
  | _ => rfl

/-- A free value says whether a poll lands before the next unit (log 8). -/
theorem fetchBusy_poll (hs : s.script = .rd .status :: rest) : fetchBusy s =
    if Config.freePoll s.draws then .moved { s with script := rest, port := .reg 1, draws := s.draws + 1 }
    else fetchUnit { s with draws := s.draws + 1 } := by
  rw [fetchBusy, hs]

/-- Only a wait, a reset and a read of STATUS have a meaning before the host has read STATUS (log 9). -/
theorem fetchIdle_refused (unread : s.unread = true) (hs : s.script = a :: rest) (wait : a ≠ .wait)
    (reset : a ≠ .reset) (poll : a ≠ .rd .status) : fetchIdle s = .refused .hostAccessBeforeStatusRead := by
  have outside : readsStatusOnly a = false := by simp [readsStatusOnly, wait, reset, poll]
  rw [fetchIdle, hs]
  simp [unread, outside]

end

/-- Settles O31, by what a step fetches while BUSY and what it fetches after that, before STATUS is read. -/
theorem busyHostAccess : Obligations.BusyHostAccess := by
  intro s a rest hs
  refine ⟨fun busy wait reset poll => ?_, fun busy poll => ?_, fun idle unread wait reset poll => ?_⟩
  · rw [step_busy busy, fetchBusy_refused hs wait reset poll]; rfl
  · subst poll
    rw [unitFirst_eq busy, step_busy busy, fetchBusy_poll hs]
    cases Config.freePoll s.draws with
    | true => exact .inl ⟨rfl, rfl⟩
    | false => exact .inr ⟨rfl, rfl⟩
  · rw [step_idle idle, fetchIdle_refused unread hs wait reset poll]; rfl

/-! ### One action of the host at a time -/

section
variable {s : State} {rest : List HostAction}

@[simp] theorem readReg_script (s : State) (r : Reg) (as : List HostAction) :
    readReg { s with script := as } r = readReg s r := by cases r <;> rfl

@[simp] theorem writeReg_script (s : State) (w : RegWrite) : (writeReg s w).script = s.script := by
  cases w <;> rfl

/-- A read of STATUS and a WAIT are open to the host at any time (70 R380). -/
theorem step_readStatus (idle : s.status ≠ .busy) (hs : s.script = .rd .status :: rest ∨ s.script = .wait :: rest) :
    step s = .next { s with script := rest, port := .reg (readReg s .status), unread := false } := by
  obtain hs | hs := hs
  · rw [step_host idle hs (.inr rfl)]; rfl
  · rw [step_host idle hs (.inr rfl)]; rfl

variable (idle : s.status ≠ .busy) (unread : s.unread = false)
include idle unread

theorem step_writeCmd {v : Byte} (hs : s.script = .wr (.cmd v) :: rest) :
    step s = runFetched (fetchCommand v { s with script := rest }) :=
  step_host idle hs (.inl unread)

theorem step_writeReg {w : RegWrite} (hs : s.script = .wr w :: rest) (hw : ∀ v, w ≠ .cmd v) :
    step s = .next (writeReg { s with script := rest } w) := by
  rw [step_host idle hs (.inl unread)]
  cases w with
  | cmd v => exact absurd rfl (hw v)
  | _ => rfl

theorem step_readReg {r : Reg} (hs : s.script = .rd r :: rest) :
    step s = .next (afterRead r (readReg s r) { s with script := rest }) := by
  rw [step_host idle hs (.inl unread), hostAct, hostRead, readReg_script]; rfl

theorem step_writeStream {a : Word} {bytes : List Byte} (hs : s.script = .wrs a bytes :: rest)
    (fits : a.toNat + bytes.length ≤ 2 ^ 32) :
    step s = .next { s with script := rest, stream := Memory.setMany s.stream (cellsAt a.toNat bytes) } := by
  rw [step_host idle hs (.inl unread), hostAct, if_pos fits]; rfl

theorem step_writeImage {x y : Half} {p : Pixel} (hs : s.script = .wrImg x y p :: rest)
    (ok : p.inRange = true) :
    step s = .next { s with script := rest, image := Memory.set s.image (imageKey x.toNat y.toNat) p } := by
  rw [step_host idle hs (.inl unread), hostAct, if_pos ok]; rfl

theorem step_writePal {i : Byte} {p : Pixel} (hs : s.script = .wrPal i p :: rest) (ok : p.inRange = true) :
    step s = .next { s with script := rest, pal := Memory.set s.pal i.toNat p } := by
  rw [step_host idle hs (.inl unread), hostAct, if_pos ok]; rfl

/-- A host read of a stream byte answers the byte, or stops where nothing has written it (log 3). -/
theorem step_readStream {a : Word} (hs : s.script = .rdStream a :: rest) :
    step s = (Memory.get s.stream a.toNat).elim (.refused .unwrittenStream)
      fun v => .next { s with script := rest, port := .byte v } := by
  rw [step_host idle hs (.inl unread), hostAct]
  cases Memory.get s.stream a.toNat <;> rfl

/-- A host read of a pixel answers the pixel, or stops where nothing has written it (log 3). -/
theorem step_readImage {x y : Half} (hs : s.script = .rdImg x y :: rest) :
    step s = (Memory.get s.image (imageKey x.toNat y.toNat)).elim (.refused .unwrittenImage)
      fun p => .next { s with script := rest, port := .pixel p } := by
  rw [step_host idle hs (.inl unread), hostAct]
  cases Memory.get s.image (imageKey x.toNat y.toNat) <;> rfl

/-- A host read of a palette entry answers the entry, or stops where nothing has written it (log 3). -/
theorem step_readPal {i : Byte} (hs : s.script = .rdPal i :: rest) :
    step s = (Memory.get s.pal i.toNat).elim (.refused .unwrittenPalette)
      fun p => .next { s with script := rest, port := .pixel p } := by
  rw [step_host idle hs (.inl unread), hostAct]
  cases Memory.get s.pal i.toNat <;> rfl

end

/-! ### Registers -/

/-- Settles O29: the write to CMD is the host's next action, and the fetch decodes CMD16 = FMT || v. -/
theorem stepRunsWrittenCommand : Obligations.StepRunsWrittenCommand := by
  intro s v rest i idle unread hs hi
  rw [step_writeCmd idle unread hs, fetchCommand, hi]
  rfl

/-- Settles O32: a write of a descriptor register stores its value and sets its mark, a read of it answers what it
holds. -/
theorem hostRegisterWriteReadsBack : Obligations.HostRegisterWriteReadsBack := by
  constructor
  · intro s w r v m rest idle unread hs hw
    have notCmd : ∀ x, w ≠ .cmd x := by rintro x rfl; simp at hw
    refine ⟨_, _, step_writeReg idle unread hs notCmd,
      step_readReg (r := r) (rest := rest) (by simpa using idle) (by simpa using unread) (by simp), ?_⟩
    obtain ⟨x, rfl, rfl, rfl, rfl⟩ | ⟨x, rfl, rfl, rfl, rfl⟩ | ⟨x, rfl, rfl, rfl, rfl⟩ |
      ⟨x, rfl, rfl, rfl, rfl⟩ | ⟨x, rfl, rfl, rfl, rfl⟩ | ⟨x, rfl, rfl, rfl, rfl⟩ |
      ⟨x, rfl, rfl, rfl, rfl⟩ := hw
    all_goals simp [writeReg, afterRead, readReg]
  · intro s r v rest idle unread hs hr
    rw [step_readReg idle unread hs]
    obtain ⟨rfl, rfl⟩ | ⟨rfl, rfl⟩ | ⟨rfl, rfl⟩ | ⟨rfl, rfl⟩ | ⟨rfl, rfl⟩ | ⟨rfl, rfl⟩ | ⟨rfl, rfl⟩ := hr
    all_goals rfl

/-- Settles O33: the codes are those `readReg` gives, and a read of STATUS, or a WAIT, closes the window. -/
theorem hostReadsStatusErrUcnt : Obligations.HostReadsStatusErrUcnt := by
  intro s rest idle
  refine ⟨fun hs => ⟨_, step_readStatus idle hs, ?_, ?_, ?_⟩,
    fun unread hs => ⟨_, step_readReg idle unread hs, ?_, ?_, ?_, ?_, ?_⟩,
    fun unread hs => step_readReg idle unread hs⟩
  all_goals intro code; simp only [readReg, code]

/-! ### Memories -/

/-- The memory after a block of values has been written at `a`. -/
theorem Memory.get_setMany_cellsAt_eq {α : Type} (m : Memory α) (a : Nat) (xs : List α) (b : Nat) :
    Memory.get (Memory.setMany m (cellsAt a xs)) b =
      if a ≤ b ∧ b < a + xs.length then xs[b - a]? else Memory.get m b := by
  split
  · rename_i hb
    have := Memory.get_setMany_cellsAt m a xs (b - a) (by omega)
    rwa [Nat.add_sub_cancel' hb.1] at this
  · exact Memory.get_setMany_cellsAt_other m a xs b (by omega)

theorem Memory.get_set {α : Type} (m : Memory α) (a b : Nat) (x : α) :
    Memory.get (Memory.set m a x) b = if b = a then some x else Memory.get m b := by
  split
  · rename_i hb; rw [hb, Memory.get_set_same]
  · rename_i hb; exact Memory.get_set_other m a b x hb

/-- Settles O34: each write is a step that sets the named cells, each read a step that answers the cell's value. -/
theorem hostMemoryWritesReadBack : Obligations.HostMemoryWritesReadBack := by
  intro s rest idle unread
  refine ⟨fun a bytes hs fits => ?_, fun x y p hs ok => ?_, fun i p hs ok => ?_, fun a v hs hv => ?_,
    fun x y p hs hp => ?_, fun i p hs hp => ?_⟩
  · exact ⟨_, step_writeStream idle unread hs fits, rfl, Memory.get_setMany_cellsAt_eq s.stream a.toNat bytes⟩
  · refine ⟨_, step_writeImage idle unread hs ok, rfl, fun x' y' => ?_⟩
    simp only [Memory.get_set, imageKey_inj x'.isLt x.isLt, BitVec.toNat_inj]
  · exact ⟨_, step_writePal idle unread hs ok, rfl, fun j => Memory.get_set s.pal i.toNat j p⟩
  · rw [step_readStream idle unread hs, hv, Option.elim_some]
  · rw [step_readImage idle unread hs, hp, Option.elim_some]
  · rw [step_readPal idle unread hs, hp, Option.elim_some]

/-! ### Reset -/

/-- Settles O26: the fields of the reset state are as R40's table has them, and with no host action the codec
stays as it is. -/
theorem resetLeavesIdleAndUnwritten : Obligations.ResetLeavesIdleAndUnwritten :=
  ⟨rfl, rfl, rfl, rfl, Memory.get_nil, Memory.get_nil, fun _ _ => Memory.get_nil _,
    ⟨rfl, rfl, rfl, rfl, rfl, rfl, rfl⟩, step_idle (s := State.reset) (by decide)⟩

/-- Settles O55: the memories are empty, the codec is IDLE and no command is in progress. -/
theorem invariantsHoldAtReset : Obligations.InvariantsHoldAtReset :=
  ⟨reset_memoriesCanonical, ⟨nofun, nofun⟩, registersLegal_of_idle rfl rfl rfl rfl⟩

end Sys2Proof.Machine
end

section
/-! SUPPORT. What no instruction writes (10_state.md R20, the column "written by codec"): O50; and the stop at
every memory item that nothing has written (10_state.md R38): O60. -/

namespace Sys2Proof.Machine

/-! ### The registers that are the host's -/

/-- Settles O50: each effect of an instruction writes STATUS, ERR, UCNT, SPOS with its mark, the command in
progress, a memory and the count of free values, and nothing else. -/
theorem descriptorsNeverWrittenByCodec : Obligations.DescriptorsNeverWrittenByCodec := by
  intro i s t hx
  cases exec_effect hx with
  | started | ended | rejected | permuted =>
    subst_vars; exact ⟨rfl, rfl, rfl, rfl, rfl, rfl, rfl, rfl, rfl⟩
  | decoded f T _ _ _ eq => subst eq; simp [putPixels]
  | encoded b T bytes _ _ _ _ eq => subst eq; simp [putBytes]
  | failedDec f e _ _ eq => subst eq; simp
  | failedEnc b _ _ eq => subst eq; simp

/-! ### Unwritten items -/

theorem Memory.readAll_eq_none {α : Type} {m : Memory α} {as : List Nat} {a : Nat} (ha : a ∈ as)
    (unwritten : Memory.get m a = none) : Memory.readAll m as = none := by
  cases hr : Memory.readAll m as with
  | none => rfl
  | some vs => simpa [unwritten] using Memory.isSome_of_readAll hr a ha

/-- A unit of DEC that fits, with a byte nothing has written, is not decoded. -/
theorem fetchUnit_unwrittenStream {s : State} {f : Fmt} {a : Nat} (due : UnitDue s (.dec f))
    (fits : UnitFits s (.dec f)) (ha : s.spos.toNat ≤ a ∧ a < s.spos.toNat + unitSize f)
    (unwritten : Memory.get s.stream a = none) : fetchUnit s = .refused .unwrittenStream := by
  obtain ⟨_, run, left⟩ := due
  have hf : fitsStream s s.spos.toNat (unitSize f) = true := (fitsStream_iff ..).2 fits
  have hr : readStream s s.spos.toNat (unitSize f) = none :=
    Memory.readAll_eq_none (List.mem_range'_1.2 ha) unwritten
  simp only [fetchUnit, run, if_pos left, if_pos hf, hr]

theorem gatherTile_eq_none {s : State} {u p : Nat} (hp : p < 16) (unwritten : gatherPixel s u p = none) :
    gatherTile s u = none := by
  cases hT : gatherTile s u with
  | none => rfl
  | some T =>
    obtain ⟨len, pixel⟩ := get_of_gatherTile hT
    have := (pixel p hp).trans unwritten
    rw [List.getElem?_eq_none_iff] at this
    omega

/-- A unit of ENC whose tile cannot be gathered is not encoded, whether or not it would fit. -/
theorem encUnit_unwritten {s : State} {b : BlockFmt} (e : List Pixel → List Byte) (due : UnitDue s (.enc b))
    (unwritten : gatherTile s s.ucnt.toNat = none) : encUnit b e s = .refused .unwrittenImage := by
  rw [encUnit, if_pos ((unitReady_iff ..).2 due), unwritten]

/-- Of legal indices, the first that finds no entry ends the lookup. -/
theorem lookupIndices_unwritten {s : State} {is : List Nat} {j : Nat} (legal : ∀ i ∈ is, i < s.pallen.toNat)
    (hj : j ∈ is) (unwritten : Memory.get s.pal j = none) : lookupIndices s is = .unwritten := by
  induction is with
  | nil => cases hj
  | cons i is ih =>
    have hi : indexLegal s i = true := decide_eq_true (legal i List.mem_cons_self)
    rw [lookupIndices, if_pos hi]
    cases hp : Memory.get s.pal i with
    | none => rfl
    | some p =>
      have hj' : j ∈ is := by
        obtain rfl | hj' := List.mem_cons.1 hj
        · rw [unwritten] at hp; cases hp
        · exact hj'
      simp only [ih (fun k hk => legal k (List.mem_cons_of_mem _ hk)) hj']

/-- An indexed unit that fits, with legal indices one of which finds no entry, is not decoded. -/
theorem decIndices_unwritten {s : State} {f : Fmt} {is : List Nat} {j : Nat} (due : UnitDue s (.dec f))
    (fits : UnitFits s (.dec f)) (legal : ∀ i ∈ is, i < s.pallen.toNat) (hj : j ∈ is)
    (unwritten : Memory.get s.pal j = none) : decIndices f is s = .refused .unwrittenPalette := by
  have hf : fitsStream s s.spos.toNat (unitSize f) = true := (fitsStream_iff ..).2 fits
  rw [decIndices, if_pos ((unitReady_iff ..).2 due), if_pos hf, lookupIndices_unwritten legal hj unwritten]

/-- PAL.DEFILT reads every one of the 256 entries. -/
theorem defiltCells_eq_none {pal : Memory Pixel} {i : Nat} (hi : i < 256) (unwritten : Memory.get pal i = none) :
    defiltCells pal = none := by
  have hmem : i ∈ (List.range 256).map defiltSource :=
    List.mem_map.2 ⟨defiltSource i, List.mem_range.2 (defiltSource_lt hi), defiltSource_twice hi⟩
  rw [defiltCells, Memory.readAll_eq_none hmem unwritten]
  rfl

theorem execPalDefilt_unwritten {fmt : Byte} {s : State} {i : Nat} (idle : s.status ≠ .busy)
    (len : s.pallen.toNat = 256) (hi : i < 256) (unwritten : Memory.get s.pal i = none) :
    execPalDefilt fmt s = .refused .unwrittenPalette := by
  rw [execPalDefilt, unlessBusy_eq s _ idle, if_pos len, defiltCells_eq_none hi unwritten]

/-- Settles O60, one item after another: the bytes of a DEC unit, the pixels of an ENC unit, the entries of an
indexed unit and of PAL.DEFILT, and the host's reads. -/
theorem unwrittenItemsRefused : Obligations.UnwrittenItemsRefused := by
  refine ⟨fun f s a due waits fits lo hi unwritten => ?_, fun i b s p hi due hp inside unwritten => ?_,
    fun r l s due fits pallen unwritten => ?_, fun i s due fits legal unwritten => ?_,
    fun fmt s i idle len hi unwritten => execPalDefilt_unwritten (fmt := fmt) idle len hi unwritten,
    fun s rest idle unread => ⟨fun a hs unwritten => ?_, fun x y hs unwritten => ?_, fun i hs unwritten => ?_⟩⟩
  · rw [step_waiting due.1 waits, fetchUnit_unwrittenStream due fits ⟨lo, hi⟩ unwritten]
    rfl
  · have tile : gatherTile s s.ucnt.toNat = none :=
      gatherTile_eq_none hp (by rw [gatherPixel, if_pos inside, unwritten])
    obtain ⟨rfl, rfl⟩ | ⟨rfl, rfl⟩ | ⟨rfl, rfl⟩ := hi
    all_goals exact encUnit_unwritten _ due tile
  · have legal : ∀ i ∈ [l.toNat, r.toNat], i < s.pallen.toNat := by
      have hl := l.isLt
      have hr := r.isLt
      unfold PaletteLengthLegal at pallen
      simp only [List.forall_mem_cons]
      exact ⟨by omega, by omega, nofun⟩
    obtain unwritten | unwritten := unwritten
    · exact decIndices_unwritten due fits legal List.mem_cons_self unwritten
    · exact decIndices_unwritten due fits legal (List.mem_cons_of_mem _ List.mem_cons_self) unwritten
  · exact decIndices_unwritten due fits (by simpa using legal) List.mem_cons_self unwritten
  · rw [step_readStream idle unread hs, unwritten, Option.elim_none]
  · rw [step_readImage idle unread hs, unwritten, Option.elim_none]
  · rw [step_readPal idle unread hs, unwritten, Option.elim_none]

end Sys2Proof.Machine
end

section
/-! SUPPORT. Which instruction a step of the unit loop runs (46_commands.md R293): O30; and which memory an
instruction writes (20_memory.md R60): O51. -/

namespace Sys2Proof.Machine

/-! ### The due unit -/

section
variable {s : State} {i : Instr}

/-- A unit of DEC that fits, with its bytes written, is decoded from the stream at SPOS. -/
theorem fetchUnit_dec {f : Fmt} {bytes : List Byte} (due : UnitDue s (.dec f)) (fits : UnitFits s (.dec f))
    (hr : readStream s s.spos.toNat (unitSize f) = some bytes) (hi : decode (.unit (.dec f)) bytes = .ok i) :
    fetchUnit s = .run i s := by
  obtain ⟨_, run, left⟩ := due
  have hf : fitsStream s s.spos.toNat (unitSize f) = true := (fitsStream_iff ..).2 fits
  simp only [fetchUnit, run, if_pos left, if_pos hf, hr, hi]

/-- A unit of ENC reads nothing of the stream, and need not fit to be fetched. -/
theorem fetchUnit_enc {b : BlockFmt} (due : UnitDue s (.enc b)) (hi : decode (.unit (.enc b)) [] = .ok i) :
    fetchUnit s = .run i s := by
  obtain ⟨_, run, left⟩ := due
  simp only [fetchUnit, run, if_pos left, hi]

end

/-- Settles O30: while the host waits a step is the fetched unit, and the fetch leaves the state as it is. -/
theorem stepRunsDueUnit : Obligations.StepRunsDueUnit := by
  intro s waits
  refine ⟨fun f bytes i due fits hr hi => ?_, fun b i due hi => ?_⟩
  · rw [step_waiting due.1 waits, fetchUnit_dec due fits hr hi]; rfl
  · rw [step_waiting due.1 waits, fetchUnit_enc due hi]; rfl

/-! ### The memory an instruction writes -/

/-- An instruction that answers a next state is a command written while STATUS is not BUSY, or a unit of the
command in progress. -/
theorem exec_slot {i : Instr} {s t : State} (h : exec i s = .next t) :
    (slotOf i = .command ∧ s.status ≠ .busy) ∨ ∃ c, slotOf i = .unit c ∧ unitReady s c = true := by
  cases i with
  | reserved w => cases h
  | wireDxt1 u | wireDxt3 u | wireDxt5 u =>
    cases u with
    | read k => exact .inr ⟨_, rfl, (decUnit_next h).1⟩
    | write => exact .inr ⟨_, rfl, (encUnit_next h).1⟩
  | wireIdx4 r l => exact .inr ⟨_, rfl, (decIndices_next h).1⟩
  | wireIdx8 x => exact .inr ⟨_, rfl, (decIndices_next h).1⟩
  | _ => exact .inl ⟨rfl, (unlessBusy_next h).1⟩

/-- While a unit of `c` is due, only a unit of `c` answers a next state. -/
theorem slotOf_of_unitReady {i : Instr} {s t : State} {c : Command} (h : exec i s = .next t)
    (ready : unitReady s c = true) : slotOf i = .unit c := by
  obtain ⟨busy, run, _⟩ := (unitReady_iff ..).1 ready
  obtain ⟨_, idle⟩ | ⟨c', slot, ready'⟩ := exec_slot h
  · exact absurd busy idle
  · obtain ⟨_, run', _⟩ := (unitReady_iff ..).1 ready'
    obtain rfl : c = c' := Option.some.inj (run.symm.trans run')
    exact slot

theorem eq_write_of_slotOf_enc {i : Instr} {b : BlockFmt} (slot : slotOf i = .unit (.enc b)) :
    i = .wireDxt1 .write ∨ i = .wireDxt3 .write ∨ i = .wireDxt5 .write := by
  cases i with
  | wireDxt1 u | wireDxt3 u | wireDxt5 u => cases u <;> simp [slotOf] at slot ⊢
  | _ => cases slot

theorem eq_read_of_slotOf_dec {i : Instr} {f : Fmt} (slot : slotOf i = .unit (.dec f)) :
    (∃ k, i = .wireDxt1 (.read k)) ∨ (∃ k, i = .wireDxt3 (.read k)) ∨ (∃ k, i = .wireDxt5 (.read k)) ∨
      (∃ r l, i = .wireIdx4 r l) ∨ ∃ x, i = .wireIdx8 x := by
  cases i with
  | wireDxt1 u | wireDxt3 u | wireDxt5 u => cases u <;> simp [slotOf] at slot ⊢
  | wireIdx4 r l => exact .inr (.inr (.inr (.inl ⟨r, l, rfl⟩)))
  | wireIdx8 x => exact .inr (.inr (.inr (.inr ⟨x, rfl⟩)))
  | _ => cases slot

/-- The memories an instruction changes, by where it is encoded: a unit of DEC the image alone, a unit of ENC the
stream alone, a command the palette alone, and that by PAL.DEFILT (20 R60). -/
theorem exec_memories {i : Instr} {s t : State} (h : exec i s = .next t) :
    (t.pal = s.pal ∨ ∃ fmt, i = .palDefilt fmt) ∧
    (t.stream = s.stream ∨ ∃ b, slotOf i = .unit (.enc b)) ∧
    (t.image = s.image ∨ ∃ f, slotOf i = .unit (.dec f)) := by
  cases exec_effect h with
  | started c _ _ _ _ _ eq | ended c _ _ _ eq => subst eq; exact ⟨.inl rfl, .inl rfl, .inl rfl⟩
  | rejected e _ _ eq => subst eq; exact ⟨.inl rfl, .inl rfl, .inl rfl⟩
  | permuted fmt cells hi _ _ eq => subst eq; exact ⟨.inr ⟨fmt, hi⟩, .inl rfl, .inl rfl⟩
  | decoded f T ready _ _ eq =>
    subst eq
    exact ⟨.inl (by simp [putPixels]), .inl (by simp [putPixels]), .inr ⟨f, slotOf_of_unitReady h ready⟩⟩
  | encoded b T bytes ready _ _ _ eq =>
    subst eq
    exact ⟨.inl (by simp [putBytes]), .inr ⟨b, slotOf_of_unitReady h ready⟩, .inl (by simp [putBytes])⟩
  | failedDec f e _ ready eq =>
    subst eq; exact ⟨.inl (by simp), .inl (by simp), .inr ⟨f, slotOf_of_unitReady h ready⟩⟩
  | failedEnc b ready _ eq =>
    subst eq; exact ⟨.inl (by simp), .inr ⟨b, slotOf_of_unitReady h ready⟩, .inl (by simp)⟩

/-- Settles O51: the memory an instruction changes fixes where the instruction is encoded, and so which it is. -/
theorem memoriesWrittenByTheirCommandsOnly : Obligations.MemoriesWrittenByTheirCommandsOnly := by
  intro i s t h
  obtain ⟨pal, stream, image⟩ := exec_memories h
  refine ⟨fun notDefilt => pal.resolve_right ?_, fun n1 n3 n5 => stream.resolve_right ?_,
    fun n1 n3 n5 n4 n8 => image.resolve_right ?_⟩
  · rintro ⟨fmt, rfl⟩
    exact notDefilt fmt rfl
  · rintro ⟨b, slot⟩
    obtain rfl | rfl | rfl := eq_write_of_slotOf_enc slot
    · exact n1 rfl
    · exact n3 rfl
    · exact n5 rfl
  · rintro ⟨f, slot⟩
    obtain ⟨k, rfl⟩ | ⟨k, rfl⟩ | ⟨k, rfl⟩ | ⟨r, l, rfl⟩ | ⟨x, rfl⟩ := eq_read_of_slotOf_dec slot
    · exact n1 k rfl
    · exact n3 k rfl
    · exact n5 k rfl
    · exact n4 r l rfl
    · exact n8 x rfl

end Sys2Proof.Machine
end

section
/-! SUPPORT. The decoder against the encoder (30_encoding.md R91 to R112): the parts of a unit, the command word,
and the fields that the wire formats lay out: O1 to O6 and O8. -/

namespace Sys2Proof

/-! ### The parts of a unit -/

section
variable {n : Nat}

/-- The byte appended last is the least significant one. -/
@[simp] theorem byteOf_append_zero (x : BitVec n) (b : Byte) : byteOf (x ++ b) 0 = b := by
  apply BitVec.eq_of_toNat_eq
  have := b.isLt
  rw [toNat_byteOf, toNat_append_byte]
  omega

@[simp] theorem byteOf_append_succ (x : BitVec n) (b : Byte) (j : Nat) :
    byteOf (x ++ b) (j + 1) = byteOf x j := by
  apply BitVec.eq_of_toNat_eq
  have := b.isLt
  have shift : 2 ^ (8 * (j + 1)) = 256 * 2 ^ (8 * j) := by rw [Nat.mul_succ, Nat.pow_add, Nat.mul_comm]
  have rest : (x.toNat * 256 + b.toNat) / 256 = x.toNat := by omega
  rw [toNat_byteOf, toNat_byteOf, toNat_append_byte, shift, ← Nat.div_div_eq_div_mul, rest]

end

@[simp] theorem byteOf_byte_zero (b : Byte) : byteOf b 0 = b := by simp [byteOf]

theorem encodeColor_decodeColor (b0 b1 b2 b3 b4 b5 b6 b7 : Byte) :
    encodeColor (decodeColor b0 b1 b2 b3 b4 b5 b6 b7) = [b0, b1, b2, b3, b4, b5, b6, b7] := by
  simp only [encodeColor, decodeColor, byteOf_le16_0, byteOf_le16_1]

theorem encodeAlpha_decodeAlpha (b0 b1 b2 b3 b4 b5 b6 b7 : Byte) :
    encodeAlpha (decodeAlpha b0 b1 b2 b3 b4 b5 b6 b7) = [b0, b1, b2, b3, b4, b5, b6, b7] := by
  simp [encodeAlpha, decodeAlpha]

theorem decodeColor_encodeColor (k : ColorBlock) :
    decodeColor (byteOf k.c0 0) (byteOf k.c0 1) (byteOf k.c1 0) (byteOf k.c1 1) k.x0 k.x1 k.x2 k.x3 = k := by
  simp only [decodeColor, le16_byteOf]

/-- The 48-bit index word is its six bytes, the most significant one first (30 R99). -/
theorem decodeAlpha_encodeAlpha (k : AlphaBlock) :
    decodeAlpha k.a0 k.a1 (byteOf k.q 5) (byteOf k.q 4) (byteOf k.q 3) (byteOf k.q 2) (byteOf k.q 1)
      (byteOf k.q 0) = k := by
  have word : (decodeAlpha k.a0 k.a1 (byteOf k.q 5) (byteOf k.q 4) (byteOf k.q 3) (byteOf k.q 2) (byteOf k.q 1)
      (byteOf k.q 0)).q = k.q := by
    apply BitVec.eq_of_toNat_eq
    have := k.q.isLt
    simp only [toNat_decodeAlpha_q, toNat_byteOf]
    omega
  exact congrArg (AlphaBlock.mk k.a0 k.a1) word

/-- A byte is its two nibbles (30 R100). -/
theorem append_nibbles (b : Byte) : b.extractLsb' 4 4 ++ b.extractLsb' 0 4 = b := by
  apply BitVec.eq_of_toNat_eq
  rw [toNat_append_nibbles, toNat_nibbleHigh, toNat_nibbleLow]
  omega

theorem nibbleHigh_append (r l : BitVec 4) : (r ++ l).extractLsb' 4 4 = r := by
  apply BitVec.eq_of_toNat_eq
  have := l.isLt
  rw [toNat_nibbleHigh, toNat_append_nibbles]
  omega

theorem nibbleLow_append (r l : BitVec 4) : (r ++ l).extractLsb' 0 4 = l := by
  apply BitVec.eq_of_toNat_eq
  have := l.isLt
  rw [toNat_nibbleLow, toNat_append_nibbles]
  omega

/-! ### The command word -/

theorem wellFormed_illegalDec_iff (fmt : Byte) : (Instr.illegalDec fmt).WellFormed = true ↔
    fmt ≠ 0#8 ∧ fmt ≠ 1#8 ∧ fmt ≠ 2#8 ∧ fmt ≠ 3#8 ∧ fmt ≠ 4#8 := by
  simp only [Instr.WellFormed, decide_eq_true_eq, ne_eq, ← BitVec.toNat_inj, BitVec.reduceToNat]
  omega

theorem wellFormed_illegalEnc_iff (fmt : Byte) : (Instr.illegalEnc fmt).WellFormed = true ↔
    fmt ≠ 0#8 ∧ fmt ≠ 1#8 ∧ fmt ≠ 2#8 := by
  simp only [Instr.WellFormed, decide_eq_true_eq, ne_eq, ← BitVec.toNat_inj, BitVec.reduceToNat]
  omega

/-- The reserved words are those whose CMD byte is none of the three operations (30 R112 (c)). -/
theorem wellFormed_reserved_iff (fmt v : Byte) :
    (Instr.reserved (fmt ++ v)).WellFormed = true ↔ v ≠ 1#8 ∧ v ≠ 2#8 ∧ v ≠ 3#8 := by
  have low : (fmt ++ v).toNat % 256 = v.toNat := by
    have := v.isLt
    rw [toNat_append_byte]
    omega
  simp [Instr.WellFormed, low, ← BitVec.toNat_inj, and_assoc]

theorem decodeCommand_illegalDec {fmt : Byte} (h : (Instr.illegalDec fmt).WellFormed = true) :
    decodeCommand 1#8 fmt = .illegalDec fmt := by
  simp [decodeCommand, (wellFormed_illegalDec_iff fmt).1 h]

theorem decodeCommand_illegalEnc {fmt : Byte} (h : (Instr.illegalEnc fmt).WellFormed = true) :
    decodeCommand 2#8 fmt = .illegalEnc fmt := by
  simp [decodeCommand, (wellFormed_illegalEnc_iff fmt).1 h]

theorem decodeCommand_reserved {fmt v : Byte} (h : (Instr.reserved (fmt ++ v)).WellFormed = true) :
    decodeCommand v fmt = .reserved (fmt ++ v) := by
  simp [decodeCommand, (wellFormed_reserved_iff fmt v).1 h]

/-- A command word is an instruction with that word, and a catch-all row takes it only when no earlier row does
(30 R110, R112). -/
theorem decodeCommand_spec (v fmt : Byte) :
    encode (decodeCommand v fmt) = [v, fmt] ∧ (decodeCommand v fmt).WellFormed = true ∧
      slotOf (decodeCommand v fmt) = .command := by
  fun_cases decodeCommand v fmt
  case case6 hv n0 n1 n2 n3 n4 =>
    exact ⟨by rw [hv]; rfl, (wellFormed_illegalDec_iff fmt).2 ⟨n0, n1, n2, n3, n4⟩, rfl⟩
  case case10 _ hv n0 n1 n2 =>
    exact ⟨by rw [hv]; rfl, (wellFormed_illegalEnc_iff fmt).2 ⟨n0, n1, n2⟩, rfl⟩
  case case12 n1 n2 n3 =>
    exact ⟨by simp [encode], (wellFormed_reserved_iff fmt v).2 ⟨n1, n2, n3⟩, rfl⟩
  all_goals
    subst_vars
    exact ⟨rfl, rfl, rfl⟩

/-! ### Decode after encode -/

/-- Settles O1, row by row: a catch-all row by the words its earlier rows leave, a unit by its parts. -/
theorem decodeOfEncodeIsIdentity : Obligations.DecodeOfEncodeIsIdentity := by
  intro i wf
  cases i with
  | illegalDec fmt => exact congrArg Except.ok (decodeCommand_illegalDec wf)
  | illegalEnc fmt => exact congrArg Except.ok (decodeCommand_illegalEnc wf)
  | reserved cmd16 =>
    have word : byteOf cmd16 1 ++ byteOf cmd16 0 = cmd16 := le16_byteOf cmd16
    rw [← word] at wf
    exact congrArg Except.ok ((decodeCommand_reserved wf).trans (congrArg Instr.reserved word))
  | wireDxt1 u =>
    cases u with
    | read k => exact congrArg (fun k => Except.ok (Instr.wireDxt1 (.read k))) (decodeColor_encodeColor k)
    | write => rfl
  | wireDxt3 u =>
    cases u with
    | read k =>
      exact congrArg (fun c => Except.ok (Instr.wireDxt3 (.read ⟨k.alpha, c⟩))) (decodeColor_encodeColor k.color)
    | write => rfl
  | wireDxt5 u =>
    cases u with
    | read k =>
      exact congrArg₂ (fun a c => Except.ok (Instr.wireDxt5 (.read ⟨a, c⟩))) (decodeAlpha_encodeAlpha k.alpha)
        (decodeColor_encodeColor k.color)
    | write => rfl
  | wireIdx4 r l =>
    exact congrArg₂ (fun r l => Except.ok (Instr.wireIdx4 r l)) (nibbleHigh_append r l) (nibbleLow_append r l)
  | _ => rfl

/-! ### Encode after decode -/

/-- The bytes of a unit are an instruction with those bytes, well-formed, and a unit of the format. -/
theorem decodeUnitBytes_spec {f : Fmt} {bytes : List Byte} {i : Instr} (h : decodeUnitBytes f bytes = .ok i) :
    encode i = bytes ∧ i.WellFormed = true ∧ slotOf i = .unit (.dec f) := by
  unfold decodeUnitBytes at h
  split at h
  all_goals cases h
  all_goals refine ⟨?_, rfl, rfl⟩
  · exact encodeColor_decodeColor ..
  · exact congrArg (_ :: _ :: _ :: _ :: _ :: _ :: _ :: _ :: ·) (encodeColor_decodeColor ..)
  · exact congrArg₂ (· ++ ·) (encodeAlpha_decodeAlpha ..) (encodeColor_decodeColor ..)
  · exact congrArg ([·]) (append_nibbles _)
  · rfl

/-- Settles O2, slot by slot: a command word, a unit of DEC from its bytes, a unit of ENC from none. -/
theorem encodeOfDecodeIsIdentity : Obligations.EncodeOfDecodeIsIdentity := by
  intro sl bytes i h
  unfold decode at h
  split at h
  case h_1 v fmt =>
    cases h
    exact decodeCommand_spec v fmt
  case h_2 => cases h
  case h_3 f => exact decodeUnitBytes_spec h
  case h_4 b =>
    cases h
    cases b <;> exact ⟨rfl, rfl, rfl⟩
  case h_5 => cases h

/-! ### What is no instruction -/

theorem encode_length (i : Instr) : (encode i).length = slotBytes (slotOf i) := by
  cases i with
  | wireDxt1 u => exact Laws.EncodeLength.wireDxt1 u
  | wireDxt3 u => exact Laws.EncodeLength.wireDxt3 u
  | wireDxt5 u => exact Laws.EncodeLength.wireDxt5 u
  | _ => rfl

theorem decodeUnitBytes_isOk : ∀ {f : Fmt} {bytes : List Byte}, bytes.length = unitSize f →
    ∃ i, decodeUnitBytes f bytes = .ok i
  | .block .dxt1, [_, _, _, _, _, _, _, _], _ => ⟨_, rfl⟩
  | .block .dxt3, [_, _, _, _, _, _, _, _, _, _, _, _, _, _, _, _], _ => ⟨_, rfl⟩
  | .block .dxt5, [_, _, _, _, _, _, _, _, _, _, _, _, _, _, _, _], _ => ⟨_, rfl⟩
  | .idx4, [_], _ => ⟨_, rfl⟩
  | .idx8, [_], _ => ⟨_, rfl⟩

theorem decode_isOk : ∀ {sl : Slot} {bytes : List Byte}, bytes.length = slotBytes sl →
    ∃ i, decode sl bytes = .ok i
  | .command, [_, _], _ => ⟨_, rfl⟩
  | .unit (.dec _), _, len => decodeUnitBytes_isOk len
  | .unit (.enc _), [], _ => ⟨_, rfl⟩

/-- Settles O3: bytes of the right length are an instruction, and what is one has its encoding's length. -/
theorem decodeRejectsExactlyWrongLengths : Obligations.DecodeRejectsExactlyWrongLengths := by
  intro sl bytes
  constructor
  · rintro ⟨r, rejected⟩ len
    obtain ⟨i, hi⟩ := decode_isOk len
    rw [hi] at rejected
    cases rejected
  · intro len
    cases h : decode sl bytes with
    | error r => exact ⟨r, rfl⟩
    | ok i =>
      obtain ⟨rfl, _, rfl⟩ := encodeOfDecodeIsIdentity sl bytes i h
      exact absurd (encode_length i) len

/-! ### The spec's words, and the layouts of the wire formats -/

/-- Settles O4: each word is decoded by evaluation. -/
theorem specWordsDecode : Obligations.SpecWordsDecode :=
   ⟨rfl, rfl, rfl, rfl, rfl, rfl, rfl, rfl, rfl, rfl, rfl, rfl⟩

/-- Settles O6: the endpoints are read little-endian, and every other field is a byte of the block or a part
that is encoded back to its bytes. -/
theorem endpointLayout : Obligations.EndpointLayout := by
  intro b0 b1 b2 b3 b4 b5 b6 b7
  have low : ∀ x y : Byte, (le16 x y).toNat = x.toNat + 256 * y.toNat := fun x y => by rw [toNat_le16]; omega
  exact ⟨decodeColor b0 b1 b2 b3 b4 b5 b6 b7, rfl,
    ⟨byteOf_le16_0 b0 b1, byteOf_le16_1 b0 b1, byteOf_le16_0 b2 b3, byteOf_le16_1 b2 b3, rfl, rfl, rfl, rfl⟩,
    ⟨low b0 b1, low b2 b3⟩,
    fun p0 p1 p2 p3 p4 p5 p6 p7 => ⟨rfl, decodeAlpha p0 p1 p2 p3 p4 p5 p6 p7, rfl, rfl, rfl, rfl,
      encodeAlpha_decodeAlpha ..⟩⟩

end Sys2Proof

namespace Sys2Proof.Machine

theorem indexByte_decodeColor (b0 b1 b2 b3 b4 b5 b6 b7 : Byte) {r : Nat} (hr : r < 4) :
    indexByte (decodeColor b0 b1 b2 b3 b4 b5 b6 b7) r = [b4, b5, b6, b7].getD r 0#8 := by
  match r, hr with
  | 0, _ | 1, _ | 2, _ | 3, _ => rfl

/-- The index at row r and column c is the bit pair 2c+1 : 2c of the row's byte (41 R143). -/
theorem colorIndex_decodeColor (b0 b1 b2 b3 b4 b5 b6 b7 : Byte) {r c : Nat} (hr : r < 4) (hc : c < 4) :
    colorIndex (decodeColor b0 b1 b2 b3 b4 b5 b6 b7) (4 * r + c) =
      (([b4, b5, b6, b7].getD r 0#8).extractLsb' (2 * c) 2).toNat := by
  have row : (4 * r + c) / 4 = r := by omega
  have column : (4 * r + c) % 4 = c := by omega
  rw [colorIndex, row, column, indexByte_decodeColor _ _ _ _ _ _ _ _ hr, BitVec.extractLsb'_toNat]

/-- Settles O5: pair k is at bits 2(3 - k%4)+1 : 2(3 - k%4) of byte k/4, the most significant pair first. -/
theorem colorIndexLayout : Obligations.ColorIndexLayout := by
  intro b0 b1 b2 b3 b4 b5 b6 b7
  refine ⟨fun k hk => ?_, fun r c hr hc => colorIndex_decodeColor _ _ _ _ _ _ _ _ hr hc⟩
  have pair : 2 * (3 - k % 4) = 6 - 2 * (k % 4) := by omega
  rw [colorIndex_decodeColor _ _ _ _ _ _ _ _ (by omega) (by omega), pair]

theorem planeByte_eq_getD (b0 b1 b2 b3 b4 b5 b6 b7 : Byte) {j : Nat} (hj : j < 8) :
    planeByte ⟨b0, b1, b2, b3, b4, b5, b6, b7⟩ j = [b0, b1, b2, b3, b4, b5, b6, b7].getD j 0#8 := by
  match j, hj with
  | 0, _ | 1, _ | 2, _ | 3, _ | 4, _ | 5, _ | 6, _ | 7, _ => rfl

/-- A nibble is a 4-bit field of its byte, the low one where n is even (30 R96). -/
theorem planeNibble_eq_extract (k : AlphaPlane) (n : Nat) :
    planeNibble k n = ((planeByte k (n / 2)).extractLsb' (4 * (n % 2)) 4).toNat := by
  unfold planeNibble
  obtain even | odd := Nat.mod_two_eq_zero_or_one n
  · rw [if_pos even, even, Nat.mul_zero, toNat_nibbleLow]
  · rw [if_neg (by omega), odd, Nat.mul_one, toNat_nibbleHigh]

/-- Settles O8: the nibble as a field of its byte, over 15. -/
theorem alphaPlaneLayout : Obligations.AlphaPlaneLayout := by
  intro b0 b1 b2 b3 b4 b5 b6 b7 n hn
  have byte := planeByte_eq_getD b0 b1 b2 b3 b4 b5 b6 b7 (j := n / 2) (by omega)
  rw [alpha4Decode, List.getElem?_map, List.getElem?_range hn, Option.map_some, alpha4At, planeNibble_eq_extract, byte]

end Sys2Proof.Machine
end

section
/-! SUPPORT. The catch-all rows of DEC and ENC (60_exceptions.md R331): O37; and what stops a command at its start,
with the marks of the written registers, which stop nothing (30_encoding.md R112, 45_indexed_palette.md R262): O39. -/

namespace Sys2Proof.Machine

/-- Settles O37: what a catch-all row holds, and the error entry that its command answers. -/
theorem unsupportedFormatEndsCommand : Obligations.UnsupportedFormatEndsCommand := by
  refine ⟨fun fmt above => congrArg Except.ok (decodeCommand_illegalDec (decide_eq_true above)),
    fun fmt above => congrArg Except.ok (decodeCommand_illegalEnc (decide_eq_true above)),
    fun i fmt s hi idle => ⟨Config.freeSpos s.draws, s.draws + 1, ?_⟩⟩
  obtain rfl | rfl := hi
  all_goals exact unlessBusy_eq s _ idle

/-! ### What stops a command at its start -/

section
variable {s : State}

theorem unlessBusy_answers {k : Result} (idle : s.status ≠ .busy) (h : ∃ t, k = .next t) :
    ∃ t, unlessBusy s k = .next t := by
  rwa [unlessBusy_eq s k idle]

theorem startLoop_answers (c : Command) (s : State) : ∃ t, startLoop c s = .next t := by
  unfold startLoop
  split
  · exact ⟨_, rfl⟩
  · exact ⟨_, rfl⟩

theorem paletteCheck_legal {k : Result} (h : PaletteLengthLegal s) : paletteCheck s k = k := if_pos h

/-- An illegal palette length is an error, not a stop (45 R261). -/
theorem paletteCheck_answers {k : Result} (h : PaletteLengthLegal s → ∃ t, k = .next t) :
    ∃ t, paletteCheck s k = .next t := by
  unfold paletteCheck
  split
  · exact h ‹_›
  · exact ⟨_, rfl⟩

theorem execPalDefilt_answers {fmt : Byte} (idle : s.status ≠ .busy)
    (entries : s.pallen.toNat = 256 → ∀ j, j < 256 → (Memory.get s.pal j).isSome) :
    ∃ t, execPalDefilt fmt s = .next t := by
  refine unlessBusy_answers idle ?_
  split
  · obtain ⟨cells, hc⟩ := defiltCells_isSome (entries ‹_›)
    rw [hc]
    exact ⟨_, rfl⟩
  · exact ⟨_, rfl⟩

theorem execDecIdx4_oddWidth (idle : s.status ≠ .busy) (pallen : PaletteLengthLegal s)
    (odd : s.width.toNat % 2 = 1) : execDecIdx4 s = .refused .oddIdx4Width := by
  rw [execDecIdx4, unlessBusy_eq s _ idle, paletteCheck_legal pallen, evenWidthCheck, if_neg (by omega)]

theorem execDecIdx4_answers (idle : s.status ≠ .busy) (even : PaletteLengthLegal s → s.width.toNat % 2 = 0) :
    ∃ t, execDecIdx4 s = .next t := by
  refine unlessBusy_answers idle (paletteCheck_answers fun pallen => ?_)
  rw [evenWidthCheck, if_pos (even pallen)]
  exact startLoop_answers ..

/-- Every command but a reserved one starts or ends with an error, where the width of DEC.IDX4 and the palette of
PAL.DEFILT allow it. -/
theorem exec_command_answers {i : Instr} (slot : slotOf i = .command) (idle : s.status ≠ .busy)
    (notReserved : ∀ w, i ≠ .reserved w) (even : i = .decIdx4 → PaletteLengthLegal s → s.width.toNat % 2 = 0)
    (entries : (∃ fmt, i = .palDefilt fmt) → s.pallen.toNat = 256 →
      ∀ j, j < 256 → (Memory.get s.pal j).isSome) :
    ∃ t, exec i s = .next t := by
  cases i with
  | decDxt1 | decDxt3 | decDxt5 | encDxt1 | encDxt3 | encDxt5 =>
    exact unlessBusy_answers idle (startLoop_answers ..)
  | decIdx4 => exact execDecIdx4_answers idle (even rfl)
  | decIdx8 => exact unlessBusy_answers idle (paletteCheck_answers fun _ => startLoop_answers ..)
  | palDefilt fmt => exact execPalDefilt_answers (fmt := fmt) idle (entries ⟨fmt, rfl⟩)
  | illegalDec fmt | illegalEnc fmt => exact unlessBusy_answers idle ⟨_, rfl⟩
  | reserved w => exact absurd rfl (notReserved w)
  | wireDxt1 u | wireDxt3 u | wireDxt5 u => cases u <;> cases slot
  | wireIdx4 | wireIdx8 => cases slot

end

/-! ### No instruction looks at the marks -/

/-- Two answers that differ in the marks of the written registers alone. -/
inductive SameButMarks : Result → Result → Prop where
  | next (t : State) (m : Written) : SameButMarks (.next t) (.next { t with written := m })
  | refused (r : Refusal) : SameButMarks (.refused r) (.refused r)

theorem SameButMarks.of_eq {t u : State} {m : Written} (h : u = { t with written := m }) :
    SameButMarks (.next t) (.next u) := by
  subst h
  exact .next t m

theorem SameButMarks.ite {p : Prop} [Decidable p] {a a' b b' : Result} (ha : SameButMarks a a')
    (hb : SameButMarks b b') : SameButMarks (if p then a else b) (if p then a' else b') := by
  split
  · exact ha
  · exact hb

theorem SameButMarks.exists_next {r r' : Result} {t : State} (h : SameButMarks r r') (hr : r = .next t) :
    ∃ m, r' = .next { t with written := m } := by
  cases h with
  | next u m =>
    cases hr
    exact ⟨m, rfl⟩
  | refused => cases hr

section
variable (s : State) (w : Written)

theorem unlessBusy_marks {k k' : Result} (h : SameButMarks k k') :
    SameButMarks (unlessBusy s k) (unlessBusy { s with written := w } k') := .ite (.refused _) h

theorem raiseError_marks (e : ErrCode) : SameButMarks (.next (raiseError e (beginCommand s)))
    (.next (raiseError e (beginCommand { s with written := w }))) := .next ..

theorem startLoop_marks (c : Command) : SameButMarks (startLoop c s) (startLoop c { s with written := w }) :=
  .ite (.next ..) (.next ..)

theorem paletteCheck_marks {k k' : Result} (h : SameButMarks k k') :
    SameButMarks (paletteCheck s k) (paletteCheck { s with written := w } k') := .ite h (raiseError_marks ..)

theorem evenWidthCheck_marks {k k' : Result} (h : SameButMarks k k') :
    SameButMarks (evenWidthCheck s k) (evenWidthCheck { s with written := w } k') := .ite h (.refused _)

theorem execPalDefilt_marks (fmt : Byte) :
    SameButMarks (execPalDefilt fmt s) (execPalDefilt fmt { s with written := w }) := by
  refine unlessBusy_marks s w (.ite ?_ (raiseError_marks ..))
  dsimp only
  cases defiltCells s.pal with
  | none => exact .refused _
  | some cells => exact .next ..

theorem putPixels_marks (f : Fmt) (T : List Pixel) :
    putPixels f T { s with written := w } = { putPixels f T s with written := w } := by
  simp [putPixels, advanceUnit_eq, unitTotal]

theorem putBytes_marks (b : BlockFmt) (bytes : List Byte) :
    putBytes b bytes { s with written := w } = { putBytes b bytes s with written := w } := by
  simp [putBytes, advanceUnit_eq, unitTotal]

theorem raiseInUnit_marks (c : Command) (e : ErrCode) : SameButMarks (.next (raiseInUnit c e s))
    (.next (raiseInUnit c e { s with written := w })) := by
  cases c with
  | dec f => exact .next ..
  | enc b => exact .next ..

theorem lookupIndices_marks (is : List Nat) : lookupIndices { s with written := w } is = lookupIndices s is := by
  induction is with
  | nil => rfl
  | cons i is ih => rw [lookupIndices, lookupIndices, ih]; rfl

theorem gatherFrom_marks (u : Nat) (ps : List Nat) : gatherFrom { s with written := w } u ps = gatherFrom s u ps := by
  induction ps with
  | nil => rfl
  | cons p ps ih => rw [gatherFrom, gatherFrom, ih]; rfl

theorem gatherTile_marks (u : Nat) : gatherTile { s with written := w } u = gatherTile s u := gatherFrom_marks ..

theorem decUnit_marks (f : Fmt) (T : List Pixel) :
    SameButMarks (decUnit f T s) (decUnit f T { s with written := w }) :=
  .ite (.ite (.of_eq (putPixels_marks ..)) (raiseInUnit_marks ..)) (.refused _)

theorem decIndices_marks (f : Fmt) (is : List Nat) :
    SameButMarks (decIndices f is s) (decIndices f is { s with written := w }) := by
  refine .ite (.ite ?_ (raiseInUnit_marks ..)) (.refused _)
  rw [lookupIndices_marks s w]
  cases lookupIndices s is with
  | pixels T => exact .of_eq (putPixels_marks ..)
  | outOfRange => exact raiseInUnit_marks ..
  | unwritten => exact .refused _

theorem encUnit_marks (b : BlockFmt) (e : List Pixel → List Byte) :
    SameButMarks (encUnit b e s) (encUnit b e { s with written := w }) := by
  refine .ite ?_ (.refused _)
  dsimp only
  rw [gatherTile_marks s w]
  cases gatherTile s s.ucnt.toNat with
  | none => exact .refused _
  | some T => exact .ite (.of_eq (putBytes_marks (afterGather s) w ..)) (raiseInUnit_marks (afterGather s) w ..)

/-- An instruction's answer is the same, but for the marks, whatever registers are marked as written (log 2). -/
theorem exec_marks (i : Instr) : SameButMarks (exec i s) (exec i { s with written := w }) := by
  cases i with
  | decDxt1 | decDxt3 | decDxt5 | encDxt1 | encDxt3 | encDxt5 => exact unlessBusy_marks _ _ (startLoop_marks ..)
  | decIdx4 =>
    exact unlessBusy_marks _ _ (paletteCheck_marks _ _ (evenWidthCheck_marks _ _ (startLoop_marks ..)))
  | decIdx8 => exact unlessBusy_marks _ _ (paletteCheck_marks _ _ (startLoop_marks ..))
  | palDefilt fmt => exact execPalDefilt_marks s w fmt
  | illegalDec fmt | illegalEnc fmt => exact unlessBusy_marks _ _ (raiseError_marks ..)
  | reserved v => exact .refused _
  | wireDxt1 u | wireDxt3 u | wireDxt5 u =>
    cases u with
    | read k => exact decUnit_marks ..
    | write => exact encUnit_marks ..
  | wireIdx4 r l => exact decIndices_marks ..
  | wireIdx8 x => exact decIndices_marks ..

end

/-- Settles O39: the two stops, the answers of every other command, and the marks, at which none of them looks. -/
theorem commandsWithoutMeaningRefused : Obligations.CommandsWithoutMeaningRefused :=
  ⟨fun _ _ => rfl, fun _ idle pallen odd => execDecIdx4_oddWidth idle pallen odd,
    fun _ _ slot idle notReserved even entries => exec_command_answers slot idle notReserved even entries,
    fun i s _ w h => (exec_marks s w i).exists_next h⟩

end Sys2Proof.Machine
end

section
/-! SUPPORT. The RGB565 colour unit (40_rgb565.md): PACK565 undoes UNPACK565 (R123): O10; and UNPACK565 is its
formula, which rounds (R121): O9. -/

namespace Sys2Proof.Machine

/-! ### Rounding a quotient -/

/-- Rounding a quotient of natural numbers half up is one integer division. -/
theorem rnd_natCast_div (n d : Nat) (hd : 0 < d) : rnd ((n : Rat) / d) = (2 * n + d) / (2 * d) := by
  have hd' : (d : Rat) ≠ 0 := by positivity
  have sum : (n : Rat) / d + 1 / 2 = ((2 * n + d : Nat) : Rat) / (2 * d : Nat) := by
    push_cast
    field_simp
  have floor : ⌊((2 * n + d : Nat) : Rat) / (2 * d : Nat)⌋.toNat = (2 * n + d) / (2 * d) := by
    rw [Int.floor_toNat, Nat.floor_div_eq_div]
  rw [rnd, sum]
  exact floor

/-! ### The fields of a packed colour -/

theorem field5R_eq (v : Half) : field5R v = v.toNat / 2048 := by
  rw [field5R, BitVec.extractLsb'_toNat, Nat.shiftRight_eq_div_pow]
  omega

theorem field6G_eq (v : Half) : field6G v = v.toNat / 32 % 64 := by
  rw [field6G, BitVec.extractLsb'_toNat, Nat.shiftRight_eq_div_pow]

theorem field5B_eq (v : Half) : field5B v = v.toNat % 32 := by
  rw [field5B, BitVec.extractLsb'_toNat, Nat.shiftRight_zero]

theorem field5R_lt (v : Half) : field5R v < 32 := (v.extractLsb' 11 5).isLt

theorem field6G_lt (v : Half) : field6G v < 64 := (v.extractLsb' 5 6).isLt

theorem field5B_lt (v : Half) : field5B v < 32 := (v.extractLsb' 0 5).isLt

@[simp] theorem packFields_fields (v : Half) : packFields (field5R v) (field6G v) (field5B v) = v := by
  apply BitVec.eq_of_toNat_eq
  rw [packFields, BitVec.toNat_ofNat, field5R_eq, field6G_eq, field5B_eq]
  omega

/-! ### Expanding a field to 8 bits -/

theorem expand5_eq (f : Nat) : expand5 f = (f * 527 + 23) / 64 := Nat.shiftRight_eq_div_pow _ 6

theorem expand6_eq (f : Nat) : expand6 f = (f * 259 + 33) / 64 := Nat.shiftRight_eq_div_pow _ 6

/-- The 5-bit expansion rounds to the nearest 255th (40 R121). The slopes 527/64 and 255/31 differ, and the bounds of
the two divisions leave room for two integers: as in the rule, all 32 fields are compared. -/
theorem expand5_eq_rnd {f : Nat} (h : f < 32) : expand5 f = rnd ((f : Rat) * 255 / 31) := by
  have e : rnd ((f : Rat) * 255 / 31) = (2 * (f * 255) + 31) / (2 * 31) := by
    exact_mod_cast rnd_natCast_div (f * 255) 31 (by decide)
  have all32 : ∀ g < 32, (g * 527 + 23) / 64 = (2 * (g * 255) + 31) / (2 * 31) := by decide
  rw [expand5_eq, e, all32 f h]

/-- The 6-bit expansion rounds to the nearest 255th (40 R121). -/
theorem expand6_eq_rnd {f : Nat} (h : f < 64) : expand6 f = rnd ((f : Rat) * 255 / 63) := by
  have e : rnd ((f : Rat) * 255 / 63) = (2 * (f * 255) + 63) / (2 * 63) := by
    exact_mod_cast rnd_natCast_div (f * 255) 63 (by decide)
  rw [expand6_eq, e]
  omega

/-! ### Quantising an expanded field -/

theorem quant5_natCast_div (n : Nat) : quant5 ((n : Rat) / 255) = (2 * (n * 31) + 255) / (2 * 255) := by
  rw [quant5, div_mul_eq_mul_div]
  exact_mod_cast rnd_natCast_div (n * 31) 255 (by decide)

theorem quant6_natCast_div (n : Nat) : quant6 ((n : Rat) / 255) = (2 * (n * 63) + 255) / (2 * 255) := by
  rw [quant6, div_mul_eq_mul_div]
  exact_mod_cast rnd_natCast_div (n * 63) 255 (by decide)

/-- A 5-bit field's expansion quantises back to the field (40 R123). -/
theorem quant5_expand5 {f : Nat} (h : f < 32) : quant5 ((expand5 f : Rat) / 255) = f := by
  rw [quant5_natCast_div, expand5_eq]
  omega

/-- A 6-bit field's expansion quantises back to the field (40 R123). -/
theorem quant6_expand6 {f : Nat} (h : f < 64) : quant6 ((expand6 f : Rat) / 255) = f := by
  rw [quant6_natCast_div, expand6_eq]
  omega

/-! ### The two statements -/

/-- Settles O10: each channel quantises back to its field, and the fields make up the packed colour. -/
theorem packInvertsUnpack : Obligations.PackInvertsUnpack := by
  intro v
  rw [pack565, unpack565, quant5_expand5 (field5R_lt v), quant6_expand6 (field6G_lt v),
    quant5_expand5 (field5B_lt v), packFields_fields]

/-- Settles O9: the shifts are divisions by 64, and the expansions the rounded quotients. -/
theorem unpackFollowsFormula : Obligations.UnpackFollowsFormula := by
  refine ⟨fun v => ?formula, fun v => ⟨field5R_eq v, field6G_eq v, field5B_eq v⟩, fun f h => ?rounds5,
    fun f h => ?rounds6, ?grey⟩
  case formula => rw [unpack565, expand5_eq, expand6_eq, expand5_eq]
  case rounds5 => rw [← expand5_eq, expand5_eq_rnd h]
  case rounds6 => rw [← expand6_eq, expand6_eq_rnd h]
  case grey => decide +kernel

end Sys2Proof.Machine
end

section
/-! SUPPORT. The endpoint selector (44_endpoint_selector.md): the fitted line of an ascending list does not fall, so
SELECT's pair is ascending and within the channel's maximum (R245), as the colour fit of 41_dxt1.md needs (R152). -/

namespace Sys2Proof.Machine

/-! ### The fitted line -/

theorem weightedSum_succ (i : Nat) (ys : List Nat) : weightedSum (i + 1) ys = weightedSum i ys + sumOf ys := by
  induction ys generalizing i with
  | nil => rfl
  | cons y ys ih =>
    rw [weightedSum, weightedSum, sumOf, ih]
    ring

theorem length_mul_le_sumOf {y : Nat} {ys : List Nat} (h : ∀ v ∈ ys, y ≤ v) : ys.length * y ≤ sumOf ys := by
  induction ys with
  | nil => simp
  | cons z zs ih =>
    obtain ⟨hz, hzs⟩ := List.forall_mem_cons.1 h
    rw [List.length_cons, sumOf, Nat.succ_mul, Nat.add_comm]
    exact Nat.add_le_add hz (ih hzs)

/-- In an ascending list the later, heavier values are the larger: the sum weighted by index is at least the mean
index times the plain sum. -/
theorem mul_sumOf_le_weightedSum {ys : List Nat} (h : ys.Pairwise (· < ·)) :
    ys.length * sumOf ys ≤ 2 * weightedSum 0 ys + sumOf ys := by
  induction ys with
  | nil => simp [sumOf]
  | cons y ys ih =>
    obtain ⟨hy, hys⟩ := List.pairwise_cons.1 h
    have tail := ih hys
    have head : ys.length * y ≤ sumOf ys := length_mul_le_sumOf fun v hv => (hy v hv).le
    rw [List.length_cons, sumOf, weightedSum, weightedSum_succ]
    linarith

/-- The least-squares line of an ascending list does not fall (44 R245). -/
theorem fitSlope_nonneg {ys : List Nat} (h : ys.Pairwise (· < ·)) : 0 ≤ fitSlope ys := by
  cases ys with
  | nil => simp [fitSlope]
  | cons y ys =>
    have sums : ((y :: ys).length : Rat) * sumOf (y :: ys) ≤ 2 * weightedSum 0 (y :: ys) + sumOf (y :: ys) := by
      exact_mod_cast mul_sumOf_le_weightedSum h
    have length : (1 : Rat) ≤ (y :: ys).length := by simp
    unfold fitSlope
    generalize ((y :: ys).length : Rat) = N at *
    have numerator : N * weightedSum 0 (y :: ys) - N * (N - 1) / 2 * sumOf (y :: ys) =
        N / 2 * (2 * weightedSum 0 (y :: ys) + sumOf (y :: ys) - N * sumOf (y :: ys)) := by ring
    have denominator : N * ((N - 1) * N * (2 * N - 1) / 6) - N * (N - 1) / 2 * (N * (N - 1) / 2) =
        N * N * (N - 1) * (N + 1) / 12 := by ring
    dsimp only
    rw [numerator, denominator]
    have : 0 ≤ N - 1 := sub_nonneg.2 length
    have : 0 ≤ 2 * (weightedSum 0 (y :: ys) : Rat) + sumOf (y :: ys) - N * sumOf (y :: ys) := sub_nonneg.2 sums
    positivity

theorem fitEnds_ordered {ys : List Nat} (h : ys.Pairwise (· < ·)) (max : Nat) :
    (fitEnds ys max).1 ≤ (fitEnds ys max).2 ∧ (fitEnds ys max).2 ≤ max := by
  have top : (0 : Rat) ≤ max := Nat.cast_nonneg max
  refine ⟨rnd_mono (clamp_mono top ?rises), rnd_le (clamp_bounds top).2⟩
  case rises =>
    cases ys with
    | nil => simp [fitSlope]
    | cons y ys =>
      have rise : 0 ≤ fitSlope (y :: ys) * (((y :: ys).length : Rat) - 1) :=
        mul_nonneg (fitSlope_nonneg h) (by simp)
      linarith

/-! ### SELECT -/

/-- SELECT answers an ascending pair at most `max`, if the values are at most `max` and the default is such a pair. -/
theorem select_ordered {V : List Nat} {max : Nat} {d : Nat × Nat} (hV : ∀ v ∈ V, v ≤ max)
    (hd : d.1 ≤ d.2 ∧ d.2 ≤ max) : (select V max d).1 ≤ (select V max d).2 ∧ (select V max d).2 ≤ max := by
  have sorted := sorted_ascending V
  have bounded : ∀ v ∈ ascending V, v ≤ max := fun v hv => hV v (mem_ascending.1 hv)
  unfold select
  split
  next => exact hd
  next y0 e => exact ⟨le_rfl, bounded y0 (by simp [e])⟩
  next y0 y1 e =>
    rw [e] at sorted
    exact ⟨(List.rel_of_pairwise_cons sorted (by simp)).le, bounded y1 (by simp [e])⟩
  next => exact fitEnds_ordered sorted max

/-- SELECT over one value, however often it occurs, answers it twice (44 R241, N = 1). -/
theorem select_replicate {n : Nat} (hn : n ≠ 0) (v max : Nat) (d : Nat × Nat) :
    select (List.replicate n v) max d = (v, v) :=
  calc select (List.replicate n v) max d
    _ = select [v] max d := select_congr (by simp [hn]) max d
    _ = (v, v) := rfl

end Sys2Proof.Machine
end

section
/-! SUPPORT. The DXT1 block colour codec (41_dxt1.md): the palette and the decoded pixels (R141 to R144): O11; the
indices read back (R156): O16; the colour fit (R150 to R153): O14; the nearest indices (R155): O15; and the two tiles
the spec derives: transparent (R157): O17, and solid (R158): O18. -/

namespace Sys2Proof.Machine

/-! ### The palette and the decoded pixels -/

theorem lerp3_third (x y : Color) :
    lerp3 x y (1 / 3) = ⟨(2 * x.r + y.r) / 3, (2 * x.g + y.g) / 3, (2 * x.b + y.b) / 3⟩ := by
  simp only [lerp3, lerp, Color.mk.injEq]
  refine ⟨?_, ?_, ?_⟩ <;> ring

theorem lerp3_two_thirds (x y : Color) :
    lerp3 x y (2 / 3) = ⟨(x.r + 2 * y.r) / 3, (x.g + 2 * y.g) / 3, (x.b + 2 * y.b) / 3⟩ := by
  simp only [lerp3, lerp, Color.mk.injEq]
  refine ⟨?_, ?_, ?_⟩ <;> ring

theorem lerp3_half (x y : Color) :
    lerp3 x y (1 / 2) = ⟨(x.r + y.r) / 2, (x.g + y.g) / 2, (x.b + y.b) / 2⟩ := by
  simp only [lerp3, lerp, Color.mk.injEq]
  refine ⟨?_, ?_, ?_⟩ <;> ring

theorem lerp3_self (x : Color) (t : Rat) : lerp3 x x t = x := by simp [lerp3, lerp]

theorem paletteDxt1_four {c0 c1 : Half} (h : c1.toNat < c0.toNat) : paletteDxt1 c0 c1 =
    [withAlpha (unpack565 c0) 1, withAlpha (unpack565 c1) 1, withAlpha (lerp3 (unpack565 c0) (unpack565 c1) (1 / 3)) 1,
      withAlpha (lerp3 (unpack565 c0) (unpack565 c1) (2 / 3)) 1] :=
  if_pos h

theorem paletteDxt1_three {c0 c1 : Half} (h : c0.toNat ≤ c1.toNat) : paletteDxt1 c0 c1 =
    [withAlpha (unpack565 c0) 1, withAlpha (unpack565 c1) 1, withAlpha (lerp3 (unpack565 c0) (unpack565 c1) (1 / 2)) 1,
      clearPixel] :=
  if_neg (Nat.not_lt.2 h)

@[simp] theorem paletteDxt1_length (c0 c1 : Half) : (paletteDxt1 c0 c1).length = 4 := by
  unfold paletteDxt1
  split <;> rfl

theorem colorIndex_lt (k : ColorBlock) (p : Nat) : colorIndex k p < 4 := Nat.mod_lt _ (by decide)

theorem paletteDxt1_colorIndex (k : ColorBlock) (p : Nat) :
    (paletteDxt1 k.c0 k.c1)[colorIndex k p]? = some (colorPixel k p) := by
  have h : colorIndex k p < (paletteDxt1 k.c0 k.c1).length := by simpa using colorIndex_lt k p
  rw [colorPixel, List.getD_eq_getElem _ _ h, List.getElem?_eq_getElem h]

/-- Settles O11: the two modes are the two branches of the palette, with the interpolations written out. -/
theorem paletteModesFollowEndpointOrder : Obligations.PaletteModesFollowEndpointOrder := by
  refine fun k => ⟨fun four => ?_, fun three => ?_, fun p hp => ⟨?_, colorIndex_lt k p⟩⟩
  · rw [paletteDxt1_four four, lerp3_third, lerp3_two_thirds]
    rfl
  · rw [paletteDxt1_three three, lerp3_half]
    rfl
  · rw [paletteDxt1_colorIndex, decodeTileDxt1, List.getElem?_map, List.getElem?_range hp]
    rfl

/-! ### Packed indices -/

theorem indexByte_packColorBlock (c0 c1 : Half) (idx : List Nat) {r : Nat} (hr : r < 4) :
    indexByte (packColorBlock c0 c1 idx) r = packIndexRow idx r := by
  match r, hr with
  | 0, _ | 1, _ | 2, _ | 3, _ => rfl

/-- A row byte holds the index of column c at bits 2c+1 : 2c: its base-4 digit number c. -/
theorem packIndexRow_column {idx : List Nat} (h : ∀ j ∈ idx, j < 4) (r : Nat) {c : Nat} (hc : c < 4) :
    ((packIndexRow idx r).toNat >>> (2 * c)) % 4 = idx.getD (4 * r + c) 0 := by
  have digit (i : Nat) : idx.getD i 0 < 4 := getD_of_forall_mem (· < 4) h (by decide) i
  have := digit (4 * r)
  have := digit (4 * r + 1)
  have := digit (4 * r + 2)
  have := digit (4 * r + 3)
  rw [packIndexRow, BitVec.toNat_ofNat, Nat.shiftRight_eq_div_pow]
  match c, hc with
  | 0, _ | 1, _ | 2, _ | 3, _ => simp only [Nat.reduceMul, Nat.reducePow, Nat.add_zero]; omega

theorem colorIndex_packColorBlock (c0 c1 : Half) {idx : List Nat} (h : ∀ j ∈ idx, j < 4) {p : Nat} (hp : p < 16) :
    colorIndex (packColorBlock c0 c1 idx) p = idx.getD p 0 := by
  have position : 4 * (p / 4) + p % 4 = p := Nat.div_add_mod p 4
  rw [colorIndex, indexByte_packColorBlock _ _ _ (by omega), packIndexRow_column h _ (by omega), position]

/-- A block packed from sixteen equal indices decodes to sixteen copies of that palette entry. -/
theorem decodeTileDxt1_packColorBlock_replicate (c0 c1 : Half) {i : Nat} (hi : i < 4) :
    decodeTileDxt1 (packColorBlock c0 c1 (List.replicate 16 i)) =
      List.replicate 16 ((paletteDxt1 c0 c1).getD i clearPixel) := by
  refine List.eq_replicate_iff.2 ⟨rfl, fun x hx => ?_⟩
  obtain ⟨p, hp, rfl⟩ := List.mem_map.1 hx
  have index : colorIndex (packColorBlock c0 c1 (List.replicate 16 i)) p = i := by
    rw [colorIndex_packColorBlock c0 c1 (fun j hj => List.eq_of_mem_replicate hj ▸ hi) (List.mem_range.1 hp),
      List.getD_replicate _ (List.mem_range.1 hp)]
  rw [colorPixel, index]
  rfl

/-- Settles O16: each row byte is four base-4 digits, one index each. -/
theorem packedColorIndicesReadBack : Obligations.PackedColorIndicesReadBack :=
  fun c0 c1 _ _ h _ hp => colorIndex_packColorBlock c0 c1 h hp

/-! ### The colour fit -/

theorem packFields_toNat {r g b : Nat} (hr : r ≤ 31) (hg : g ≤ 63) (hb : b ≤ 31) :
    (packFields r g b).toNat = r * 2048 + g * 32 + b := by
  rw [packFields, BitVec.toNat_ofNat]
  omega

theorem quant5_le {x : Sample} (h : x ≤ 1) : quant5 x ≤ 31 := rnd_le (by push_cast; linarith)

theorem quant6_le {x : Sample} (h : x ≤ 1) : quant6 x ≤ 63 := rnd_le (by push_cast; linarith)

/-- The values a channel's fit runs over: those of the opaque samples (41 R150, R151). -/
theorem mem_map_solidPixels {q : Pixel → Nat} {T : List Pixel} {v : Nat} :
    v ∈ (solidPixels T).map q ↔ ∃ p ∈ T, 1 / 2 < p.a ∧ v = q p := by
  simp [solidPixels, isSolid, and_assoc, eq_comm]

theorem select_solid_ordered {q : Pixel → Nat} {max : Nat} {T : List Pixel} (h : ∀ p ∈ T, q p ≤ max) :
    (select ((solidPixels T).map q) max Config.colorDefault).1 ≤
      (select ((solidPixels T).map q) max Config.colorDefault).2 ∧
    (select ((solidPixels T).map q) max Config.colorDefault).2 ≤ max := by
  refine select_ordered (fun v hv => ?_) ⟨le_rfl, Nat.zero_le _⟩
  obtain ⟨p, hp, -, rfl⟩ := mem_map_solidPixels.1 hv
  exact h p hp

section
variable {T : List Pixel} (range : TileInRange T)
include range

theorem selectR_ordered : (selectR T).1 ≤ (selectR T).2 ∧ (selectR T).2 ≤ 31 :=
  select_solid_ordered fun p hp => quant5_le ((inRange_iff p).1 (range p hp)).1.2

theorem selectG_ordered : (selectG T).1 ≤ (selectG T).2 ∧ (selectG T).2 ≤ 63 :=
  select_solid_ordered fun p hp => quant6_le ((inRange_iff p).1 (range p hp)).2.1.2

theorem selectB_ordered : (selectB T).1 ≤ (selectB T).2 ∧ (selectB T).2 ≤ 31 :=
  select_solid_ordered fun p hp => quant5_le ((inRange_iff p).1 (range p hp)).2.2.1.2

theorem packedHi_toNat : (packedHi T).toNat = (selectR T).2 * 2048 + (selectG T).2 * 32 + (selectB T).2 :=
  packFields_toNat (selectR_ordered range).2 (selectG_ordered range).2 (selectB_ordered range).2

theorem packedLo_toNat : (packedLo T).toNat = (selectR T).1 * 2048 + (selectG T).1 * 32 + (selectB T).1 :=
  have ⟨loR, hiR⟩ := selectR_ordered range
  have ⟨loG, hiG⟩ := selectG_ordered range
  have ⟨loB, hiB⟩ := selectB_ordered range
  packFields_toNat (loR.trans hiR) (loG.trans hiG) (loB.trans hiB)

/-- Packed loColor is at most packed hiColor: each field is (41 R152). -/
theorem packedLo_le_packedHi : (packedLo T).toNat ≤ (packedHi T).toNat := by
  have ⟨loR, _⟩ := selectR_ordered range
  have ⟨loG, _⟩ := selectG_ordered range
  have ⟨loB, _⟩ := selectB_ordered range
  rw [packedLo_toNat range, packedHi_toNat range]
  omega

end

/-- ENC_MODE = FOUR writes the higher endpoint first (41 R153); equal endpoints may stand in either order. -/
theorem orderEndpoints_encMode {pl ph : Half} (h : pl.toNat ≤ ph.toNat) :
    orderEndpoints Config.encMode pl ph = (ph, pl) := by
  rcases h.lt_or_eq with lt | eq
  · exact if_pos lt
  · obtain rfl := BitVec.eq_of_toNat_eq eq
    exact if_neg (lt_irrefl _)

/-- The block's endpoints, and the index of each sample by its own choice between them. -/
theorem encodeTileDxt1_eq {T : List Pixel} (h : (packedLo T).toNat ≤ (packedHi T).toNat) : encodeTileDxt1 T =
    packColorBlock (packedHi T) (packedLo T) (T.map (colorChoice (packedHi T) (packedLo T))) := by
  rw [encodeTileDxt1, encodeTileWith, orderEndpoints_encMode h]

/-- Settles O14: SELECT depends on the set of values alone, and its pairs are ascending and within the fields. -/
theorem encoderWritesHighEndpointFirst : Obligations.EncoderWritesHighEndpointFirst := by
  intro T range
  have order := packedLo_le_packedHi range
  refine ⟨fun VR VG VB hR hG hB => ?fit, order, ?high, ?low⟩
  case fit =>
    have eR : select VR 31 (0, 0) = selectR T :=
      select_congr (fun v => by rw [hR, mem_map_solidPixels]; simp only [quant5, mul_comm]) _ _
    have eG : select VG 63 (0, 0) = selectG T :=
      select_congr (fun v => by rw [hG, mem_map_solidPixels]; simp only [quant6, mul_comm]) _ _
    have eB : select VB 31 (0, 0) = selectB T :=
      select_congr (fun v => by rw [hB, mem_map_solidPixels]; simp only [quant5, mul_comm]) _ _
    dsimp only
    rw [eR, eG, eB]
    exact ⟨packedLo_toNat range, packedHi_toNat range⟩
  case high => rw [encodeTileDxt1_eq order]; rfl
  case low => rw [encodeTileDxt1_eq order]; rfl

/-! ### The chosen index -/

theorem colorChoice_transparent {p : Pixel} (h : p.a ≤ 1 / 2) (c0 c1 : Half) : colorChoice c0 c1 p = 3 :=
  if_neg (by simpa [isSolid] using h)

theorem colorChoice_opaque {p : Pixel} (h : 1 / 2 < p.a) (c0 c1 : Half) :
    colorChoice c0 c1 p = nearest ((builtColors c0 c1).map (colorDistance p)) :=
  if_pos (by simpa [isSolid] using h)

theorem colorDistance_eq (p : Pixel) (k : Color) :
    colorDistance p k = |p.r - k.r| + |p.g - k.g| + |p.b - k.b| := by
  simp only [colorDistance, absRat_eq]

theorem colorChoice_lt (c0 c1 : Half) (p : Pixel) : colorChoice c0 c1 p < 4 := by
  rcases le_or_gt p.a (1 / 2) with transparent | opaq
  · rw [colorChoice_transparent transparent]
    decide
  · have : nearest ((builtColors c0 c1).map (colorDistance p)) < 3 := (nearest_spec (by simp [builtColors])).1
    rw [colorChoice_opaque opaq]
    omega

/-- The encoded index of a tile position is the choice of its sample between the written endpoints. -/
theorem colorIndex_encodeTileDxt1 {T : List Pixel} {p : Nat} {x : Pixel} (hp : p < 16) (hx : T[p]? = some x) :
    colorIndex (encodeTileDxt1 T) p = colorChoice (encodeTileDxt1 T).c0 (encodeTileDxt1 T).c1 x := by
  have choices : ∀ j ∈ T.map (colorChoice (encodeTileDxt1 T).c0 (encodeTileDxt1 T).c1), j < 4 := by
    intro j hj
    obtain ⟨y, -, rfl⟩ := List.mem_map.1 hj
    exact colorChoice_lt _ _ y
  have readBack := colorIndex_packColorBlock (encodeTileDxt1 T).c0 (encodeTileDxt1 T).c1 choices hp
  rw [List.getD_eq_getElem?_getD, List.getElem?_map, hx] at readBack
  exact readBack

/-- Settles O15: an opaque sample's index is the nearest of the three distances, a transparent one's is 3. -/
theorem colorIndicesAreNearest : Obligations.ColorIndicesAreNearest := by
  intro T p x length hx
  have hp : p < 16 := length ▸ (List.getElem?_eq_some_iff.1 hx).1
  dsimp only
  rw [colorIndex_encodeTileDxt1 hp hx]
  refine ⟨fun transparent => colorChoice_transparent transparent _ _, fun opaq => ?_⟩
  rw [colorChoice_opaque opaq]
  simp only [builtColors, lerp3_half, List.map_cons, List.map_nil, colorDistance_eq]
  exact nearest_spec (List.cons_ne_nil _ _)

/-! ### A transparent tile -/

section
variable {T : List Pixel} (length : T.length = 16) (transparent : ∀ p ∈ T, p.a ≤ 1 / 2)

include transparent in
theorem solidPixels_transparent : solidPixels T = [] :=
  List.filter_eq_nil_iff.2 fun p hp => by simpa [isSolid] using transparent p hp

include length transparent in
/-- A tile with no opaque sample has the default endpoints, and index 3 everywhere (41 R157). -/
theorem encodeTileDxt1_transparent : encodeTileDxt1 T = packColorBlock 0 0 (List.replicate 16 3) := by
  have lo : packedLo T = 0 := by
    rw [packedLo, selectR, selectG, selectB, solidPixels_transparent transparent]; rfl
  have hi : packedHi T = 0 := by
    rw [packedHi, selectR, selectG, selectB, solidPixels_transparent transparent]; rfl
  have choices : T.map (colorChoice 0 0) = List.replicate 16 3 := by
    refine List.eq_replicate_iff.2 ⟨by simpa using length, fun j hj => ?_⟩
    obtain ⟨p, hp, rfl⟩ := List.mem_map.1 hj
    exact colorChoice_transparent (transparent p hp) 0 0
  rw [encodeTileDxt1_eq (by rw [lo, hi]), lo, hi, choices]

end

/-- Settles O17: with equal endpoints the palette is the 3-colour one, whose entry 3 is transparent black. -/
theorem transparentTileEncodesToDefault : Obligations.TransparentTileEncodesToDefault := by
  intro T length transparent
  rw [encodeTileDxt1_transparent length transparent]
  refine ⟨by decide, ?_⟩
  rw [decodeTileDxt1_packColorBlock_replicate 0 0 (by decide), paletteDxt1_three le_rfl]
  rfl

/-! ### A solid tile -/

section
variable {p : Pixel} (opaq : 1 / 2 < p.a)
include opaq

theorem solidPixels_replicate (n : Nat) : solidPixels (List.replicate n p) = List.replicate n p :=
  List.filter_eq_self.2 fun q hq => by simpa [isSolid, List.eq_of_mem_replicate hq] using opaq

/-- The fits of a solid tile answer its quantised sample, so both packed endpoints are its packed colour. -/
theorem packedEndpoints_replicate : packedLo (List.replicate 16 p) = pack565 (colorOf p) ∧
    packedHi (List.replicate 16 p) = pack565 (colorOf p) := by
  have fit (q : Pixel → Nat) (max : Nat) :
      select ((solidPixels (List.replicate 16 p)).map q) max Config.colorDefault = (q p, q p) := by
    rw [solidPixels_replicate opaq, List.map_replicate, select_replicate (by decide)]
  rw [packedLo, packedHi, selectR, selectG, selectB, fit, fit, fit]
  exact ⟨rfl, rfl⟩

/-- With equal endpoints the three built colours are one, and the first is chosen (41 R155, parameter TIE). -/
theorem colorChoice_self (c : Half) : colorChoice c c p = 0 := by
  rw [colorChoice_opaque opaq, builtColors, lerp3_self]
  simp [nearest, nearestFrom]

theorem encodeTileDxt1_replicate : encodeTileDxt1 (List.replicate 16 p) =
    packColorBlock (pack565 (colorOf p)) (pack565 (colorOf p)) (List.replicate 16 0) := by
  obtain ⟨lo, hi⟩ := packedEndpoints_replicate opaq
  rw [encodeTileDxt1_eq (by rw [lo, hi]), lo, hi, List.map_replicate, colorChoice_self opaq]

end

/-- Settles O18: index 0 everywhere, and palette entry 0 is the unpacked c0. -/
theorem solidTileRoundTrip : Obligations.SolidTileRoundTrip := by
  intro p _ opaq
  rw [encodeTileDxt1_replicate opaq]
  rw [decodeTileDxt1_packColorBlock_replicate _ _ (by decide), paletteDxt1_three le_rfl]
  rfl

end Sys2Proof.Machine
end

section
/-! SUPPORT. The DXT3 and DXT5 tiles: the colour block's RGB under the alpha block's alpha (42_dxt3.md R183,
43_dxt5.md R206): O13; and the DXT3 alpha plane: its nibbles and bytes (42_dxt3.md R181, R182): O21. -/

namespace Sys2Proof.Machine

/-! ### The pixels of a decoded tile -/

/-- A list made position by position holds at each of its sixteen positions what is made there. -/
theorem getElem?_map_range16 {α : Type} (f : Nat → α) {p : Nat} (hp : p < 16) :
    ((List.range 16).map f)[p]? = some (f p) := by
  rw [List.getElem?_map, List.getElem?_range hp, Option.map_some]

@[simp] theorem rampDxt5_length (a0 a1 : Byte) : (rampDxt5 a0 a1).length = 8 := by
  unfold rampDxt5
  split <;> rfl

theorem alphaIndex_lt (q : BitVec 48) (p : Nat) : alphaIndex q p < 8 := Nat.mod_lt _ (by decide)

/-- The 3-bit index of a position lies in the ramp, so its lookup does not fall back on the default. -/
theorem rampDxt5_alphaIndex (k : AlphaBlock) (p : Nat) :
    (rampDxt5 k.a0 k.a1)[alphaIndex k.q p]? = some (alpha8At k p) := by
  have h : alphaIndex k.q p < (rampDxt5 k.a0 k.a1).length := by simpa using alphaIndex_lt k.q p
  rw [alpha8At, List.getD_eq_getElem _ _ h, List.getElem?_eq_getElem h]

/-- Settles O13: the pixels at one position of the three tiles, all made from the colour block's pixel there. -/
theorem alphaOverridesColorAlpha : Obligations.AlphaOverridesColorAlpha :=
  ⟨fun k p hp => ⟨colorPixel k.color p, getElem?_map_range16 (colorPixel k.color) hp,
      getElem?_map_range16 (dxt3Pixel k) hp⟩,
    fun k p hp => ⟨colorPixel k.color p, alpha8At k.alpha p, getElem?_map_range16 (colorPixel k.color) hp,
      rampDxt5_alphaIndex k.alpha p, getElem?_map_range16 (dxt5Pixel k) hp⟩⟩

/-! ### The nibbles and bytes of an alpha plane -/

theorem planeNibble_two_mul (k : AlphaPlane) (j : Nat) :
    planeNibble k (2 * j) = (planeByte k j).toNat % 16 := by
  rw [planeNibble, if_pos (Nat.mul_mod_right 2 j), Nat.mul_div_cancel_left j (by decide)]

theorem planeNibble_two_mul_add_one (k : AlphaPlane) (j : Nat) :
    planeNibble k (2 * j + 1) = (planeByte k j).toNat / 16 := by
  have byte : (2 * j + 1) / 2 = j := by omega
  rw [planeNibble, if_neg (by omega), byte]

/-- A byte of a plane is its two nibbles, the low one first (30 R96). -/
theorem planeByte_toNat (k : AlphaPlane) (j : Nat) :
    (planeByte k j).toNat = planeNibble k (2 * j) + 16 * planeNibble k (2 * j + 1) := by
  rw [planeNibble_two_mul, planeNibble_two_mul_add_one]
  omega

theorem encodePlane_getD (k : AlphaPlane) {j : Nat} (hj : j < 8) : (encodePlane k).getD j 0#8 = planeByte k j :=
  (planeByte_eq_getD _ _ _ _ _ _ _ _ hj).symm

theorem packNibbles_toNat {nib : List Nat} (h : ∀ v ∈ nib, v < 16) (j : Nat) :
    (packNibbles nib j).toNat = nib.getD (2 * j) 0 + 16 * nib.getD (2 * j + 1) 0 := by
  have digit (i : Nat) : nib.getD i 0 < 16 := getD_of_forall_mem (· < 16) h (by decide) i
  have := digit (2 * j)
  have := digit (2 * j + 1)
  rw [packNibbles, BitVec.toNat_ofNat]
  omega

theorem planeByte_alpha4Encode (AL : List Sample) {j : Nat} (hj : j < 8) :
    planeByte (alpha4Encode AL) j = packNibbles (AL.map quant4) j := by
  match j, hj with
  | 0, _ | 1, _ | 2, _ | 3, _ | 4, _ | 5, _ | 6, _ | 7, _ => rfl

theorem quant4_lt {x : Sample} (h : x ≤ 1) : quant4 x < 16 :=
  Nat.lt_succ_of_le (rnd_le (by push_cast; linarith))

/-- Position n of an encoded plane holds the quantised sample n (42 R182). -/
theorem planeNibble_alpha4Encode {AL : List Sample} (h : ∀ x ∈ AL, x ≤ 1) {n : Nat} {x : Sample} (hn : n < 16)
    (hx : AL[n]? = some x) : planeNibble (alpha4Encode AL) n = quant4 x := by
  have nibbles : ∀ v ∈ AL.map quant4, v < 16 := List.forall_mem_map.2 fun y hy => quant4_lt (h y hy)
  have digit (i : Nat) : (AL.map quant4).getD i 0 < 16 := getD_of_forall_mem (· < 16) nibbles (by decide) i
  have nth : (AL.map quant4).getD n 0 = quant4 x := by simp [hx]
  rw [← nth]
  obtain ⟨j, rfl | rfl⟩ := n.even_or_odd'
  · have := digit (2 * j)
    rw [planeNibble_two_mul, planeByte_alpha4Encode AL (by omega), packNibbles_toNat nibbles]
    omega
  · have := digit (2 * j)
    rw [planeNibble_two_mul_add_one, planeByte_alpha4Encode AL (by omega), packNibbles_toNat nibbles]
    omega

/-! ### Encoding a decoded plane -/

/-- A nibble over 15 quantises back to the nibble (42 R181, R182). -/
theorem quant4_alpha4At (k : AlphaPlane) (n : Nat) : quant4 (alpha4At k n) = planeNibble k n := by
  rw [quant4, alpha4At, div_mul_cancel₀ _ (by norm_num), rnd_natCast]

theorem packNibbles_alpha4Decode (k : AlphaPlane) {j : Nat} (hj : j < 8) :
    packNibbles ((alpha4Decode k).map quant4) j = planeByte k j := by
  have nib : (alpha4Decode k).map quant4 = (List.range 16).map (planeNibble k) := by
    rw [alpha4Decode, List.map_map]
    exact List.map_congr_left fun n _ => quant4_alpha4At k n
  have nth {n : Nat} (hn : n < 16) : ((alpha4Decode k).map quant4).getD n 0 = planeNibble k n := by
    rw [nib, List.getD_eq_getElem?_getD, getElem?_map_range16 _ hn, Option.getD_some]
  have nibbles : ∀ v ∈ (alpha4Decode k).map quant4, v < 16 := by
    rw [nib]
    exact List.forall_mem_map.2 fun n _ => Nat.lt_succ_of_le (planeNibble_le k n)
  apply BitVec.eq_of_toNat_eq
  rw [packNibbles_toNat nibbles, nth (by omega), nth (by omega), planeByte_toNat]

theorem alpha4Encode_alpha4Decode (k : AlphaPlane) : alpha4Encode (alpha4Decode k) = k := by
  have byte {j : Nat} (hj : j < 8) := packNibbles_alpha4Decode k hj
  rw [alpha4Encode, byte (by decide), byte (by decide), byte (by decide), byte (by decide), byte (by decide),
    byte (by decide), byte (by decide), byte (by decide)]
  rfl

/-- Settles O21: a nibble is its rounded sample, a byte is its two nibbles, and a decoded nibble is a whole number
of fifteenths. -/
theorem alphaPlaneRoundTrip : Obligations.AlphaPlaneRoundTrip := by
  refine ⟨fun AL length range => ?_, (rnd_eq_iff (by norm_num)).2 (by norm_num),
    (rnd_eq_iff (by norm_num)).2 (by norm_num), alpha4Encode_alpha4Decode⟩
  have position {n : Nat} {x : Sample} (hx : AL[n]? = some x) : n < 16 :=
    length ▸ (List.getElem?_eq_some_iff.1 hx).1
  have nibble {n : Nat} {x : Sample} (hx : AL[n]? = some x) :
      planeNibble (alpha4Encode AL) n = rnd (15 * x) := by
    rw [planeNibble_alpha4Encode (fun y hy => (range y hy).2) (position hx) hx, quant4, mul_comm]
  refine ⟨fun n x hx => ?_, fun j x y hx hy => ?_⟩
  · have nonneg := (range x (List.mem_of_getElem? hx)).1
    obtain ⟨above, below⟩ := rnd_bounds (x := 15 * x) (by linarith)
    rw [nibble hx]
    exact ⟨rfl, below, by linarith⟩
  · have := position hy
    rw [encodePlane_getD _ (by omega), planeByte_toNat, nibble hx, nibble hy]

end Sys2Proof.Machine
end

section
/-! SUPPORT. The DXT5 alpha codec (43_dxt5.md): the ramps (R201, R202): O22; the 48-bit index word (R204): O7, and the
indices packed into it (R214): O23; the endpoints (R210 to R212): O24; and the nearest indices (R213): O25. -/

namespace Sys2Proof.Machine

/-! ### The ramps -/

theorem rampDxt5_eight {a0 a1 : Byte} (h : a1.toNat < a0.toNat) : rampDxt5 a0 a1 =
    let A0 : Rat := a0.toNat / 255
    let A1 : Rat := a1.toNat / 255
    [A0, A1, lerp A0 A1 (1 / 7), lerp A0 A1 (2 / 7), lerp A0 A1 (3 / 7), lerp A0 A1 (4 / 7), lerp A0 A1 (5 / 7),
      lerp A0 A1 (6 / 7)] :=
  if_pos h

theorem rampDxt5_six {a0 a1 : Byte} (h : a0.toNat ≤ a1.toNat) : rampDxt5 a0 a1 =
    let A0 : Rat := a0.toNat / 255
    let A1 : Rat := a1.toNat / 255
    [A0, A1, lerp A0 A1 (1 / 5), lerp A0 A1 (2 / 5), lerp A0 A1 (3 / 5), lerp A0 A1 (4 / 5), 0, 1] :=
  if_neg (Nat.not_lt.2 h)

theorem lerp_sevenths (x y i : Rat) : lerp (x / 255) (y / 255) (i / 7) = ((7 - i) * x + i * y) / 1785 := by
  unfold lerp
  ring

theorem lerp_fifths (x y i : Rat) : lerp (x / 255) (y / 255) (i / 5) = ((5 - i) * x + i * y) / 1275 := by
  unfold lerp
  ring

/-- Settles O22: the two modes are the two branches of the ramp, each interpolation over one denominator. -/
theorem alphaRampModes : Obligations.AlphaRampModes := by
  refine fun a0 a1 => ⟨fun eight => ?_, fun six => ?_⟩
  · rw [rampDxt5_eight eight]
    simp only [lerp_sevenths]
    norm_num
  · rw [rampDxt5_six six]
    simp only [lerp_fifths]
    norm_num

/-! ### The index word -/

/-- The indices of a row stand in the word from right to left: the tile position of the index number `k`, and as well
the number of the index of tile position `k` (43 R204). -/
def rowMirror (k : Nat) : Nat := 4 * (k / 4) + 3 - k % 4

theorem rowMirror_lt {k : Nat} (h : k < 16) : rowMirror k < 16 := by
  unfold rowMirror
  omega

theorem rowMirror_rowMirror (k : Nat) : rowMirror (rowMirror k) = k := by
  unfold rowMirror
  omega

theorem two_pow_three_mul (n : Nat) : 2 ^ (3 * n) = 8 ^ n := pow_mul 2 3 n

/-- The index of a tile position is a base-8 digit of the word, digit 15 being the index number 0. -/
theorem alphaIndex_eq_digit (q : BitVec 48) (p : Nat) : alphaIndex q p = q.toNat / 8 ^ (15 - rowMirror p) % 8 := by
  have shift : 45 - 3 * rowMirror p = 3 * (15 - rowMirror p) := by omega
  rw [alphaIndex, ← rowMirror, shift, Nat.shiftRight_eq_div_pow, two_pow_three_mul]

theorem alphaIndex_rowMirror (q : BitVec 48) (k : Nat) :
    alphaIndex q (rowMirror k) = (q.extractLsb' (45 - 3 * k) 3).toNat := by
  rw [alphaIndex, ← rowMirror, rowMirror_rowMirror, BitVec.extractLsb'_toNat]

/-- Settles O7: the word by the weights of its bytes, and each row of the table is one of its base-8 digits. -/
theorem alphaIndexLayout : Obligations.AlphaIndexLayout := by
  intro b0 b1 b2 b3 b4 b5 b6 b7 q
  have word : q.toNat = _ := toNat_decodeAlpha_q b0 b1 b2 b3 b4 b5 b6 b7
  have order (k : Nat) : 4 * (k / 4) + (3 - k % 4) = rowMirror k := by
    unfold rowMirror
    omega
  refine ⟨by rw [word]; ring, fun k _ => order k ▸ alphaIndex_rowMirror q k, ?table⟩
  simp only [alphaIndex_eq_digit, rowMirror, word, Nat.reduceDiv, Nat.reduceMul, Nat.reduceMod, Nat.reduceAdd,
    Nat.reduceSub, Nat.reducePow]
  have := b2.isLt
  have := b3.isLt
  have := b4.isLt
  have := b5.isLt
  have := b6.isLt
  have := b7.isLt
  and_intros <;> omega

/-! ### Packed indices -/

section
variable {aidx : List Nat} {fuel k : Nat}

theorem packAlphaFrom_succ (last : k + (fuel + 1) = 16) : packAlphaFrom aidx (fuel + 1) k =
    8 ^ fuel * aidx.getD (rowMirror k) 0 + packAlphaFrom aidx fuel (k + 1) := by
  have weight : 45 - 3 * k = 3 * fuel := by omega
  rw [packAlphaFrom, ← rowMirror, weight, two_pow_three_mul, Nat.mul_comm]

variable (h : ∀ j ∈ aidx, j < 8)
include h

theorem packAlphaFrom_lt (last : k + fuel = 16) : packAlphaFrom aidx fuel k < 8 ^ fuel := by
  induction fuel generalizing k with
  | zero => exact Nat.one_pos
  | succ fuel ih =>
    have digit : aidx.getD (rowMirror k) 0 < 8 := getD_of_forall_mem (· < 8) h (by decide) _
    have rest := ih (k := k + 1) (by omega)
    calc packAlphaFrom aidx (fuel + 1) k
      _ = 8 ^ fuel * aidx.getD (rowMirror k) 0 + packAlphaFrom aidx fuel (k + 1) := packAlphaFrom_succ last
      _ < 8 ^ fuel * (aidx.getD (rowMirror k) 0 + 1) := Nat.add_lt_add_left rest _
      _ ≤ 8 ^ (fuel + 1) := Nat.mul_le_mul_left _ digit

/-- The sum of AINDICES_PACK has the index number `15 - i` as its base-8 digit `i` (43 R214). -/
theorem packAlphaFrom_digit (last : k + fuel = 16) {i : Nat} (hi : i < fuel) :
    packAlphaFrom aidx fuel k / 8 ^ i % 8 = aidx.getD (rowMirror (15 - i)) 0 := by
  induction fuel generalizing k with
  | zero => exact absurd hi (Nat.not_lt_zero i)
  | succ fuel ih =>
    have digit : aidx.getD (rowMirror k) 0 < 8 := getD_of_forall_mem (· < 8) h (by decide) _
    rw [packAlphaFrom_succ last]
    rcases Nat.lt_succ_iff_lt_or_eq.1 hi with lower | rfl
    · obtain ⟨m, rfl⟩ : ∃ m, fuel = i + (m + 1) := ⟨fuel - i - 1, by omega⟩
      have above (d : Nat) : 8 ^ (i + (m + 1)) * d = 8 ^ i * (8 * (8 ^ m * d)) := by ring
      rw [above, Nat.mul_add_div (by positivity), Nat.mul_add_mod]
      exact ih (by omega) lower
    · have number : 15 - i = k := by omega
      have rest := packAlphaFrom_lt h (k := k + 1) (fuel := i) (by omega)
      rw [Nat.mul_add_div (by positivity), Nat.div_eq_of_lt rest, number]
      exact Nat.mod_eq_of_lt digit

theorem packAlpha_toNat : (packAlpha aidx).toNat = packAlphaFrom aidx 16 0 := by
  have bound : packAlphaFrom aidx 16 0 < 2 ^ 48 := (packAlphaFrom_lt h rfl).trans_eq (two_pow_three_mul 16).symm
  rw [packAlpha, BitVec.toNat_ofNat, Nat.mod_eq_of_lt bound]

theorem alphaIndex_packAlpha {p : Nat} (hp : p < 16) : alphaIndex (packAlpha aidx) p = aidx.getD p 0 := by
  have number : 15 - (15 - rowMirror p) = rowMirror p := by
    have := rowMirror_lt hp
    omega
  rw [alphaIndex_eq_digit, packAlpha_toNat h, packAlphaFrom_digit h rfl (by omega), number, rowMirror_rowMirror]

end

/-- Settles O23: the word is sixteen base-8 digits, one index each. -/
theorem packedAlphaIndicesReadBack : Obligations.PackedAlphaIndicesReadBack :=
  fun _ _ h _ hp => alphaIndex_packAlpha h hp

/-! ### The fitted pair -/

theorem quant8_le {x : Sample} (h : x ≤ 1) : quant8 x ≤ 255 := rnd_le (by push_cast; linarith)

/-- The values the fit runs over: those of the samples that are not extreme (43 R210). -/
theorem mem_interiorValues {AL : List Sample} {v : Nat} :
    v ∈ interiorValues AL ↔ ∃ x ∈ AL, (x ≠ 0 ∧ x ≠ 1) ∧ v = quant8 x := by
  simp [interiorValues, isExtreme, and_assoc, eq_comm (a := v)]

theorem alphaFit_ordered {AL : List Sample} (h : ∀ x ∈ AL, x ≤ 1) :
    (alphaFit AL).1 ≤ (alphaFit AL).2 ∧ (alphaFit AL).2 ≤ 255 := by
  refine select_ordered (fun v hv => ?_) (by decide)
  obtain ⟨x, hx, -, rfl⟩ := mem_interiorValues.1 hv
  exact quant8_le (h x hx)

/-- With no interior sample the fit answers its default (43 R211). -/
theorem alphaFit_of_extreme {AL : List Sample} (h : ∀ x ∈ AL, x = 0 ∨ x = 1) : alphaFit AL = (254, 255) := by
  have noInterior : interiorValues AL = [] := by
    refine List.eq_nil_iff_forall_not_mem.2 fun v hv => ?_
    obtain ⟨x, hx, interior, -⟩ := mem_interiorValues.1 hv
    exact (h x hx).elim interior.1 interior.2
  rw [alphaFit, noInterior]
  rfl

/-! ### The written endpoints -/

theorem hasExtreme_iff {AL : List Sample} : hasExtreme AL = true ↔ ∃ x ∈ AL, x = 0 ∨ x = 1 := by
  simp [hasExtreme, isExtreme]

section
variable {lo hi : Nat}

theorem orderAlpha_extreme (h : lo ≤ hi) : orderAlpha true lo hi = (lo, hi) := if_neg (Nat.not_lt.2 h)

theorem orderAlpha_lt (h : lo < hi) : orderAlpha false lo hi = (hi, lo) := by simp [orderAlpha, h, h.ne]

theorem orderAlpha_tie (h : lo = hi) (positive : 1 ≤ lo) : orderAlpha false lo hi = (lo, lo - 1) := by
  simp [orderAlpha, ← h, positive]

theorem orderAlpha_zero (h : lo = hi) (zero : lo = 0) : orderAlpha false lo hi = (1, 0) := by
  simp [orderAlpha, ← h, zero]

/-- Without an extreme sample a0 is the greater endpoint, which is the 8-value ramp (43 R212). -/
theorem orderAlpha_descends (h : lo ≤ hi) : (orderAlpha false lo hi).2 < (orderAlpha false lo hi).1 := by
  rcases h.lt_or_eq with rises | tie
  · rwa [orderAlpha_lt rises]
  · rcases lo.eq_zero_or_pos with zero | positive
    · rw [orderAlpha_zero tie zero]
      decide
    · rw [orderAlpha_tie tie positive]
      exact Nat.sub_one_lt_of_lt positive

/-- Ordered endpoints are bytes: the only one that is not of the fitted pair nor below it is the 1 over a 0. -/
theorem orderAlpha_le (extreme : Bool) (h : lo ≤ hi) (top : hi ≤ 255) :
    (orderAlpha extreme lo hi).1 ≤ 255 ∧ (orderAlpha extreme lo hi).2 ≤ 255 := by
  unfold orderAlpha
  split_ifs <;> constructor <;> dsimp only <;> omega

end

/-- The written endpoints of a tile of samples in range are its fitted pair as 43 R212 orders it. -/
theorem alpha8Encode_endpoints {AL : List Sample} (h : ∀ x ∈ AL, x ≤ 1) :
    ((alpha8Encode AL).a0.toNat, (alpha8Encode AL).a1.toNat) =
      orderAlpha (hasExtreme AL) (alphaFit AL).1 (alphaFit AL).2 := by
  obtain ⟨order, top⟩ := alphaFit_ordered h
  obtain ⟨byte0, byte1⟩ := orderAlpha_le (hasExtreme AL) order top
  exact Prod.ext (Nat.mod_eq_of_lt (Nat.lt_succ_of_le byte0)) (Nat.mod_eq_of_lt (Nat.lt_succ_of_le byte1))

section
variable {AL : List Sample} (h : ∀ x ∈ AL, x ≤ 1)
include h

/-- An extreme sample puts the fitted pair in ascending order (43 R212). -/
theorem alpha8Encode_of_extreme (extreme : ∃ x ∈ AL, x = 0 ∨ x = 1) :
    ((alpha8Encode AL).a0.toNat, (alpha8Encode AL).a1.toNat) = alphaFit AL := by
  rw [alpha8Encode_endpoints h, hasExtreme_iff.2 extreme, orderAlpha_extreme (alphaFit_ordered h).1]

theorem alpha8Encode_of_interior (interior : ∀ x ∈ AL, x ≠ 0 ∧ x ≠ 1) :
    ((alpha8Encode AL).a0.toNat, (alpha8Encode AL).a1.toNat) =
      orderAlpha false (alphaFit AL).1 (alphaFit AL).2 := by
  have noExtreme : hasExtreme AL = false := by
    refine Bool.eq_false_iff.2 fun found => ?_
    obtain ⟨x, hx, extreme⟩ := hasExtreme_iff.1 found
    exact extreme.elim (interior x hx).1 (interior x hx).2
  rw [alpha8Encode_endpoints h, noExtreme]

end

/-- Settles O24: SELECT depends on the set of values alone and answers an ascending pair, which the extremes order. -/
theorem alphaModeFollowsExtremes : Obligations.AlphaModeFollowsExtremes := by
  intro AL range
  have below : ∀ x ∈ AL, x ≤ 1 := fun x hx => (range x hx).2
  have order := (alphaFit_ordered below).1
  refine ⟨fun VA hVA => ?fit, fun nonempty all => ?default, fun extreme => ?ascending, fun interior => ?descending⟩
  case fit => exact select_congr (fun v => by rw [hVA, mem_interiorValues]; simp only [quant8, mul_comm]) _ _
  case default =>
    obtain ⟨x, hx⟩ := List.exists_mem_of_ne_nil AL nonempty
    have pair := alpha8Encode_of_extreme below ⟨x, hx, all x hx⟩
    rw [alphaFit_of_extreme all] at pair
    exact Prod.ext_iff.1 pair
  case ascending =>
    obtain ⟨a0, a1⟩ := Prod.ext_iff.1 (alpha8Encode_of_extreme below extreme)
    exact ⟨a0, a1, a0.trans_le (order.trans a1.ge)⟩
  case descending =>
    have pair := alpha8Encode_of_interior below interior
    have descends := orderAlpha_descends order
    rw [← pair] at descends
    exact ⟨descends, fun rises => Prod.ext_iff.1 (pair.trans (orderAlpha_lt rises)),
      fun tie positive => Prod.ext_iff.1 (pair.trans (orderAlpha_tie tie positive)),
      fun tie zero => Prod.ext_iff.1 (pair.trans (orderAlpha_zero tie zero))⟩

/-! ### The nearest indices -/

section
variable (a0 a1 : Byte) (x : Sample)

theorem alphaChoice_eq : alphaChoice a0 a1 x = nearest ((rampDxt5 a0 a1).map (fun y => |x - y|)) := by
  simp only [alphaChoice, absRat_eq]

/-- The choice is the first of the eight ramp entries at the least distance (43 R213, parameter TIE). -/
theorem alphaChoice_spec :
    let e := (rampDxt5 a0 a1).map (fun y => |x - y|)
    alphaChoice a0 a1 x < 8 ∧
    ∀ j : Nat, j < 8 → e.getD (alphaChoice a0 a1 x) 0 ≤ e.getD j 0 ∧
      (j < alphaChoice a0 a1 x → e.getD (alphaChoice a0 a1 x) 0 < e.getD j 0) := by
  have length : ((rampDxt5 a0 a1).map (fun y => |x - y|)).length = 8 := by simp
  have spec := nearest_spec (List.ne_nil_of_length_eq_add_one length)
  rwa [length, ← alphaChoice_eq] at spec

end

/-- The encoded index of a tile position is the choice of its sample on the ramp of the written endpoints. -/
theorem alphaIndex_alpha8Encode {AL : List Sample} {p : Nat} {x : Sample} (hp : p < 16) (hx : AL[p]? = some x) :
    alphaIndex (alpha8Encode AL).q p = alphaChoice (alpha8Encode AL).a0 (alpha8Encode AL).a1 x := by
  have choices : ∀ j ∈ AL.map (alphaChoice (alpha8Encode AL).a0 (alpha8Encode AL).a1), j < 8 :=
    List.forall_mem_map.2 fun y _ => (alphaChoice_spec _ _ y).1
  have readBack := alphaIndex_packAlpha choices hp
  rw [List.getD_eq_getElem?_getD, List.getElem?_map, hx] at readBack
  exact readBack

/-- Settles O25: the index read back from the word is the sample's own choice, the nearest of the eight. -/
theorem alphaIndicesAreNearest : Obligations.AlphaIndicesAreNearest := by
  intro AL p x length hx
  have hp : p < 16 := length ▸ (List.getElem?_eq_some_iff.1 hx).1
  dsimp only
  rw [alphaIndex_alpha8Encode hp hx]
  exact alphaChoice_spec _ _ x

end Sys2Proof.Machine
end

section
/-! SUPPORT. The endpoint selector (44_endpoint_selector.md): SELECT for every number of values, its line as the one
solution of the normal equations, and the table of R244: O19; the strictly ascending pair of R245: O20. -/

namespace Sys2Proof.Machine

/-! ### Clamping and rounding -/

theorem clamp_eq_max_min {x lo hi : Rat} (h : lo ≤ hi) : clamp x lo hi = max lo (min x hi) := by
  unfold clamp
  split_ifs with below above
  · rw [max_eq_left ((min_le_left x hi).trans below.le)]
  · rw [min_eq_right above.le, max_eq_right h]
  · rw [min_eq_left (not_lt.1 above), max_eq_right (not_lt.1 below)]

theorem clamp_of_mem {x lo hi : Rat} (h : lo ≤ x) (h' : x ≤ hi) : clamp x lo hi = x := by
  rw [clamp, if_neg (not_lt.2 h), if_neg (not_lt.2 h')]

/-- Values one apart round to different numbers. -/
theorem rnd_lt_rnd {x y : Rat} (nonneg : 0 ≤ x) (apart : x + 1 ≤ y) : rnd x < rnd y := by
  have below := (rnd_bounds nonneg).2
  have above := (rnd_bounds (x := y) (by linarith)).1
  have : (rnd x : Rat) < rnd y := by linarith
  exact_mod_cast this

/-! ### The sums of the fit -/

theorem sum_range_natCast (n : Nat) : ∑ i ∈ Finset.range n, (i : Rat) = (n : Rat) * (n - 1) / 2 := by
  induction n with
  | zero => simp
  | succ n ih =>
    rw [Finset.sum_range_succ, ih]
    push_cast
    ring

theorem sum_range_natCast_sq (n : Nat) :
    ∑ i ∈ Finset.range n, (i : Rat) ^ 2 = ((n : Rat) - 1) * n * (2 * n - 1) / 6 := by
  induction n with
  | zero => simp
  | succ n ih =>
    rw [Finset.sum_range_succ, ih]
    push_cast
    ring

theorem sum_range_getD (ys : List Nat) : ∑ i ∈ Finset.range ys.length, (ys.getD i 0 : Rat) = sumOf ys := by
  induction ys with
  | nil => simp [sumOf]
  | cons y ys ih =>
    rw [List.length_cons, Finset.sum_range_succ', sumOf]
    simp only [List.getD_cons_succ, List.getD_cons_zero, ih]
    push_cast
    ring

theorem sum_range_mul_getD (ys : List Nat) :
    ∑ i ∈ Finset.range ys.length, (i : Rat) * ys.getD i 0 = weightedSum 0 ys := by
  induction ys with
  | nil => simp [weightedSum]
  | cons y ys ih =>
    rw [List.length_cons, Finset.sum_range_succ', weightedSum, weightedSum_succ]
    simp only [List.getD_cons_succ, Nat.cast_succ, add_mul, one_mul, Finset.sum_add_distrib, ih, sum_range_getD]
    push_cast
    ring

/-! ### The normal equations -/

/-- The normal equations of the least-squares line `value = m * index + b` over the points (i, y[i]), in the sums of
44 R241. -/
def NormalEquations (ys : List Nat) (m b : Rat) : Prop :=
  let N : Rat := ys.length
  m * (N * (N - 1) / 2) + b * N = sumOf ys ∧
  m * ((N - 1) * N * (2 * N - 1) / 6) + b * (N * (N - 1) / 2) = weightedSum 0 ys

/-- The slope's quotient of 44 R241, reduced by the factor N / 12 of its determinant. -/
theorem fitSlope_eq_div {ys : List Nat} (h : 2 ≤ ys.length) :
    fitSlope ys = 6 * (2 * weightedSum 0 ys - (ys.length - 1) * sumOf ys) /
      (ys.length * (ys.length - 1) * (ys.length + 1)) := by
  have two : (2 : Rat) ≤ ys.length := by exact_mod_cast h
  unfold fitSlope
  generalize (ys.length : Rat) = N at *
  have nonzero : N ≠ 0 := by linarith
  have pred : N - 1 ≠ 0 := by linarith
  have succ : N + 1 ≠ 0 := by linarith
  have determinant : N * ((N - 1) * N * (2 * N - 1) / 6) - N * (N - 1) / 2 * (N * (N - 1) / 2) =
      N / 12 * (N * (N - 1) * (N + 1)) := by ring
  dsimp only
  rw [determinant]
  field_simp
  ring

/-- The line of 44 R241 is the one solution of its normal equations. -/
theorem normalEquations_iff {ys : List Nat} (h : 2 ≤ ys.length) {m b : Rat} :
    NormalEquations ys m b ↔ m = fitSlope ys ∧ b = fitIntercept ys := by
  have two : (2 : Rat) ≤ ys.length := by exact_mod_cast h
  have slope := fitSlope_eq_div h
  unfold NormalEquations fitIntercept
  generalize (ys.length : Rat) = N at *
  have positive : 0 < N := by linarith
  have determinant : N * (N - 1) * (N + 1) ≠ 0 := by
    have : 0 < N - 1 := by linarith
    positivity
  rw [eq_div_iff determinant] at slope
  constructor
  · rintro ⟨plain, weighted⟩
    have e : m = fitSlope ys := mul_right_cancel₀ determinant
      (by linear_combination 12 * weighted - 6 * (N - 1) * plain - slope)
    exact ⟨e, (eq_div_iff positive.ne').2 (by rw [← e]; linear_combination plain)⟩
  · rintro ⟨rfl, rfl⟩
    dsimp only
    constructor <;> field_simp
    · ring
    · linear_combination 2 * slope

/-! ### SELECT by the number of values -/

theorem fitEnds_of_normalEquations {ys : List Nat} (h : 2 ≤ ys.length) {m b : Rat} (line : NormalEquations ys m b)
    (top : Nat) :
    fitEnds ys top = (rnd (max 0 (min b top)), rnd (max 0 (min (m * (ys.length - 1) + b) top))) := by
  obtain ⟨rfl, rfl⟩ := (normalEquations_iff h).1 line
  have nonneg : (0 : Rat) ≤ top := Nat.cast_nonneg top
  rw [← clamp_eq_max_min nonneg, ← clamp_eq_max_min nonneg]
  rfl

/-- Over three values or more SELECT answers the ends of the fitted line. -/
theorem select_eq_fitEnds {V : List Nat} (h : 3 ≤ (ascending V).length) (max : Nat) (d : Nat × Nat) :
    select V max d = fitEnds (ascending V) max := by
  unfold select
  split
  next e => simp [e] at h
  next e => simp [e] at h
  next e => simp [e] at h
  next => rfl

/-- The default matters for the empty set only. -/
theorem select_default_irrelevant {V : List Nat} (h : V ≠ []) (max : Nat) (d d' : Nat × Nat) :
    select V max d = select V max d' := by
  obtain ⟨v, hv⟩ := List.exists_mem_of_ne_nil V h
  have member := mem_ascending.2 hv
  unfold select
  split
  next e => simp [e] at member
  next => rfl
  next => rfl
  next => rfl

/-- Settles O19: SELECT runs over the ascending list itself, and its line is the one that solves the equations. -/
theorem selectorWorkedExamples : Obligations.SelectorWorkedExamples := by
  refine ⟨fun V y top d members sorted => ?anySet, fun d => rfl, by decide +kernel⟩
  case anySet =>
    have list : ascending V = y := (sorted_ascending V).eq_of_mem_iff sorted (by simpa using members)
    refine ⟨fun e => ?none, fun u e => ?one, fun u v e => ?two, fun three => ?fit⟩
    case none | one | two => rw [select, list, e]
    case fit =>
      have two : 2 ≤ y.length := Nat.le_of_succ_le three
      simp only [sum_range_natCast, sum_range_natCast_sq, sum_range_getD, sum_range_mul_getD]
      refine ⟨⟨_, _, (normalEquations_iff two).2 ⟨rfl, rfl⟩⟩, fun m b line => ?_⟩
      rw [select_eq_fitEnds (list ▸ three), list, fitEnds_of_normalEquations two line]

/-! ### The strictly ascending pair -/

/-- Values strictly above `y` and distinct are at least `y + 1`, `y + 2` and so on. -/
theorem le_two_mul_sumOf_of_pairwise_cons {y : Nat} {ys : List Nat} (h : (y :: ys).Pairwise (· < ·)) :
    2 * (ys.length * y) + ys.length * (ys.length + 1) ≤ 2 * sumOf ys := by
  induction ys generalizing y with
  | nil => simp
  | cons z zs ih =>
    have tail := ih h.of_cons
    have rises : y + 1 ≤ z := List.rel_of_pairwise_cons h (by simp)
    have scaled := Nat.mul_le_mul_left (zs.length + 1) rises
    rw [List.length_cons, sumOf]
    linarith

/-- A strictly ascending list climbs by at least one per step. -/
theorem head_add_length_le {y max : Nat} {ys : List Nat} (h : (y :: ys).Pairwise (· < ·))
    (bounded : ∀ v ∈ y :: ys, v ≤ max) : y + ys.length ≤ max := by
  induction ys generalizing y with
  | nil => simpa using bounded
  | cons z zs ih =>
    have tail := ih h.of_cons (List.forall_mem_cons.1 bounded).2
    have rises : y < z := List.rel_of_pairwise_cons h (by simp)
    rw [List.length_cons]
    omega

/-- The mean of N distinct values at most `max` is at most `max - (N - 1) / 2`. -/
theorem two_mul_sumOf_add_le {max : Nat} {ys : List Nat} (h : ys.Pairwise (· < ·)) (bounded : ∀ v ∈ ys, v ≤ max) :
    2 * sumOf ys + ys.length * ys.length ≤ 2 * (ys.length * max) + ys.length := by
  induction ys with
  | nil => simp [sumOf]
  | cons y ys ih =>
    have tail := ih h.of_cons (List.forall_mem_cons.1 bounded).2
    have head := head_add_length_le h bounded
    rw [List.length_cons, sumOf]
    linarith

/-- The mean of N distinct values is at least `(N - 1) / 2`. -/
theorem length_mul_length_le_two_mul_sumOf_add {ys : List Nat} (h : ys.Pairwise (· < ·)) :
    ys.length * ys.length ≤ 2 * sumOf ys + ys.length := by
  cases ys with
  | nil => simp
  | cons y ys =>
    have tail := le_two_mul_sumOf_of_pairwise_cons h
    rw [List.length_cons, sumOf]
    linarith [Nat.zero_le (ys.length * y)]

/-- `12 Sxy - 6 (N - 1) Sy >= (N - 1) N (N + 1)` with the subtractions cleared: the slope of a strictly ascending
list is at least that of the list of its indices. -/
theorem length_cube_add_le_weightedSum {ys : List Nat} (h : ys.Pairwise (· < ·)) :
    ys.length ^ 3 + 6 * (ys.length * sumOf ys) ≤ 12 * weightedSum 0 ys + 6 * sumOf ys + ys.length := by
  induction ys with
  | nil => simp [sumOf]
  | cons y ys ih =>
    have tail := ih h.of_cons
    have head := le_two_mul_sumOf_of_pairwise_cons h
    rw [List.length_cons, sumOf, weightedSum, weightedSum_succ]
    linarith

/-- The fitted line of distinct values rises by at least one per index (44 R245). -/
theorem one_le_fitSlope {ys : List Nat} (h : ys.Pairwise (· < ·)) (length : 2 ≤ ys.length) : 1 ≤ fitSlope ys := by
  have sums : (ys.length : Rat) ^ 3 + 6 * (ys.length * sumOf ys) ≤
      12 * weightedSum 0 ys + 6 * sumOf ys + ys.length := by
    exact_mod_cast length_cube_add_le_weightedSum h
  have two : (2 : Rat) ≤ ys.length := by exact_mod_cast length
  have pred : (0 : Rat) < ys.length - 1 := by linarith
  rw [fitSlope_eq_div length, le_div_iff₀ (by positivity)]
  linarith

/-- The fitted line passes through the mean point (44 R245), so its ends lie around the mean value. -/
theorem fitIntercept_eq_mean_sub {ys : List Nat} (h : ys.length ≠ 0) :
    fitIntercept ys = sumOf ys / ys.length - fitSlope ys * (ys.length - 1) / 2 := by
  have nonzero : (ys.length : Rat) ≠ 0 := Nat.cast_ne_zero.2 h
  unfold fitIntercept
  field_simp

/-- The mean of three or more distinct values is at least one away from both bounds (44 R245). -/
theorem mean_bounds {ys : List Nat} {max : Nat} (h : ys.Pairwise (· < ·)) (bounded : ∀ v ∈ ys, v ≤ max)
    (length : 3 ≤ ys.length) : 1 ≤ (sumOf ys : Rat) / ys.length ∧ (sumOf ys : Rat) / ys.length ≤ max - 1 := by
  have three : (3 : Rat) ≤ ys.length := by exact_mod_cast length
  have positive : (0 : Rat) < ys.length := by linarith
  have low : (ys.length : Rat) * ys.length ≤ 2 * sumOf ys + ys.length := by
    exact_mod_cast length_mul_length_le_two_mul_sumOf_add h
  have high : 2 * (sumOf ys : Rat) + ys.length * ys.length ≤ 2 * (ys.length * max) + ys.length := by
    exact_mod_cast two_mul_sumOf_add_le h bounded
  rw [le_div_iff₀ positive, div_le_iff₀ positive]
  constructor <;> nlinarith

/-- The fitted ends are at least one away from the mean, also when clamped; so they round to different numbers
(44 R245). -/
theorem fitEnds_lt {ys : List Nat} {max : Nat} (h : ys.Pairwise (· < ·)) (bounded : ∀ v ∈ ys, v ≤ max)
    (length : 3 ≤ ys.length) : (fitEnds ys max).1 < (fitEnds ys max).2 := by
  have three : (3 : Rat) ≤ ys.length := by exact_mod_cast length
  have top : (0 : Rat) ≤ max := Nat.cast_nonneg max
  obtain ⟨low, high⟩ := mean_bounds h bounded length
  have rise : 2 ≤ fitSlope ys * (ys.length - 1) := by
    have slope := one_le_fitSlope h (Nat.le_of_succ_le length)
    nlinarith
  have mean := fitIntercept_eq_mean_sub (ys := ys) (by omega)
  generalize (sumOf ys : Rat) / ys.length = mid at *
  have lo : clamp (fitIntercept ys) 0 max ≤ mid - 1 :=
    (clamp_mono top (by linarith)).trans_eq (clamp_of_mem (by linarith) (by linarith))
  have hi : mid + 1 ≤ clamp (fitSlope ys * (ys.length - 1) + fitIntercept ys) 0 max :=
    (clamp_of_mem (by linarith) (by linarith)).symm.trans_le (clamp_mono top (by linarith))
  exact rnd_lt_rnd (clamp_bounds top).1 (by linarith)

theorem select_lt {V : List Nat} {max : Nat} {d : Nat × Nat} (hV : ∀ v ∈ V, v ≤ max)
    (h : ∃ v ∈ V, ∃ w ∈ V, v ≠ w) : (select V max d).1 < (select V max d).2 := by
  have sorted := sorted_ascending V
  have bounded : ∀ v ∈ ascending V, v ≤ max := fun v hv => hV v (mem_ascending.1 hv)
  obtain ⟨v, hv, w, hw, distinct⟩ := h
  rw [← mem_ascending] at hv hw
  match list : ascending V with
  | [] => simp [list] at hv
  | [y0] =>
    rw [list, List.mem_singleton] at hv hw
    exact absurd (hv.trans hw.symm) distinct
  | [y0, y1] =>
    rw [select, list]
    exact List.rel_of_pairwise_cons (list ▸ sorted) (by simp)
  | y0 :: y1 :: y2 :: ys =>
    have three : 3 ≤ (ascending V).length := by simp [list]
    rw [select_eq_fitEnds three]
    exact fitEnds_lt sorted bounded three

/-- Settles O20: the pair is ascending for every set, and the fitted ends round to different numbers. -/
theorem selectorPairOrdered : Obligations.SelectorPairOrdered := by
  intro V max d nonempty bounded
  have order := select_ordered (d := (0, 0)) bounded ⟨le_rfl, Nat.zero_le max⟩
  rw [select_default_irrelevant nonempty max (0, 0) d] at order
  exact ⟨order.1, order.2, select_lt bounded⟩

end Sys2Proof.Machine
end

section
/-! SUPPORT. The indexed palette (45_indexed_palette.md): an illegal palette length (R261, R270): O38; PAL.DEFILT once
and twice (R270, R271): O40, O41; an index out of range (R263): O48. -/

namespace Sys2Proof.Machine

/-! ### An illegal palette length -/

section
variable {s : State}

theorem paletteCheck_illegal {k : Result} (h : ¬ PaletteLengthLegal s) :
    paletteCheck s k = .next (raiseError .invalidPaletteSize (beginCommand s)) := if_neg h

theorem execPalDefilt_illegal {fmt : Byte} (idle : s.status ≠ .busy) (len : s.pallen.toNat ≠ 256) :
    execPalDefilt fmt s = .next (raiseError .invalidPaletteSize (beginCommand s)) := by
  rw [execPalDefilt, unlessBusy_eq s _ idle, if_neg len]

end

/-- Settles O38: the three commands answer the error entry that the palette check of each raises. -/
theorem invalidPaletteSizeEndsCommand : Obligations.InvalidPaletteSizeEndsCommand := by
  intro i s idle h
  refine ⟨Config.freeSpos s.draws, s.draws + 1, ?_⟩
  obtain ⟨hi, not16, not256⟩ | ⟨⟨fmt, rfl⟩, len⟩ := h
  · have illegal : ¬ PaletteLengthLegal s := not_or.2 ⟨not16, not256⟩
    obtain rfl | rfl := hi
    all_goals exact (unlessBusy_eq s _ idle).trans (paletteCheck_illegal illegal)
  · exact execPalDefilt_illegal (fmt := fmt) idle len

/-! ### The permuted palette -/

section
variable {s : State}

/-- PAL.DEFILT on a whole palette ends DONE, and each entry is the old one at its source (45 R270). -/
theorem execPalDefilt_permutes (fmt : Byte) (idle : s.status ≠ .busy) (len : s.pallen.toNat = 256)
    (entries : ∀ i, i < 256 → (Memory.get s.pal i).isSome) :
    ∃ t, execPalDefilt fmt s = .next t ∧
      t = { s with pal := t.pal, status := .done, err := .none, ucnt := 1, running := none } ∧
      ∀ i, Memory.get t.pal i = if i < 256 then Memory.get s.pal (defiltSource i) else Memory.get s.pal i := by
  obtain ⟨cells, hc⟩ := defiltCells_isSome entries
  refine ⟨finishCommand { beginCommand s with pal := Memory.setMany s.pal cells, ucnt := 1 }, ?_, rfl,
    get_defilt hc⟩
  rw [execPalDefilt, unlessBusy_eq s _ idle, if_pos len, hc]

/-- The source of an index by the spec's own fields: `block` and `stripe` change places (45 R270). -/
theorem defiltSource_fields {part block stripe color : Nat} (hb : block < 2) (hs : stripe < 2) (hc : color < 8) :
    defiltSource (part * 32 + block * 16 + stripe * 8 + color) = part * 32 + block * 8 + stripe * 16 + color := by
  unfold defiltSource
  omega

end

/-- Settles O40: the permuted entries, read by the fields of their index, and the error of another PALLEN. -/
theorem defilterPermutesPalette : Obligations.DefilterPermutesPalette := by
  intro fmt s idle
  refine ⟨fun len entries => ?_, fun len =>
    invalidPaletteSizeEndsCommand (.palDefilt fmt) s idle (.inr ⟨⟨fmt, rfl⟩, len⟩)⟩
  obtain ⟨t, ran, frame, permuted⟩ := execPalDefilt_permutes fmt idle len entries
  refine ⟨t, ran, frame, fun part block stripe color hp hb hs hc => ?_⟩
  rw [permuted, if_pos (by omega), defiltSource_fields hb hs hc]

/-- Settles O41: the first permutation leaves every entry written, and the source of the source of an index is the
index. -/
theorem defilterTwiceRestoresPalette : Obligations.DefilterTwiceRestoresPalette := by
  intro fmt fmt' s idle len entries
  obtain ⟨t, ran, frame, once⟩ := execPalDefilt_permutes fmt idle len entries
  have ended : t.status = .done := by rw [frame]
  have pallen : t.pallen = s.pallen := by rw [frame]
  have entries' : ∀ i, i < 256 → (Memory.get t.pal i).isSome := by
    intro i hi
    rw [once, if_pos hi]
    exact entries _ (defiltSource_lt hi)
  obtain ⟨u, ran', _, twice⟩ := execPalDefilt_permutes fmt' (by rw [ended]; decide) (by rw [pallen, len])
    entries'
  refine ⟨t, u, ran, ran', fun i => ?_⟩
  rw [twice, once, once]
  split
  · rw [if_pos (defiltSource_lt ‹_›), defiltSource_twice ‹_›]
  · rfl

/-! ### An index out of range -/

section
variable {s : State} {is : List Nat}

theorem lookupIndices_outOfRange {i : Nat} (illegal : s.pallen.toNat ≤ i) :
    lookupIndices s (i :: is) = .outOfRange := by
  rw [lookupIndices, indexLegal, if_neg (by simpa using illegal)]

/-- Legal indices give pixels or find an unwritten entry (45 R263). -/
theorem lookupIndices_ne_outOfRange (legal : ∀ i ∈ is, i < s.pallen.toNat) :
    lookupIndices s is ≠ .outOfRange := by
  induction is with
  | nil => nofun
  | cons i is ih =>
    obtain ⟨hi, legal⟩ := List.forall_mem_cons.1 legal
    have hi : indexLegal s i = true := decide_eq_true hi
    rw [lookupIndices, if_pos hi]
    cases Memory.get s.pal i with
    | none => nofun
    | some p =>
      cases rest : lookupIndices s is with
      | pixels T | unwritten => nofun
      | outOfRange => exact absurd rest (ih legal)

/-- The indices of an IDX4 unit are below 16, and so legal for both lengths of the palette (45 R264). -/
theorem nibble_lt_pallen (pallen : PaletteLengthLegal s) (x : BitVec 4) : x.toNat < s.pallen.toNat := by
  have := x.isLt
  unfold PaletteLengthLegal at pallen
  omega

/-- A due indexed unit that fits, its first index illegal, raises PaletteIndexOutOfRange (60 R333). -/
theorem decIndices_outOfRange {f : Fmt} {i : Nat} (due : UnitDue s (.dec f)) (fits : UnitFits s (.dec f))
    (illegal : s.pallen.toNat ≤ i) :
    decIndices f (i :: is) s = .next (raiseInUnit (.dec f) .paletteIndexOutOfRange s) := by
  have hf : fitsStream s s.spos.toNat (unitSize f) = true := (fitsStream_iff ..).2 fits
  rw [decIndices, if_pos ((unitReady_iff ..).2 due), if_pos hf, lookupIndices_outOfRange illegal]

/-- An indexed unit that fits and whose indices are legal does not end in an error. -/
theorem decIndices_status_ne_error {f : Fmt} {t : State} (fits : UnitFits s (.dec f))
    (legal : ∀ i ∈ is, i < s.pallen.toNat) (h : decIndices f is s = .next t) : t.status ≠ .error := by
  obtain ⟨ready, ⟨_, ⟨T, _, rfl⟩ | ⟨illegal, _⟩⟩ | ⟨short, _⟩⟩ := decIndices_next h
  · obtain ⟨busy, _, _⟩ := (unitReady_iff ..).1 ready
    rw [putPixels, advanceUnit_status]
    dsimp only
    rw [busy]
    split <;> decide
  · exact absurd illegal (lookupIndices_ne_outOfRange legal)
  · exact absurd fits (Nat.not_le.2 short)

/-- The cells of the IDX8 units from `f0` on lie inside the image, at pixels from number `f0` on (46 R304). -/
theorem mem_unitCells_idx8 {W H f0 x y : Nat} (hW : W ≤ 65535) (hx : x < 65536)
    (h : imageKey x y ∈ unitCells .idx8 W H f0 (W * H)) : x < W ∧ y < H ∧ f0 ≤ y * W + x := by
  obtain ⟨u, from0, last, k, hk⟩ := mem_unitCells.1 h
  have width : 0 < W := Nat.pos_of_mul_pos_right (Nat.zero_lt_of_lt last)
  obtain ⟨⟨inside, rfl⟩, _⟩ := (mem_unitSlots_idx8 width hW hx).1 hk
  refine ⟨inside, ?_, from0⟩
  have row : y * W < H * W := by linarith
  exact Nat.lt_of_mul_lt_mul_right row

/-- An error of an IDX8 unit keeps the pixels of the units before it and all outside the image (60 R341 (a)). -/
theorem get_raiseInUnit_idx8 {e : ErrCode} {x y : Nat} (hx : x < 65536)
    (kept : s.width.toNat ≤ x ∨ s.height.toNat ≤ y ∨ y * s.width.toNat + x < s.ucnt.toNat) :
    Memory.get (raiseInUnit (.dec .idx8) e s).image (imageKey x y) = Memory.get s.image (imageKey x y) := by
  refine (get_scrambleImage _ s _).2 fun free => ?_
  obtain ⟨_, _, _⟩ := mem_unitCells_idx8 (Nat.le_of_lt_succ s.width.isLt) hx free
  omega

end

/-- Settles O48: what the error of an IDX8 unit answers and what it keeps, and the legal indices of an IDX4 unit. -/
theorem indexOutOfRangeEndsDecode : Obligations.IndexOutOfRangeEndsDecode := by
  refine ⟨fun i s due fits illegal => ?_, fun r l s t fits pallen h => ?_⟩
  · exact ⟨_, decIndices_outOfRange due fits illegal, rfl, fun x y hx kept => get_raiseInUnit_idx8 hx kept⟩
  · have legal : ∀ i ∈ [l.toNat, r.toNat], i < s.pallen.toNat := by
      simp [nibble_lt_pallen pallen]
    exact decIndices_status_ne_error fits legal h

end Sys2Proof.Machine
end

section
/-! SUPPORT. The start of a command (46_commands.md R290, R291, R297): O35, O36; the state between two units of it
(R293). -/

namespace Sys2Proof.Machine

/-! ### The state between two units -/

/-- The state after `k` units of command `c` started in `s`, but for the memories: SPOS and UCNT have moved by `k`
units, and STATUS is DONE when no unit is left (46 R290, R293). -/
def afterUnits (c : Command) (k : Nat) (s : State) : State :=
  { s with
    spos := s.spos + BitVec.ofNat 32 (k * unitSize (commandFmt c)),
    ucnt := BitVec.ofNat 32 k,
    status := if k < unitTotal s c then .busy else .done,
    err := .none,
    running := if k < unitTotal s c then some c else none }

section
variable {c : Command} {s : State}

theorem afterUnits_zero_of_pos (pos : 0 < unitTotal s c) :
    afterUnits c 0 s = { s with status := .busy, err := .none, ucnt := 0, running := some c } := by
  simp [afterUnits, pos]

theorem afterUnits_zero_of_empty (empty : unitTotal s c = 0) :
    afterUnits c 0 s = { s with status := .done, err := .none, ucnt := 0, running := none } := by
  simp [afterUnits, empty]

/-- The start of the unit loop is the state after no unit, DONE at once if there is none (46 R297). -/
theorem startLoop_eq (c : Command) (s : State) : startLoop c s = .next (afterUnits c 0 s) := by
  obtain empty | pos := Nat.eq_zero_or_pos (unitTotal s c)
  · rw [startLoop, if_pos empty, afterUnits_zero_of_empty empty]
    rfl
  · rw [startLoop, if_neg pos.ne', afterUnits_zero_of_pos pos]
    rfl

/-! ### The starts -/

theorem exec_decInstr (b : BlockFmt) (idle : s.status ≠ .busy) :
    exec (decInstr b) s = .next (afterUnits (.dec (.block b)) 0 s) := by
  rw [← startLoop_eq]
  cases b <;> exact unlessBusy_eq s _ idle

theorem exec_encInstr (b : BlockFmt) (idle : s.status ≠ .busy) :
    exec (encInstr b) s = .next (afterUnits (.enc b) 0 s) := by
  rw [← startLoop_eq]
  cases b <;> exact unlessBusy_eq s _ idle

theorem exec_decIdx4 (idle : s.status ≠ .busy) (pallen : PaletteLengthLegal s) (even : s.width.toNat % 2 = 0) :
    exec .decIdx4 s = .next (afterUnits (.dec .idx4) 0 s) := by
  rw [← startLoop_eq]
  exact (unlessBusy_eq s _ idle).trans ((paletteCheck_legal pallen).trans (if_pos even))

theorem exec_decIdx8 (idle : s.status ≠ .busy) (pallen : PaletteLengthLegal s) :
    exec .decIdx8 s = .next (afterUnits (.dec .idx8) 0 s) := by
  rw [← startLoop_eq]
  exact (unlessBusy_eq s _ idle).trans (paletteCheck_legal pallen)

theorem unitTotal_idx4_mul_two (even : s.width.toNat % 2 = 0) :
    unitTotal s (.dec .idx4) * 2 = s.width.toNat * s.height.toNat :=
  Nat.div_mul_cancel (Dvd.dvd.mul_right (Nat.dvd_of_mod_eq_zero even) _)

end

/-- Settles O35: the count is positive exactly when both sizes are, and the start is the state after no unit. -/
theorem blockCommandsStart : Obligations.BlockCommandsStart := by
  intro i c b h s idle
  have start : exec i s = .next (afterUnits c 0 s) := by
    obtain ⟨rfl, rfl⟩ | ⟨rfl, rfl⟩ := h
    · exact exec_decInstr b idle
    · exact exec_encInstr b idle
  have total : unitTotal s c = (s.width.toNat + 3) / 4 * ((s.height.toNat + 3) / 4) := by
    obtain ⟨-, rfl⟩ | ⟨-, rfl⟩ := h <;> rfl
  refine ⟨total, fun width height => ?_, fun empty => ?_⟩
  · rw [start, afterUnits_zero_of_pos]
    rw [total]
    exact Nat.mul_pos (by omega) (by omega)
  · rw [start, afterUnits_zero_of_empty]
    rw [total, Nat.mul_eq_zero]
    omega

/-- Settles O36: with the start checks passed, the start is the state after no unit. -/
theorem indexedCommandsStart : Obligations.IndexedCommandsStart := by
  intro s idle pallen
  have total8 : unitTotal s (.dec .idx8) = s.width.toNat * s.height.toNat := rfl
  refine ⟨fun even => ?_, fun pos => ?_, fun empty => ?_, total8⟩
  · have total4 := unitTotal_idx4_mul_two even
    refine ⟨fun pos => ?_, fun empty => ?_, total4⟩
    · rw [exec_decIdx4 idle pallen even, afterUnits_zero_of_pos (by omega)]
    · rw [exec_decIdx4 idle pallen even, afterUnits_zero_of_empty (by omega)]
  · rw [exec_decIdx8 idle pallen, afterUnits_zero_of_pos (by rwa [total8])]
  · rw [exec_decIdx8 idle pallen, afterUnits_zero_of_empty (by rwa [total8])]

end Sys2Proof.Machine
end

section
/-! SUPPORT. One unit of a command that fits (46_commands.md R292 to R295, R300 to R307): which unit a pixel belongs
to: O49; what the unit answers and writes: O42, O43, O44, O45. -/

namespace Sys2Proof.Machine

/-! ### The unit of a pixel -/

/-- A pixel is one of a unit's slots exactly when the unit is the one its format names for it (46 R292, R294). -/
theorem mem_unitSlots_iff {f : Fmt} {W H u x y : Nat} (hx : x < W) (hy : y < H) (hW : W ≤ 65535) :
    (∃ k, (imageKey x y, k) ∈ unitSlots f W H u) ↔ u = unitOfPixel f W x y := by
  cases f with
  | block b =>
    have hc : x / 4 < ceil4 W := by unfold ceil4; omega
    have tile := divMod_iff (x := x / 4) (y := y / 4) (q := u) (Nat.zero_lt_of_lt hc)
    simp only [mem_unitSlots_block hW (show x < 65536 by omega), unitOfPixel]
    constructor
    · rintro ⟨k, ⟨column, row, -, -⟩, -⟩
      exact (tile.1 ⟨column, row⟩).2.symm
    · rintro rfl
      obtain ⟨column, row⟩ := tile.2 ⟨hc, rfl⟩
      exact ⟨_, ⟨column, row, hx, hy⟩, rfl⟩
  | idx4 =>
    simp only [mem_unitSlots_idx4 (Nat.zero_lt_of_lt hx) hW (show x < 65536 by omega), unitOfPixel]
    constructor
    · rintro ⟨k, ⟨⟨-, left⟩, -⟩ | ⟨⟨-, right⟩, -⟩⟩ <;> omega
    · rintro rfl
      obtain even | odd := Nat.mod_two_eq_zero_or_one (y * W + x)
      · exact ⟨0, .inl ⟨⟨hx, by omega⟩, rfl⟩⟩
      · exact ⟨1, .inr ⟨⟨hx, by omega⟩, rfl⟩⟩
  | idx8 =>
    simp only [mem_unitSlots_idx8 (Nat.zero_lt_of_lt hx) hW (show x < 65536 by omega), unitOfPixel]
    exact ⟨fun ⟨_, ⟨_, h⟩, _⟩ => h.symm, fun h => ⟨0, ⟨hx, h.symm⟩, rfl⟩⟩

/-- Of `n` units of `m` bytes each, or `n` rows of `m` pixels, unit `j` lies within the whole. -/
theorem mul_add_le_mul {j n : Nat} (m : Nat) (hj : j < n) : j * m + m ≤ n * m :=
  (Nat.succ_mul j m).symm.trans_le (Nat.mul_le_mul_right m hj)

/-- A place (column `i`, row `j`) of a grid of `m` columns and `n` rows has a number below `m * n`. -/
theorem mul_add_lt_mul {i j m n : Nat} (hi : i < m) (hj : j < n) : j * m + i < m * n := by
  have := mul_add_le_mul m hj
  rw [Nat.mul_comm m n]
  omega

/-- The unit of a pixel is one of the command's. -/
theorem unitOfPixel_lt {f : Fmt} {W H x y : Nat} (hx : x < W) (hy : y < H) (even : f = .idx4 → W % 2 = 0) :
    unitOfPixel f W x y < unitCount f W H := by
  cases f with
  | block b => exact mul_add_lt_mul (by unfold ceil4; omega) (by unfold ceil4; omega)
  | idx4 =>
    have pairs : W * H / 2 * 2 = W * H :=
      Nat.div_mul_cancel (Dvd.dvd.mul_right (Nat.dvd_of_mod_eq_zero (even rfl)) H)
    have := mul_add_lt_mul hx hy
    simp only [unitOfPixel, unitCount]
    omega
  | idx8 => exact mul_add_lt_mul hx hy

/-- Settles O49, by the three shapes of a unit's slots. -/
theorem everyPixelInOneUnit : Obligations.EveryPixelInOneUnit :=
  fun _ _ _ _ _ hx hy hW _ even => ⟨unitOfPixel_lt hx hy even, fun _ _ => mem_unitSlots_iff hx hy hW⟩

/-! ### The advance of a due unit -/

section
variable {s : State}

theorem advanceUnit_of_due {c : Command} (due : UnitDue s c) : advanceUnit c s = unitDone c s := by
  obtain ⟨busy, run, left⟩ := due
  rw [advanceUnit_eq, unitDone, ucnt_succ s c left, busy, run]

theorem putPixels_of_due {f : Fmt} (T : List Pixel) (due : UnitDue s (.dec f)) :
    putPixels f T s = unitDone (.dec f) { s with
      image := Memory.setMany s.image
        (scatterCells (unitSlots f s.width.toNat s.height.toNat s.ucnt.toNat) T) } :=
  advanceUnit_of_due (s := { s with image := _ }) due

theorem putBytes_of_due {b : BlockFmt} (bytes : List Byte) (due : UnitDue s (.enc b)) :
    putBytes b bytes (afterGather s) = unitDone (.enc b) { s with
      stream := Memory.setMany s.stream (cellsAt s.spos.toNat bytes),
      draws := s.draws + 16 } :=
  advanceUnit_of_due (s := { afterGather s with stream := _ }) due

/-! ### Decoded units -/

theorem decUnit_fits {f : Fmt} (T : List Pixel) (due : UnitDue s (.dec f)) (fits : UnitFits s (.dec f)) :
    decUnit f T s = .next (putPixels f T s) := by
  have hf : fitsStream s s.spos.toNat (unitSize f) = true := (fitsStream_iff ..).2 fits
  rw [decUnit, if_pos ((unitReady_iff ..).2 due), if_pos hf]

theorem decIndices_fits {f : Fmt} {is : List Nat} {T : List Pixel} (due : UnitDue s (.dec f))
    (fits : UnitFits s (.dec f)) (found : lookupIndices s is = .pixels T) :
    decIndices f is s = .next (putPixels f T s) := by
  have hf : fitsStream s s.spos.toNat (unitSize f) = true := (fitsStream_iff ..).2 fits
  rw [decIndices, if_pos ((unitReady_iff ..).2 due), if_pos hf, found]

/-- Legal indices with their entries written give the entries (45 R263 to R265). -/
theorem lookupIndices_eq_pixels {is : List Nat} {T : List Pixel} (legal : ∀ i ∈ is, i < s.pallen.toNat)
    (entries : is.map (Memory.get s.pal) = T.map some) : lookupIndices s is = .pixels T := by
  induction is generalizing T with
  | nil =>
    obtain rfl : T = [] := by simpa using entries.symm
    rfl
  | cons i is ih =>
    obtain ⟨hi, legal⟩ := List.forall_mem_cons.1 legal
    cases T with
    | nil => simp at entries
    | cons p T =>
      obtain ⟨entry, entries⟩ := List.cons.inj entries
      exact lookupIndices_cons.2 ⟨hi, p, T, rfl, entry, ih legal entries⟩

/-- An image without columns has no unit (46 R297). -/
theorem width_pos_of_due {c : Command} (due : UnitDue s c) : 0 < s.width.toNat := by
  obtain ⟨-, -, left⟩ := due
  by_contra empty
  have width : s.width.toNat = 0 := by omega
  have none : unitTotal s c = 0 := by
    rw [unitTotal, width]
    cases commandFmt c <;> simp [unitCount, ceil4]
  omega

/-- What the image holds after a decoded unit (46 R294): each slot its pixel, every other cell what it held. -/
theorem get_putPixels_slot {f : Fmt} {T : List Pixel} {x y k : Nat} (due : UnitDue s (.dec f))
    (slot : (imageKey x y, k) ∈ unitSlots f s.width.toNat s.height.toNat s.ucnt.toNat) :
    Memory.get (putPixels f T s).image (imageKey x y) = some (T.getD k clearPixel) := by
  rw [putPixels_of_due T due]
  exact get_scatter_mem (nodup_unitSlots (Nat.le_of_lt_succ s.width.isLt) (width_pos_of_due due)) slot

theorem get_putPixels_other {f : Fmt} {T : List Pixel} {x y : Nat} (due : UnitDue s (.dec f))
    (other : ∀ k, (imageKey x y, k) ∉ unitSlots f s.width.toNat s.height.toNat s.ucnt.toNat) :
    Memory.get (putPixels f T s).image (imageKey x y) = Memory.get s.image (imageKey x y) := by
  rw [putPixels_of_due T due]
  exact get_scatter_other other

theorem putPixels_frame {f : Fmt} (T : List Pixel) (due : UnitDue s (.dec f)) :
    putPixels f T s = { unitDone (.dec f) s with image := (putPixels f T s).image } := by
  rw [putPixels_of_due T due]
  rfl

end

theorem half_le (x : Half) : x.toNat ≤ 65535 := Nat.le_of_lt_succ x.isLt

/-- Of a tile's sixteen pixels each pixel of the image in the tile names one. -/
theorem some_getD_tile {T : List Pixel} (len : T.length = 16) (x y : Nat) :
    some (T.getD (4 * (y % 4) + x % 4) clearPixel) = T[4 * (y % 4) + x % 4]? := by
  rw [List.getD_eq_getElem _ _ (by omega), List.getElem?_eq_getElem]

/-- Settles O42: a block decodes to sixteen pixels, and the slots of its unit are the pixels of its tile. -/
theorem decodedBlockUnit : Obligations.DecodedBlockUnit := by
  intro i b T h s due fits
  have ran : exec i s = .next (putPixels (.block b) T s) := by
    rw [← decUnit_fits T due fits]
    obtain ⟨k, rfl, rfl, rfl⟩ | ⟨k, rfl, rfl, rfl⟩ | ⟨k, rfl, rfl, rfl⟩ := h <;> rfl
  have len : T.length = 16 := by
    obtain ⟨k, -, -, rfl⟩ | ⟨k, -, -, rfl⟩ | ⟨k, -, -, rfl⟩ := h <;> rfl
  refine ⟨_, ran, putPixels_frame T due, fun x y hx => ?_⟩
  split_ifs with tile
  · rw [get_putPixels_slot due ((mem_unitSlots_block (half_le _) hx).2 ⟨tile, rfl⟩), some_getD_tile len]
  · exact get_putPixels_other due fun k slot => tile ((mem_unitSlots_block (half_le _) hx).1 slot).1

/-- Settles O43: the two slots of the unit are pixels 2u and 2u + 1, and both nibbles are legal indices. -/
theorem decodedIdx4Unit : Obligations.DecodedIdx4Unit := by
  intro r l s pl ph due fits pallen left right
  have legal : ∀ i ∈ [l.toNat, r.toNat], i < s.pallen.toNat := by simp [nibble_lt_pallen pallen]
  have found : lookupIndices s [l.toNat, r.toNat] = .pixels [pl, ph] :=
    lookupIndices_eq_pixels legal (by simp [left, right])
  refine ⟨_, decIndices_fits due fits found, putPixels_frame _ due, fun x y hx => ?_⟩
  have slots := fun k => mem_unitSlots_idx4 (H := s.height.toNat) (u := s.ucnt.toNat) (y := y) (k := k)
    (width_pos_of_due due) (half_le _) hx
  split_ifs with first second
  · exact get_putPixels_slot due ((slots 0).2 (.inl ⟨first, rfl⟩))
  · exact get_putPixels_slot due ((slots 1).2 (.inr ⟨second, rfl⟩))
  · exact get_putPixels_other due fun k slot =>
      ((slots k).1 slot).elim (fun h => first h.1) (fun h => second h.1)

/-- Settles O44: the one slot of the unit is pixel u. -/
theorem decodedIdx8Unit : Obligations.DecodedIdx8Unit := by
  intro i s p due fits legal entry
  have found : lookupIndices s [i.toNat] = .pixels [p] :=
    lookupIndices_eq_pixels (by simpa using legal) (by simp [entry])
  refine ⟨_, decIndices_fits due fits found, putPixels_frame _ due, fun x y hx => ?_⟩
  have slots := fun k => mem_unitSlots_idx8 (H := s.height.toNat) (u := s.ucnt.toNat) (y := y) (k := k)
    (width_pos_of_due due) (half_le _) hx
  split_ifs with pixel
  · exact get_putPixels_slot due ((slots 0).2 ⟨pixel, rfl⟩)
  · exact get_putPixels_other due fun k slot => pixel ((slots k).1 slot).1

/-! ### Encoded units -/

theorem bytesOfTile_length (b : BlockFmt) (T : List Pixel) : (bytesOfTile b T).length = unitSize (.block b) := by
  cases b <;> rfl

/-- A sample of a gathered tile is the image's pixel inside the image, some pixel in range outside (46 R295). -/
theorem gatherTile_spec {s : State} {u : Nat} {T : List Pixel} (got : gatherTile s u = some T) {p : Nat}
    (hp : p < 16) :
    (tileInside s.width.toNat s.height.toNat u p = true →
      T[p]? = Memory.get s.image (imageKey (tileX s.width.toNat u p) (tileY s.width.toNat u p))) ∧
    (tileInside s.width.toNat s.height.toNat u p = false → ∃ q, T[p]? = some q ∧ q.inRange = true) := by
  have sample := (get_of_gatherTile got).2 p hp
  refine ⟨fun inside => ?_, fun outside => ⟨_, ?_, freePixel_inRange (s.draws + p)⟩⟩
  · rw [sample, gatherPixel, if_pos inside]
  · rw [sample, gatherPixel, outside, if_neg Bool.false_ne_true]

/-- Settles O45: the gathered tile is the tile asked for, and its block is one write at SPOS. -/
theorem encodedBlockUnit : Obligations.EncodedBlockUnit := by
  intro i b h s due fits written
  obtain ⟨T, got⟩ := gatherTile_isSome written
  have hf : fitsStream s s.spos.toNat (unitSize (.block b)) = true := (fitsStream_iff ..).2 fits
  have ran : exec i s = .next (putBytes b (bytesOfTile b T) (afterGather s)) := by
    have unit : encUnit b (bytesOfTile b) s = .next (putBytes b (bytesOfTile b T) (afterGather s)) := by
      rw [encUnit, if_pos ((unitReady_iff ..).2 due), got]
      exact if_pos hf
    rw [← unit]
    obtain ⟨rfl, rfl⟩ | ⟨rfl, rfl⟩ | ⟨rfl, rfl⟩ := h <;> rfl
  rw [putBytes_of_due _ due] at ran
  refine ⟨T, _, ran, (get_of_gatherTile got).1, fun p hp => gatherTile_spec got hp, rfl, fun a => ?_⟩
  rw [← bytesOfTile_length b T]
  exact Memory.get_setMany_cellsAt_eq ..

end Sys2Proof.Machine
end

section
/-! SUPPORT. The unit loop ends (46_commands.md R293, R299): O56. -/

namespace Sys2Proof.Machine

/-! ### What a due unit can answer -/

section
variable {s t : State}

theorem decUnit_answers {f : Fmt} (T : List Pixel) (due : UnitDue s (.dec f)) : ∃ t, decUnit f T s = .next t := by
  rw [decUnit, if_pos ((unitReady_iff ..).2 due)]
  split
  · exact ⟨_, rfl⟩
  · exact ⟨_, rfl⟩

theorem decIndices_answers {f : Fmt} (is : List Nat) (due : UnitDue s (.dec f)) :
    (∃ t, decIndices f is s = .next t) ∨ decIndices f is s = .refused .unwrittenPalette := by
  rw [decIndices, if_pos ((unitReady_iff ..).2 due)]
  split
  · split
    · exact .inl ⟨_, rfl⟩
    · exact .inl ⟨_, rfl⟩
    · exact .inr rfl
  · exact .inl ⟨_, rfl⟩

theorem encUnit_answers {b : BlockFmt} (e : List Pixel → List Byte) (due : UnitDue s (.enc b)) :
    (∃ t, encUnit b e s = .next t) ∨ encUnit b e s = .refused .unwrittenImage := by
  rw [encUnit, if_pos ((unitReady_iff ..).2 due)]
  split
  · exact .inr rfl
  · split
    · exact .inl ⟨_, rfl⟩
    · exact .inl ⟨_, rfl⟩

/-- The outcome is a stop at a memory cell that nothing has written (10 R38; log 3). -/
def StopsUnwritten (r : Result) : Prop :=
  r = .refused .unwrittenStream ∨ r = .refused .unwrittenImage ∨ r = .refused .unwrittenPalette

/-- A due unit of its own command stops only at an unwritten cell. -/
theorem exec_unit_answers {i : Instr} {c : Command} (slot : slotOf i = .unit c) (due : UnitDue s c) :
    (∃ t, exec i s = .next t) ∨ StopsUnwritten (exec i s) := by
  cases i with
  | wireDxt1 u | wireDxt3 u | wireDxt5 u =>
    cases u with
    | read k => cases slot; exact .inl (decUnit_answers _ due)
    | write => cases slot; exact (encUnit_answers _ due).imp_right fun h => .inr (.inl h)
  | wireIdx4 r l => cases slot; exact (decIndices_answers _ due).imp_right fun h => .inr (.inr h)
  | wireIdx8 x => cases slot; exact (decIndices_answers _ due).imp_right fun h => .inr (.inr h)
  | _ => cases slot

/-- A unit of DEC that does not fit is not fetched: it raises TruncatedStream (46 R293). -/
theorem fetchUnit_truncated {f : Fmt} (due : UnitDue s (.dec f)) (short : ¬ UnitFits s (.dec f)) :
    fetchUnit s = .moved (raiseInUnit (.dec f) .truncatedStream s) := by
  obtain ⟨-, run, left⟩ := due
  have hf : ¬ fitsStream s s.spos.toNat (unitSize f) = true := fun h => short ((fitsStream_iff ..).1 h)
  simp only [fetchUnit, run, if_pos left, if_neg hf]

theorem decodeUnitBytes_of_readAll {f : Fmt} {a : Nat} {bytes : List Byte}
    (hr : Memory.readAll s.stream (List.range' a (unitSize f)) = some bytes) :
    ∃ i, decodeUnitBytes f bytes = .ok i :=
  decodeUnitBytes_isOk (by rw [Memory.length_readAll hr, List.length_range'])

/-- The step of a due unit is the unit's instruction, the error of a unit that does not fit, or a stop at an
unwritten byte. -/
theorem step_due {c : Command} (due : UnitDue s c) (waits : HostWaits s) :
    (∃ i, slotOf i = .unit c ∧ step s = exec i s) ∨ step s = .next (raiseInUnit c .truncatedStream s) ∨
      step s = .refused .unwrittenStream := by
  cases c with
  | enc b => exact .inl ⟨encodedUnit b, by cases b <;> rfl, (stepRunsDueUnit s waits).2 b _ due rfl⟩
  | dec f =>
    by_cases fits : UnitFits s (.dec f)
    · by_cases written : ∀ a ∈ List.range' s.spos.toNat (unitSize f), (Memory.get s.stream a).isSome
      · obtain ⟨bytes, hr⟩ := Memory.readAll_isSome written
        obtain ⟨i, hi⟩ := decodeUnitBytes_of_readAll hr
        obtain ⟨-, -, slot⟩ := decodeUnitBytes_spec hi
        exact .inl ⟨i, slot, (stepRunsDueUnit s waits).1 f bytes i due fits hr hi⟩
      · simp only [not_forall, Option.not_isSome_iff_eq_none] at written
        obtain ⟨a, ha, unwritten⟩ := written
        rw [step_waiting due.1 waits, fetchUnit_unwrittenStream due fits (List.mem_range'_1.1 ha) unwritten]
        exact .inr (.inr rfl)
    · rw [step_waiting due.1 waits, fetchUnit_truncated due fits]
      exact .inr (.inl rfl)

/-- The loop of `c` goes on, with `n` units left: the next one is due, and the host waits (46 R293). -/
structure LoopLeft (c : Command) (n : Nat) (s : State) : Prop where
  due : UnitDue s c
  waits : HostWaits s
  left : unitTotal s c - s.ucnt.toNat = n

/-- The command has ended (46 R290). -/
def CommandOver (s : State) : Prop := s.status = .done ∨ s.status = .error

/-- A completed unit leaves one unit less, or none and STATUS = DONE. -/
theorem unitDone_over_or_left {c : Command} {n : Nat} (loop : LoopLeft c (n + 1) s) :
    CommandOver (unitDone c s) ∨ LoopLeft c n (unitDone c s) := by
  obtain ⟨⟨-, -, more⟩, waits, left⟩ := loop
  have ucnt : (unitDone c s).ucnt.toNat = s.ucnt.toNat + 1 := ucnt_succ s c more
  have total : unitTotal (unitDone c s) c = unitTotal s c := rfl
  by_cases again : s.ucnt.toNat + 1 < unitTotal s c
  · refine .inr ⟨⟨if_pos again, if_pos again, ?_⟩, waits, ?_⟩
    · rwa [ucnt, total]
    · rw [ucnt, total]; omega
  · exact .inl (.inl (if_neg again))

/-- What a unit of the loop leads to when it answers a next state. -/
theorem exec_unit_next {i : Instr} {c : Command} {n : Nat} (loop : LoopLeft c (n + 1) s)
    (h : exec i s = .next t) : CommandOver t ∨ LoopLeft c n t := by
  obtain ⟨due, waits, left⟩ := loop
  have ⟨busy, run, _⟩ := due
  have own : ∀ {c'}, unitReady s c' = true → c' = c := fun ready =>
    Option.some.inj (((unitReady_iff ..).1 ready).2.1.symm.trans run)
  cases exec_effect h with
  | started _ _ idle | ended _ _ idle | rejected _ _ idle | permuted _ _ _ idle => exact absurd busy idle
  | decoded f T ready _ _ eq =>
    obtain rfl := own ready
    rw [eq, putPixels_of_due T due]
    refine unitDone_over_or_left ?_
    exact ⟨due, waits, left⟩
  | encoded b T bytes ready _ _ _ eq =>
    obtain rfl := own ready
    rw [eq, putBytes_of_due bytes due]
    refine unitDone_over_or_left ?_
    exact ⟨due, waits, left⟩
  | failedDec f e _ _ eq => rw [eq]; exact .inl (.inr rfl)
  | failedEnc b _ _ eq => rw [eq]; exact .inl (.inr rfl)

/-- One step of the loop: the command is over, or has one unit less left, or stops at an unwritten cell. -/
theorem step_unit {c : Command} {n : Nat} (loop : LoopLeft c (n + 1) s) :
    (∃ t, step s = .next t ∧ (CommandOver t ∨ LoopLeft c n t)) ∨ StopsUnwritten (step s) := by
  obtain ⟨i, slot, ran⟩ | ran | ran := step_due loop.due loop.waits
  · rw [ran]
    exact (exec_unit_answers slot loop.due).imp_left fun ⟨t, ht⟩ => ⟨t, ht, exec_unit_next loop ht⟩
  · exact .inl ⟨_, ran, .inl (.inr rfl)⟩
  · exact .inr (.inl ran)

/-! ### The loop -/

theorem run_succ_of_next {M : Host.Core} {k : Nat} {s t : M.State} (h : M.step s = .next t) :
    M.run (k + 1) s = M.run k t := by
  rw [Host.Core.run, h]

theorem run_one {M : Host.Core} (s : M.State) : M.run 1 s = M.step s := by
  rw [Host.Core.run]
  cases M.step s <;> rfl

/-- The loop is over, or stopped at an unwritten cell, within the units left. -/
theorem run_ends {c : Command} {n : Nat} (loop : LoopLeft c n s) : ∃ k, k ≤ n ∧
    ((∃ t, Host.Core.run core k s = .next t ∧ CommandOver t) ∨ StopsUnwritten (Host.Core.run core k s)) := by
  induction n generalizing s with
  | zero =>
    obtain ⟨⟨-, -, more⟩, -, left⟩ := loop
    omega
  | succ n ih =>
    obtain ⟨t, ran, ended | loop'⟩ | stops := step_unit loop
    · exact ⟨1, by omega, .inl ⟨t, (run_one (M := core) s).trans ran, ended⟩⟩
    · obtain ⟨k, hk, ends⟩ := ih loop'
      exact ⟨k + 1, by omega, by rwa [run_succ_of_next (M := core) ran]⟩
    · exact ⟨1, by omega, .inr ((run_one (M := core) s).symm ▸ stops)⟩

end

/-- Settles O56: a legal command in progress has a due unit, and each step leaves one unit less. -/
theorem everyCommandEnds : Obligations.EveryCommandEnds := by
  intro s c legal run waits
  have busy : s.status = .busy := legal.busy_iff.2 (by simp [run])
  exact run_ends ⟨⟨busy, run, (legal.running_legal c run).unit_left⟩, waits, rfl⟩

end Sys2Proof.Machine
end

section
/-! SUPPORT. The state after some units of a command (46_commands.md R293, R296); a whole DEC, and that of a block
format (R294, R300 to R302): O57. -/

namespace Sys2Proof.Machine

/-! ### The state after some units -/

section
variable {c : Command} {s : State} {k : Nat}

theorem afterUnits_ucnt (h : k ≤ unitTotal s c) : (afterUnits c k s).ucnt.toNat = k := by
  have := unitTotal_lt s c
  exact (BitVec.toNat_ofNat k 32).trans (Nat.mod_eq_of_lt (by omega))

section
variable (range : s.spos.toNat + unitTotal s c * unitSize (commandFmt c) ≤ s.slen.toNat)
include range

theorem afterUnits_spos (h : k ≤ unitTotal s c) :
    (afterUnits c k s).spos.toNat = s.spos.toNat + k * unitSize (commandFmt c) := by
  have := Nat.mul_le_mul_right (unitSize (commandFmt c)) h
  exact spos_add s _ (by omega)

theorem afterUnits_fits (h : k < unitTotal s c) : UnitFits (afterUnits c k s) c := by
  have := mul_add_le_mul (unitSize (commandFmt c)) h
  rw [UnitFits, afterUnits_spos range (Nat.le_of_lt h)]
  exact Nat.le_trans (by omega) range

/-- After its last unit the command is DONE, UCNT its unit count, SPOS past its range (46 R290, R296). -/
theorem afterUnits_all :
    (afterUnits c (unitTotal s c) s).status = .done ∧ (afterUnits c (unitTotal s c) s).err = .none ∧
    (afterUnits c (unitTotal s c) s).ucnt.toNat = unitTotal s c ∧
    (afterUnits c (unitTotal s c) s).spos.toNat = s.spos.toNat + unitTotal s c * unitSize (commandFmt c) :=
  ⟨if_neg (Nat.lt_irrefl _), rfl, afterUnits_ucnt (Nat.le_refl _), afterUnits_spos range (Nat.le_refl _)⟩

end

theorem afterUnits_due (h : k < unitTotal s c) : UnitDue (afterUnits c k s) c :=
  ⟨if_pos h, if_pos h, (afterUnits_ucnt (Nat.le_of_lt h)).trans_lt h⟩

theorem unitDone_afterUnits (h : k < unitTotal s c) : unitDone c (afterUnits c k s) = afterUnits c (k + 1) s := by
  have spos : s.spos + BitVec.ofNat 32 (k * unitSize (commandFmt c)) + BitVec.ofNat 32 (unitSize (commandFmt c)) =
      s.spos + BitVec.ofNat 32 ((k + 1) * unitSize (commandFmt c)) := by
    rw [BitVec.add_assoc, ← BitVec.ofNat_add, Nat.succ_mul]
  have ucnt : BitVec.ofNat 32 k + 1 = BitVec.ofNat 32 (k + 1) := (BitVec.ofNat_add k 1).symm
  have total : unitTotal (afterUnits c k s) c = unitTotal s c := rfl
  rw [unitDone, afterUnits_ucnt (Nat.le_of_lt h), total]
  simp only [afterUnits, spos, ucnt]

/-- What every step of the loop keeps, from no unit on, holds after `n` of them. -/
theorem run_of_steps {P : Nat → State → Prop} {n : Nat}
    (next : ∀ k u, k < n → P k u → ∃ t, step u = .next t ∧ P (k + 1) t) {u : State} (start : P 0 u) :
    ∃ t, Host.Core.run core n u = .next t ∧ P n t := by
  induction n generalizing P u with
  | zero => exact ⟨u, rfl, start⟩
  | succ n ih =>
    obtain ⟨t, ran, h⟩ := next 0 u (Nat.succ_pos n) start
    obtain ⟨t', ran', h'⟩ := ih (P := fun k => P (k + 1)) (fun k u hk => next (k + 1) u (by omega)) h
    exact ⟨t', (run_succ_of_next (M := core) ran).trans ran', h'⟩

end

/-! ### Decoding -/

section
variable {f : Fmt} {s : State} {T : Nat → List Pixel}

/-- The state with another image memory. -/
def withImage (s : State) (m : Memory Pixel) : State := { s with image := m }

theorem putPixels_afterUnits {k : Nat} (T : List Pixel) (left : k < unitTotal s (.dec f)) :
    putPixels f T (afterUnits (.dec f) k s) =
      afterUnits (.dec f) (k + 1) (withImage s (putPixels f T (afterUnits (.dec f) k s)).image) := by
  have frame : _ = withImage _ _ := putPixels_frame T (afterUnits_due left)
  rw [unitDone_afterUnits left] at frame
  exact frame

/-- The image of a DEC started in `s` after `k` units, unit `u` decoding to the pixels `T u`: each pixel of those
units holds its own of them (46 R294). -/
def DecodedUpTo (f : Fmt) (s : State) (T : Nat → List Pixel) (k : Nat) (m : Memory Pixel) : Prop :=
  ∀ x y, x < s.width.toNat → y < s.height.toNat → unitOfPixel f s.width.toNat x y < k →
    ∃ j, (imageKey x y, j) ∈ unitSlots f s.width.toNat s.height.toNat (unitOfPixel f s.width.toNat x y) ∧
      Memory.get m (imageKey x y) = some ((T (unitOfPixel f s.width.toNat x y)).getD j clearPixel)

/-- A unit adds its own pixels and leaves those of the units before it. -/
theorem DecodedUpTo.succ {k : Nat} {m : Memory Pixel} (h : DecodedUpTo f s T k m)
    (left : k < unitTotal s (.dec f)) :
    DecodedUpTo f s T (k + 1) (putPixels f (T k) (afterUnits (.dec f) k (withImage s m))).image := by
  have due : UnitDue (afterUnits (.dec f) k (withImage s m)) (.dec f) := afterUnits_due left
  have ucnt : (afterUnits (.dec f) k (withImage s m)).ucnt.toNat = k := afterUnits_ucnt (Nat.le_of_lt left)
  intro x y hx hy hk
  have unit := fun u => mem_unitSlots_iff (f := f) (u := u) hx hy (half_le s.width)
  obtain before | own := Nat.lt_succ_iff_lt_or_eq.1 hk
  · rw [get_putPixels_other due]
    · exact h x y hx hy before
    · intro j slot
      rw [ucnt] at slot
      exact absurd ((unit k).1 ⟨j, slot⟩) before.ne'
  · obtain ⟨j, slot⟩ := (unit k).2 own.symm
    rw [own]
    exact ⟨j, slot, get_putPixels_slot due (by rwa [ucnt])⟩

/-- A DEC whose units decode to the pixels `T` ends with each pixel of the image its own of them. -/
theorem run_decode (unit : ∀ k m, k < unitTotal s (.dec f) → step (afterUnits (.dec f) k (withImage s m)) =
      .next (putPixels f (T k) (afterUnits (.dec f) k (withImage s m)))) :
    ∃ m, Host.Core.run core (unitTotal s (.dec f)) (afterUnits (.dec f) 0 s) =
        .next (afterUnits (.dec f) (unitTotal s (.dec f)) (withImage s m)) ∧
      DecodedUpTo f s T (unitTotal s (.dec f)) m := by
  obtain ⟨_, ran, m, rfl, pixels⟩ := run_of_steps (n := unitTotal s (.dec f)) (u := afterUnits (.dec f) 0 s)
    (P := fun k t => ∃ m, t = afterUnits (.dec f) k (withImage s m) ∧ DecodedUpTo f s T k m)
    (by
      rintro k _ left ⟨m, rfl, pixels⟩
      exact ⟨_, unit k m left, _, putPixels_afterUnits (s := withImage s m) (T k) left, pixels.succ left⟩)
    ⟨s.image, rfl, nofun⟩
  exact ⟨m, ran, pixels⟩

end

/-! ### Whole block decodes -/

section
variable {b : BlockFmt} {bytes : List Byte}

/-- The unit read from a block's bytes decodes to the block's tile of sixteen pixels. -/
theorem exec_blockUnit {i : Instr} (hi : decodeUnitBytes (.block b) bytes = .ok i) (s : State) :
    exec i s = decUnit (.block b) (tileOfBytes b bytes) s ∧ (tileOfBytes b bytes).length = 16 := by
  obtain ⟨-, -, slot⟩ := decodeUnitBytes_spec hi
  cases i with
  | wireDxt1 u | wireDxt3 u | wireDxt5 u =>
    cases u with
    | read k => cases slot; rw [tileOfBytes, hi]; exact ⟨rfl, rfl⟩
    | write => cases slot
  | _ => cases slot

variable {s : State}

theorem tileOfBytes_length {a : Nat}
    (hr : Memory.readAll s.stream (List.range' a (unitSize (.block b))) = some bytes) :
    (tileOfBytes b bytes).length = 16 := by
  obtain ⟨i, hi⟩ := decodeUnitBytes_of_readAll hr
  exact (exec_blockUnit hi s).2

/-- A due unit of a block DEC whose bytes are there decodes them. -/
theorem step_blockDecode (due : UnitDue s (.dec (.block b)))
    (fits : UnitFits s (.dec (.block b))) (waits : HostWaits s)
    (hr : Memory.readAll s.stream (List.range' s.spos.toNat (unitSize (.block b))) = some bytes) :
    step s = .next (putPixels (.block b) (tileOfBytes b bytes) s) := by
  obtain ⟨i, hi⟩ := decodeUnitBytes_of_readAll hr
  rw [(stepRunsDueUnit s waits).1 _ bytes i due fits hr hi, (exec_blockUnit hi s).1, decUnit_fits _ due fits]

end

/-- Settles O57: each unit decodes the bytes at its place in the range, and each pixel is in one unit. -/
theorem wholeBlockDecode : Obligations.WholeBlockDecode := by
  intro b s idle waits c us n range written
  have block : ∀ u, u < n → ∃ bytes,
      Memory.readAll s.stream (List.range' (s.spos.toNat + us * u) us) = some bytes := by
    intro u hu
    refine Memory.readAll_isSome fun a ha => ?_
    obtain ⟨lo, hi⟩ := List.mem_range'_1.1 ha
    have unit := mul_add_le_mul us hu
    rw [Nat.mul_comm us u] at lo hi
    exact written a (by omega) (by omega)
  choose! bytes hbytes using block
  have unit : ∀ k m, k < n → step (afterUnits c k (withImage s m)) =
      .next (putPixels (.block b) (tileOfBytes b (bytes k)) (afterUnits c k (withImage s m))) := by
    intro k m left
    have spos := afterUnits_spos (c := c) (s := withImage s m) range (Nat.le_of_lt left)
    refine step_blockDecode (afterUnits_due left) (afterUnits_fits (s := withImage s m) range left) waits ?_
    rw [spos, Nat.mul_comm]
    exact hbytes k left
  obtain ⟨m, ran, pixels⟩ := run_decode unit
  obtain ⟨done, err, ucnt, spos⟩ := afterUnits_all (c := c) (s := withImage s m) range
  refine ⟨_, _, exec_decInstr b idle, ran, done, err, ucnt, spos, rfl, rfl, fun x y hx hy => ?_⟩
  have hu : unitOfPixel (.block b) s.width.toNat x y < n := unitOfPixel_lt hx hy nofun
  obtain ⟨j, slot, pixel⟩ := pixels x y hx hy hu
  obtain ⟨-, rfl⟩ := (mem_unitSlots_block (half_le _) (by have := half_le s.width; omega)).1 slot
  exact ⟨_, hbytes _ hu, pixel.trans (some_getD_tile (tileOfBytes_length (hbytes _ hu)) x y)⟩

end Sys2Proof.Machine
end

section
/-! SUPPORT. A whole DEC of an indexed format (46_commands.md R303, R304): O59. -/

namespace Sys2Proof.Machine

/-! ### The indices of a unit -/

/-- The palette indices in a unit's byte, in the order of their pixels (30 R100, R101). -/
def unitIndices (f : Fmt) (v : Byte) : List Nat :=
  if f = .idx4 then [v.toNat % 16, v.toNat / 16] else [v.toNat]

/-- The palette index of pixel number `q` in its unit's byte: the low nibble is IDX4's left pixel. -/
def pixelIndex (f : Fmt) (v : Byte) (q : Nat) : Nat :=
  if f = .idx4 then (if q % 2 = 0 then v.toNat % 16 else v.toNat / 16) else v.toNat

/-- The pixels that a byte's indices name in a palette. -/
def palettePixels (pal : Memory Pixel) (is : List Nat) : List Pixel :=
  is.map fun i => (Memory.get pal i).getD clearPixel

theorem map_some_palettePixels {pal : Memory Pixel} {is : List Nat}
    (entries : ∀ i ∈ is, (Memory.get pal i).isSome) :
    is.map (Memory.get pal) = (palettePixels pal is).map some := by
  rw [palettePixels, List.map_map]
  refine List.map_congr_left fun i hi => ?_
  obtain ⟨p, hp⟩ := Option.isSome_iff_exists.1 (entries i hi)
  simp [hp]

theorem palettePixels_getD {pal : Memory Pixel} {is : List Nat} {i j : Nat} (index : is[j]? = some i)
    (entry : (Memory.get pal i).isSome) : some ((palettePixels pal is).getD j clearPixel) = Memory.get pal i := by
  obtain ⟨p, hp⟩ := Option.isSome_iff_exists.1 entry
  simp [palettePixels, index, hp]

section
variable {f : Fmt} (hf : f = .idx4 ∨ f = .idx8)
include hf

theorem unitSize_indexed : unitSize f = 1 := by
  obtain rfl | rfl := hf <;> rfl

/-- One byte is one unit, which looks its indices up. -/
theorem exec_indexedUnit (v : Byte) :
    ∃ i, decode (.unit (.dec f)) [v] = .ok i ∧ ∀ s, exec i s = decIndices f (unitIndices f v) s := by
  obtain rfl | rfl := hf
  · refine ⟨.wireIdx4 (v.extractLsb' 4 4) (v.extractLsb' 0 4), rfl, fun s => ?_⟩
    change decIndices .idx4 [(v.extractLsb' 0 4).toNat, (v.extractLsb' 4 4).toNat] s = _
    rw [toNat_nibbleLow, toNat_nibbleHigh]
    rfl
  · exact ⟨.wireIdx8 v, rfl, fun s => rfl⟩

/-- The unit's slot for a pixel takes the pixel's index. -/
theorem unitIndices_slot {W H x y j : Nat} (v : Byte) (hx : x < W) (hW : W ≤ 65535)
    (slot : (imageKey x y, j) ∈ unitSlots f W H (unitOfPixel f W x y)) :
    (unitIndices f v)[j]? = some (pixelIndex f v (y * W + x)) := by
  obtain rfl | rfl := hf
  · obtain ⟨⟨-, left⟩, rfl⟩ | ⟨⟨-, right⟩, rfl⟩ :=
      (mem_unitSlots_idx4 (Nat.zero_lt_of_lt hx) hW (by omega)).1 slot
    · have even : (y * W + x) % 2 = 0 := by omega
      simp [unitIndices, pixelIndex, even]
    · have odd : (y * W + x) % 2 = 1 := by omega
      simp [unitIndices, pixelIndex, odd]
  · obtain ⟨-, rfl⟩ := (mem_unitSlots_idx8 (Nat.zero_lt_of_lt hx) hW (by omega)).1 slot
    rfl

/-- Each index of a unit of the command is that of a pixel of the image. -/
theorem mem_unitIndices {s : State} {k i : Nat} {v : Byte} (hk : k < unitTotal s (.dec f))
    (hi : i ∈ unitIndices f v) :
    ∃ q, q < s.width.toNat * s.height.toNat ∧ (if f = .idx4 then q / 2 else q) = k ∧ pixelIndex f v q = i := by
  obtain rfl | rfl := hf
  · have pairs : k < s.width.toNat * s.height.toNat / 2 := hk
    obtain rfl | rfl : i = v.toNat % 16 ∨ i = v.toNat / 16 := by simpa [unitIndices] using hi
    · exact ⟨2 * k, by omega, by simp, by simp [pixelIndex]⟩
    · refine ⟨2 * k + 1, by omega, ?_, ?_⟩
      · rw [if_pos rfl]; omega
      · simp [pixelIndex, Nat.add_mod]
  · exact ⟨k, hk, rfl, (List.mem_singleton.1 hi).symm⟩

/-- A due unit of an indexed DEC whose byte is there, its indices legal and their entries written, decodes to the
entries. -/
theorem step_indexedDecode {s : State} {v : Byte} (due : UnitDue s (.dec f)) (fits : UnitFits s (.dec f))
    (waits : HostWaits s) (byte : Memory.get s.stream s.spos.toNat = some v)
    (legal : ∀ i ∈ unitIndices f v, i < s.pallen.toNat)
    (entries : ∀ i ∈ unitIndices f v, (Memory.get s.pal i).isSome) :
    step s = .next (putPixels f (palettePixels s.pal (unitIndices f v)) s) := by
  obtain ⟨i, hi, ran⟩ := exec_indexedUnit hf v
  have hr : Memory.readAll s.stream (List.range' s.spos.toNat (unitSize f)) = some [v] := by
    rw [unitSize_indexed hf]
    exact (Memory.readAll_cons ..).2 ⟨v, [], rfl, byte, rfl⟩
  rw [(stepRunsDueUnit s waits).1 f [v] i due fits hr hi, ran]
  exact decIndices_fits due fits (lookupIndices_eq_pixels legal (map_some_palettePixels entries))

end

/-- Settles O59: each unit looks up the indices of its byte, and each pixel is in one unit. -/
theorem wholeIndexedDecode : Obligations.WholeIndexedDecode := by
  intro f i s h idle waits pallen even n index byteNo range bytes
  have hf : f = .idx4 ∨ f = .idx8 := h.imp And.left And.left
  have size : unitSize f = 1 := unitSize_indexed hf
  have start : exec i s = .next (afterUnits (.dec f) 0 s) := by
    obtain ⟨rfl, rfl⟩ | ⟨rfl, rfl⟩ := h
    · exact exec_decIdx4 idle pallen (even rfl)
    · exact exec_decIdx8 idle pallen
  have range : s.spos.toNat + n * unitSize f ≤ s.slen.toNat := by rwa [size, Nat.mul_one]
  have unitByte : ∀ k, k < n → ∃ v, Memory.get s.stream (s.spos.toNat + k) = some v ∧
      ∀ i ∈ unitIndices f v, i < s.pallen.toNat ∧ (Memory.get s.pal i).isSome := by
    intro k hk
    obtain ⟨q, hq, rfl, -⟩ := mem_unitIndices hf hk (v := 0) (i := 0) (by obtain rfl | rfl := hf <;> decide)
    obtain ⟨v, byte, -⟩ := bytes q hq
    refine ⟨v, byte, fun i hi => ?_⟩
    obtain ⟨q', hq', (same : byteNo q' = byteNo q), rfl⟩ := mem_unitIndices hf hk hi
    obtain ⟨v', byte', legal⟩ := bytes q' hq'
    rw [same, byte] at byte'
    obtain rfl := Option.some.inj byte'
    exact legal
  choose! v byte legal using unitByte
  have unit : ∀ k m, k < n → step (afterUnits (.dec f) k (withImage s m)) =
      .next (putPixels f (palettePixels s.pal (unitIndices f (v k))) (afterUnits (.dec f) k (withImage s m))) := by
    intro k m left
    have spos := afterUnits_spos (c := .dec f) (s := withImage s m) range (Nat.le_of_lt left)
    refine step_indexedDecode hf (afterUnits_due left) (afterUnits_fits (s := withImage s m) range left) waits ?_
      (fun i hi => (legal k left i hi).1) (fun i hi => (legal k left i hi).2)
    rw [spos, commandFmt, size, Nat.mul_one]
    exact byte k left
  obtain ⟨m, ran, pixels⟩ := run_decode unit
  obtain ⟨done, err, ucnt, spos⟩ := afterUnits_all (c := .dec f) (s := withImage s m) range
  rw [commandFmt, size, Nat.mul_one] at spos
  refine ⟨_, _, start, ran, done, err, ucnt, spos, rfl, rfl, fun x y hx hy => ?_⟩
  have hu : unitOfPixel f s.width.toNat x y < n := unitOfPixel_lt hx hy even
  obtain ⟨j, slot, pixel⟩ := pixels x y hx hy hu
  have unitNo : byteNo (y * s.width.toNat + x) = unitOfPixel f s.width.toNat x y := by
    obtain rfl | rfl := hf <;> rfl
  refine ⟨_, (congrArg _ (congrArg _ unitNo)).trans (byte _ hu), pixel.trans ?_⟩
  have index := unitIndices_slot hf (v (unitOfPixel f s.width.toNat x y)) hx (half_le _) slot
  exact palettePixels_getD index (legal _ hu _ (List.mem_of_getElem? index)).2

end Sys2Proof.Machine
end

section
/-! SUPPORT. A whole ENC of a block format (46_commands.md R295, R305 to R307): O58. -/

namespace Sys2Proof.Machine

/-! ### Reading several cells -/

/-- Reading consecutive cells, each of which holds its value of a list, gives the list. -/
theorem Memory.readAll_range' {α : Type} {m : Memory α} {a : Nat} {vs : List α}
    (h : ∀ i, i < vs.length → Memory.get m (a + i) = vs[i]?) :
    Memory.readAll m (List.range' a vs.length) = some vs := by
  induction vs generalizing a with
  | nil => rfl
  | cons v vs ih =>
    refine (Memory.readAll_cons ..).2 ⟨v, vs, rfl, h 0 (Nat.succ_pos _), ih fun i hi => ?_⟩
    rw [Nat.add_assoc, Nat.add_comm 1 i]
    exact h (i + 1) (Nat.succ_lt_succ hi)

theorem Memory.readAll_congr {α : Type} {m m' : Memory α} {as : List Nat}
    (h : ∀ a ∈ as, Memory.get m a = Memory.get m' a) : Memory.readAll m as = Memory.readAll m' as := by
  induction as with
  | nil => rfl
  | cons a as ih =>
    obtain ⟨ha, h⟩ := List.forall_mem_cons.1 h
    rw [Memory.readAll, Memory.readAll, ha, ih h]

section
variable {b : BlockFmt} {s : State}

/-- The pixels of a tile that lies inside the image, read from the image, are the tile's. -/
theorem tile_eq_of_readAll {m : Memory Pixel} {key : Nat → Nat} {T T' : List Pixel} (len : T'.length = 16)
    (pixels : ∀ p, p < 16 → T'[p]? = Memory.get m (key p))
    (hr : Memory.readAll m ((List.range 16).map key) = some T) : T' = T := by
  have len' : T.length = 16 := by simpa using Memory.length_readAll hr
  refine List.ext_getElem? fun p => ?_
  by_cases hp : p < 16
  · have := Memory.get_of_readAll hr p (by simpa using hp)
    rw [List.getElem_map, List.getElem_range] at this
    rw [pixels p hp, this]
  · rw [List.getElem?_eq_none (by omega), List.getElem?_eq_none (by omega)]

/-- Every pixel of the image is written (46 R305 to R307). -/
def ImageWritten (s : State) : Prop :=
  ∀ x y, x < s.width.toNat → y < s.height.toNat → (Memory.get s.image (imageKey x y)).isSome

/-- The cells of unit `u`'s tile, by tile position (46 R295). -/
def tileKey (s : State) (u p : Nat) : Nat := imageKey (tileX s.width.toNat u p) (tileY s.width.toNat u p)

theorem ImageWritten.tile (h : ImageWritten s) {u p : Nat}
    (inside : tileInside s.width.toNat s.height.toNat u p = true) : (Memory.get s.image (tileKey s u p)).isSome := by
  obtain ⟨column, row⟩ := tileInside_iff.1 inside
  exact h _ _ column row

/-- The stream of an ENC started in `s` after `k` units (46 R293, R295): the range of those units is written, the
rest as before, and the block of each tile inside the image stands in its place. -/
structure EncodedUpTo (b : BlockFmt) (s : State) (k : Nat) (m : Memory Byte) : Prop where
  written : ∀ a, s.spos.toNat ≤ a → a < s.spos.toNat + k * unitSize (.block b) → (Memory.get m a).isSome
  outside : ∀ a, a < s.spos.toNat ∨ s.spos.toNat + k * unitSize (.block b) ≤ a →
    Memory.get m a = Memory.get s.stream a
  blocks : ∀ u T, u < k → (∀ p, p < 16 → tileInside s.width.toNat s.height.toNat u p = true) →
    Memory.readAll s.image ((List.range 16).map (tileKey s u)) = some T →
    Memory.readAll m (List.range' (s.spos.toNat + unitSize (.block b) * u) (unitSize (.block b))) =
      some (bytesOfTile b T)

/-- The state with another stream memory, and so many free values taken. -/
def withStream (s : State) (m : Memory Byte) (d : Nat) : State := { s with stream := m, draws := d }

/-- A unit adds its own block. -/
theorem EncodedUpTo.succ {k : Nat} {m m' : Memory Byte} {T : List Pixel} (h : EncodedUpTo b s k m)
    (tile : (∀ p, p < 16 → tileInside s.width.toNat s.height.toNat k p = true) → ∀ U,
      Memory.readAll s.image ((List.range 16).map (tileKey s k)) = some U → T = U)
    (block : ∀ a, Memory.get m' a = if s.spos.toNat + k * unitSize (.block b) ≤ a ∧
        a < s.spos.toNat + k * unitSize (.block b) + unitSize (.block b)
      then (bytesOfTile b T)[a - (s.spos.toNat + k * unitSize (.block b))]? else Memory.get m a) :
    EncodedUpTo b s (k + 1) m' := by
  have len := bytesOfTile_length b T
  constructor
  · intro a lo hi
    rw [Nat.succ_mul] at hi
    rw [block]
    split_ifs with own
    · rw [List.getElem?_eq_getElem (by omega)]
      rfl
    · exact h.written a lo (by omega)
  · intro a out
    rw [Nat.succ_mul] at out
    rw [block, if_neg (by omega)]
    exact h.outside a (by omega)
  · intro u U hu inside hr
    obtain before | rfl := Nat.lt_succ_iff_lt_or_eq.1 hu
    · rw [← h.blocks u U before inside hr]
      refine Memory.readAll_congr fun a ha => ?_
      obtain ⟨lo, hi⟩ := List.mem_range'_1.1 ha
      have units := mul_add_le_mul (unitSize (.block b)) before
      rw [Nat.mul_comm _ u] at lo hi
      rw [block, if_neg (by omega)]
    · obtain rfl := tile inside U hr
      rw [← len]
      refine Memory.readAll_range' fun i hi => ?_
      rw [len, Nat.mul_comm, block, if_pos (by omega), Nat.add_sub_cancel_left]

/-- One step of the ENC of a written image into a range that fits is one unit more. -/
theorem EncodedUpTo.next_unit {k d : Nat} {m : Memory Byte} (h : EncodedUpTo b s k m) (image : ImageWritten s)
    (waits : HostWaits s) (left : k < unitTotal s (.enc b))
    (range : s.spos.toNat + unitTotal s (.enc b) * unitSize (.block b) ≤ s.slen.toNat) :
    ∃ m' d', step (afterUnits (.enc b) k (withStream s m d)) =
        .next (afterUnits (.enc b) (k + 1) (withStream s m' d')) ∧ EncodedUpTo b s (k + 1) m' := by
  have due : UnitDue (afterUnits (.enc b) k (withStream s m d)) (.enc b) := afterUnits_due left
  have ucnt : (afterUnits (.enc b) k (withStream s m d)).ucnt.toNat = k := afterUnits_ucnt (Nat.le_of_lt left)
  have spos : (afterUnits (.enc b) k (withStream s m d)).spos.toNat = s.spos.toNat + k * unitSize (.block b) :=
    afterUnits_spos (s := withStream s m d) range (Nat.le_of_lt left)
  obtain ⟨T, t, ran, len, pixels, frame, block⟩ := encodedBlockUnit (encodedUnit b) b
    (by cases b <;> simp [encodedUnit]) _ due (afterUnits_fits (s := withStream s m d) range left)
    fun p _ inside => image.tile inside
  rw [ucnt] at pixels
  rw [spos] at block
  rw [unitDone_afterUnits (s := withStream s m d) left] at frame
  refine ⟨t.stream, t.draws, ?_, h.succ (fun inside U hr => ?_) block⟩
  · exact ((stepRunsDueUnit (afterUnits (.enc b) k (withStream s m d)) waits).2 b _ due rfl).trans
      (ran.trans (congrArg _ frame))
  · exact tile_eq_of_readAll len (fun p hp => (pixels p hp).1 (inside p hp)) hr

end

/-- Settles O58: each unit writes its own block, and the blocks fill the range one after another. -/
theorem wholeBlockEncode : Obligations.WholeBlockEncode := by
  intro b s idle waits c us n range image
  have before : EncodedUpTo b s 0 s.stream := ⟨by omega, fun _ _ => rfl, nofun⟩
  obtain ⟨_, ran, m, d, rfl, whole⟩ := run_of_steps (n := n) (u := afterUnits c 0 s)
    (P := fun k t => ∃ m d, t = afterUnits c k (withStream s m d) ∧ EncodedUpTo b s k m)
    (by
      rintro k _ left ⟨m, d, rfl, h⟩
      obtain ⟨m', d', ran, h'⟩ := h.next_unit image waits left range
      exact ⟨_, ran, m', d', rfl, h'⟩)
    ⟨s.stream, s.draws, rfl, before⟩
  obtain ⟨done, err, ucnt, spos⟩ := afterUnits_all (c := c) (s := withStream s m d) range
  obtain ⟨written, outside, blocks⟩ := whole
  exact ⟨_, _, exec_encInstr b idle, ran, done, err, ucnt, spos, rfl, rfl, written, outside, blocks⟩

end Sys2Proof.Machine
end

section
/-! SUPPORT. A unit that does not fit below SLEN (60_exceptions.md R332, R340, R341): O46, O47; with no host action the
codec stays as it is, and what a reset leaves (70_reset_and_hazards.md R370, R371): O27, O28. -/

namespace Sys2Proof.Machine

/-! ### The pixels an error or a reset leaves unspecified -/

/-- A slot of one of a command's units is a pixel of the image (46 R294). -/
theorem inside_of_mem_unitSlots {f : Fmt} {W H u x y k : Nat} (hW : W ≤ 65535) (hx : x < 65536)
    (hu : u < unitCount f W H) (slot : (imageKey x y, k) ∈ unitSlots f W H u) : x < W ∧ y < H := by
  have row (columns : x < W) (number : y * W + x < W * H) : x < W ∧ y < H :=
    ⟨columns, Nat.lt_of_mul_lt_mul_left (a := W) (by rw [Nat.mul_comm W y]; omega)⟩
  cases f with
  | block b =>
    obtain ⟨⟨-, -, inside⟩, -⟩ := (mem_unitSlots_block hW hx).1 slot
    exact inside
  | idx4 =>
    simp only [unitCount] at hu
    have width : 0 < W := Nat.pos_of_mul_pos_right (b := H) (by omega)
    obtain ⟨⟨columns, left⟩, -⟩ | ⟨⟨columns, right⟩, -⟩ := (mem_unitSlots_idx4 width hW hx).1 slot
    · exact row columns (by omega)
    · exact row columns (by omega)
  | idx8 =>
    have width : 0 < W := Nat.pos_of_mul_pos_right (Nat.zero_lt_of_lt hu)
    obtain ⟨⟨columns, rfl⟩, -⟩ := (mem_unitSlots_idx8 width hW hx).1 slot
    exact row columns hu

/-- The pixels of the units from `f0` on are those of the image whose unit is not before `f0` (60 R341 (a)). -/
theorem mem_unitCells_iff {f : Fmt} {W H f0 x y : Nat} (hW : W ≤ 65535) (hx : x < 65536)
    (even : f = .idx4 → W % 2 = 0) :
    imageKey x y ∈ unitCells f W H f0 (unitCount f W H) ↔ x < W ∧ y < H ∧ f0 ≤ unitOfPixel f W x y := by
  rw [mem_unitCells]
  constructor
  · rintro ⟨u, from0, last, k, slot⟩
    obtain ⟨column, row⟩ := inside_of_mem_unitSlots hW hx last slot
    obtain rfl := (mem_unitSlots_iff column row hW).1 ⟨k, slot⟩
    exact ⟨column, row, from0⟩
  · rintro ⟨column, row, from0⟩
    exact ⟨_, from0, unitOfPixel_lt column row even, (mem_unitSlots_iff column row hW).2 rfl⟩

section
variable {s u : State} {f : Fmt} {f0 x y : Nat}

/-- Scrambling the units from `f0` on puts some pixel in range at each of their pixels (60 R341 (a)). -/
theorem get_scrambleUnits_some (even : f = .idx4 → s.width.toNat % 2 = 0) (column : x < s.width.toNat)
    (row : y < s.height.toNat) (from0 : f0 ≤ unitOfPixel f s.width.toNat x y) :
    ∃ p, Memory.get (scrambleImage (unitCells f s.width.toNat s.height.toNat f0 (unitTotal s (.dec f))) u).image
      (imageKey x y) = some p ∧ p.inRange = true := by
  have cell := (mem_unitCells_iff (half_le s.width) (by omega) even).2 ⟨column, row, from0⟩
  obtain ⟨j, pixel⟩ := (get_scrambleImage _ u _).1 cell
  exact ⟨_, pixel, freePixel_inRange j⟩

/-- Scrambling the units from `f0` on keeps the units before and everything outside the image (60 R341 (a)). -/
theorem get_scrambleUnits_other (even : f = .idx4 → s.width.toNat % 2 = 0) (hx : x < 65536)
    (kept : s.width.toNat ≤ x ∨ s.height.toNat ≤ y ∨ unitOfPixel f s.width.toNat x y < f0) :
    Memory.get (scrambleImage (unitCells f s.width.toNat s.height.toNat f0 (unitTotal s (.dec f))) u).image
      (imageKey x y) = Memory.get u.image (imageKey x y) := by
  refine (get_scrambleImage _ u _).2 fun cell => ?_
  obtain ⟨_, _, _⟩ := (mem_unitCells_iff (half_le s.width) hx even).1 cell
  omega

end

/-- Settles O46: the unit is not fetched, and the error leaves the pixels of the units from it on unspecified. -/
theorem truncatedDecode : Obligations.TruncatedDecode := by
  intro f s due waits short even
  have ran : step s = .next (raiseInUnit (.dec f) .truncatedStream s) := by
    rw [step_waiting due.1 waits, fetchUnit_truncated due short]
    rfl
  exact ⟨_, ran, rfl, fun x y hx => ⟨get_scrambleUnits_other even hx, get_scrambleUnits_some even⟩⟩

/-! ### The bytes an error or a reset leaves unspecified -/

theorem get_scrambleStream_isSome {cells : List Nat} {s : State} {a : Nat} (h : a ∈ cells) :
    (Memory.get (scrambleStream cells s).stream a).isSome := by
  obtain ⟨v, -, written⟩ := Memory.get_setMany_some (m := s.stream) (ws := freeByteCells s.draws cells) (a := a)
    (by simpa using h)
  exact Option.isSome_of_eq_some written

/-- They run from `a` to the end of the texture or of the stream, whichever comes first (60 R341 (b)). -/
theorem mem_unspecifiedBytes {c : Command} {a i : Nat} {s : State} : i ∈ unspecifiedBytes c a s ↔
    a ≤ i ∧ i < min s.slen.toNat (streamStart c s + unitTotal s c * unitSize (commandFmt c)) := by
  rw [unspecifiedBytes, List.mem_range'_1]
  omega

/-- A due unit of ENC that does not fit raises TruncatedStream once its tile is gathered (46 R293, 20 R63). -/
theorem encUnit_truncated {s : State} {b : BlockFmt} {T : List Pixel} (e : List Pixel → List Byte)
    (due : UnitDue s (.enc b)) (short : ¬ UnitFits s (.enc b)) (got : gatherTile s s.ucnt.toNat = some T) :
    encUnit b e s = .next (raiseInUnit (.enc b) .truncatedStream (afterGather s)) := by
  have hf : ¬ fitsStream s s.spos.toNat (unitSize (.block b)) = true := fun h => short ((fitsStream_iff ..).1 h)
  rw [encUnit, if_pos ((unitReady_iff ..).2 due), got]
  exact if_neg hf

/-- Settles O47: the error leaves the bytes from SPOS to the end of the range unspecified, and no others. -/
theorem truncatedEncode : Obligations.TruncatedEncode := by
  intro i b h s due short written
  obtain ⟨T, got⟩ := gatherTile_isSome written
  have ran : exec i s = .next (raiseInUnit (.enc b) .truncatedStream (afterGather s)) := by
    rw [← encUnit_truncated (bytesOfTile b) due short got]
    obtain ⟨rfl, rfl⟩ | ⟨rfl, rfl⟩ | ⟨rfl, rfl⟩ := h <;> rfl
  refine ⟨_, ran, rfl, fun a kept => get_scrambleStream_other fun free => ?_⟩
  obtain ⟨lo, hi⟩ := mem_unspecifiedBytes.1 free
  exact kept.elim (Nat.not_lt.2 lo) (Nat.not_le.2 hi)

/-! ### No host action -/

/-- Settles O27: with no action in its script the host moves the codec to the state it is in. -/
theorem idleCodecStays : Obligations.IdleCodecStays := by
  intro s idle noAction
  rw [step_idle idle, fetchIdle, noAction]
  rfl

/-! ### Reset -/

section
variable {s : State} {rest : List HostAction}

/-- A reset takes the reset state's value for everything but the host's script, the count of free values and the
memories that a command can have written (70 R370, R371). -/
theorem resetTo_frame (s : State) : resetTo s = { State.reset with
    script := s.script, draws := (resetTo s).draws, stream := (resetTo s).stream, image := (resetTo s).image } := by
  unfold resetTo
  split
  · rfl
  · rfl
  · rfl

/-- With no command in progress a reset leaves both memories empty (70 R370). -/
theorem resetTo_of_not_running (ended : s.status ≠ .busy ∨ s.running = none) :
    resetTo s = { State.reset with script := s.script, draws := s.draws } := by
  unfold resetTo
  split
  · next busy run => simp [busy, run] at ended
  · next busy run => simp [busy, run] at ended
  · rfl

theorem resetTo_memories_of_not_running (noCommand : s.running = none) :
    (resetTo s).stream = [] ∧ (resetTo s).image = [] := by
  rw [resetTo_of_not_running (.inr noCommand)]
  exact ⟨rfl, rfl⟩

theorem resetTo_dec {f : Fmt} (busy : s.status = .busy) (run : s.running = some (.dec f)) :
    resetTo s = scrambleImage (unitCells f s.width.toNat s.height.toNat 0 (unitTotal s (.dec f)))
      { State.reset with script := s.script, draws := s.draws } := by
  simp only [resetTo, busy, run]

theorem resetTo_enc {b : BlockFmt} (busy : s.status = .busy) (run : s.running = some (.enc b)) :
    resetTo s = scrambleStream (unspecifiedBytes (.enc b) (streamStart (.enc b) s) s)
      { State.reset with script := s.script, draws := s.draws } := by
  simp only [resetTo, busy, run]

theorem resetTo_dec_stream {f : Fmt} (busy : s.status = .busy) (run : s.running = some (.dec f)) :
    (resetTo s).stream = [] := by
  rw [resetTo_dec busy run]; rfl

theorem resetTo_enc_image {b : BlockFmt} (busy : s.status = .busy) (run : s.running = some (.enc b)) :
    (resetTo s).image = [] := by
  rw [resetTo_enc busy run]; rfl

/-- A free value says whether a reset lands before the next unit of the running command (log 16). -/
theorem fetchBusy_reset (hs : s.script = .reset :: rest) : fetchBusy s =
    if Config.freePoll s.draws then .moved (resetTo { s with script := rest, draws := s.draws + 1 })
    else fetchUnit { s with draws := s.draws + 1 } := by
  rw [fetchBusy, hs]

/-- A reset while a DEC is in progress: each pixel of the image holds some pixel, no other cell anything (70 R371). -/
theorem get_resetTo_dec {f : Fmt} {x y : Nat} (busy : s.status = .busy) (run : s.running = some (.dec f))
    (even : f = .idx4 → s.width.toNat % 2 = 0) (hx : x < 65536) :
    (s.width.toNat ≤ x ∨ s.height.toNat ≤ y → Memory.get (resetTo s).image (imageKey x y) = none) ∧
    (x < s.width.toNat → y < s.height.toNat →
      ∃ p, Memory.get (resetTo s).image (imageKey x y) = some p ∧ p.inRange = true) := by
  rw [resetTo_dec busy run]
  refine ⟨fun outside => ?_, fun column row => get_scrambleUnits_some even column row (Nat.zero_le _)⟩
  rw [get_scrambleUnits_other even hx (outside.imp_right .inl)]
  exact Memory.get_nil _

/-- A reset while an ENC is in progress: the bytes the command could write hold some byte, no other does (70 R371). -/
theorem isSome_get_resetTo_enc {b : BlockFmt} (busy : s.status = .busy) (run : s.running = some (.enc b)) (a : Nat) :
    (Memory.get (resetTo s).stream a).isSome ↔
      s.spos.toNat - s.ucnt.toNat * unitSize (.block b) ≤ a ∧
      a < min s.slen.toNat (s.spos.toNat - s.ucnt.toNat * unitSize (.block b) +
        unitTotal s (.enc b) * unitSize (.block b)) := by
  refine Iff.trans ?_ (mem_unspecifiedBytes (c := .enc b) (a := streamStart (.enc b) s))
  rw [resetTo_enc busy run]
  refine ⟨fun written => ?_, get_scrambleStream_isSome⟩
  by_contra other
  rw [get_scrambleStream_other other] at written
  cases written

end

/-- Settles O28: what is fetched for a reset, and the state a reset leaves by the command it abandons. -/
theorem resetAction : Obligations.ResetAction := by
  intro s rest hs
  refine ⟨fun idle => ?_, fun busy => ?_⟩
  · rw [step_host idle hs (.inr rfl)]
    exact congrArg _ (resetTo_of_not_running (s := { s with script := rest }) (.inl idle))
  · rw [step_busy busy, fetchBusy_reset hs, unitFirst_eq busy]
    cases Config.freePoll s.draws with
    | false => exact .inl ⟨rfl, rfl⟩
    | true =>
      refine .inr ⟨rfl, _, rfl, resetTo_frame _, fun noCommand => ?_, fun f run even => ⟨?_, fun x y hx => ?_⟩,
        fun b run => ⟨?_, fun a => ?_⟩⟩
      · exact resetTo_memories_of_not_running noCommand
      · exact resetTo_dec_stream busy run
      · exact get_resetTo_dec (s := { s with script := rest, draws := s.draws + 1 }) busy run even hx
      · exact resetTo_enc_image busy run
      · exact isSome_get_resetTo_enc (s := { s with script := rest, draws := s.draws + 1 }) busy run a

end Sys2Proof.Machine
end
